-- ==== Sys2Proof/Word.lean ====
section
/-! DEFINITION. The word types of the core: 32-bit command, output and register words, and payload bytes (R8, R80, R89). -/

namespace Sys2Proof

/-- A 32-bit register, command or output word (R45, R80, R89). -/
abbrev Word := BitVec 32

/-- One payload byte (R64). -/
abbrev Byte := BitVec 8

end Sys2Proof
end

