-- ==== Sys2Proof/Config.lean ====
section
/-! DEFINITION. The constants of R6 and the free values of the behaviours that 93_implementation_defined.md leaves at "any value". -/

namespace Sys2Proof.Config

/-- `A`, the alphabet size (R6, R7): a constant of the format, not a parameter. -/
abbrev alphabet : Nat := 65537

/-- `EOS = A-1`, the end-of-stream symbol (R6). -/
abbrev eos : Nat := 65536

/-- `SAMPLE_MAX = A-2`, the largest sample value (R6). -/
abbrev sampleMax : Nat := 65535

/-- `LMAX`, the longest code length the core holds (R6, D4). -/
abbrev lmax : Nat := 64

/-- `TOTAL_MAX = 2^32 - 2`, the most samples one histogram counts (R6, D3). -/
abbrev totalMax : Word := 0xFFFFFFFE

/-- `PUSH_MAX`, the most output words one command pushes (R6, R90). -/
abbrev pushMax : Nat := 10

/-- `INVALID`, the entry of FIRST at a length that no symbol has (R29). -/
abbrev invalid : Word := 0xFFFFFFFF

/-- The value of `ID` (R47, D1). -/
abbrev idValue : Word := 0x53514431

/-- FREE VALUE (I1, I5): what entry `i`, of `w` bits, reads as in the `draw`-th table whose contents the spec
leaves unspecified. It has no body: nothing can be proved of its value. DESIGN CHOICE, safe:
log 2, 4. -/
opaque freeEntry (w draw i : Nat) : BitVec w

/-- FREE VALUE (I3): the word that the `draw`-th window read of an invalid table, or of any table while BUSY,
returns. It has no body: nothing can be proved of its value. DESIGN CHOICE, safe: log 3. -/
opaque freeWord (draw : Nat) : Word

end Sys2Proof.Config
end

