-- ==== Sys2Proof/Syntax.lean ====
section
/-! DEFINITION. The thirteen commands of the opcode map (R85), one constructor per row of spec/opcode_table.json, operands as R82 and R83 give them. -/

namespace Sys2Proof

/-- A command. Every operand is an unsigned field of the width R82 gives it, so every term is encodable (R83:
values above the range a command accepts are legal encodings that raise an error when executed). -/
inductive Instr where
  /-- NOP (R99). -/
  | nop
  /-- HIST_CLEAR (R100). -/
  | histClear
  /-- HIST_SAMPLE m, v (R101): `m` is the mask bit, true inside the field of view. -/
  | histSample (m : Bool) (v : BitVec 25)
  /-- BUILD_TREE (R104). -/
  | buildTree
  /-- LEN_CLEAR (R110). -/
  | lenClear
  /-- LEN_WRITE s, l (R111). -/
  | lenWrite (sym : BitVec 17) (l : BitVec 7)
  /-- BUILD_CODES (R112). -/
  | buildCodes
  /-- ENC_START (R121). -/
  | encStart
  /-- ENC_SAMPLE m, v (R122). -/
  | encSample (m : Bool) (v : BitVec 25)
  /-- ENC_FINISH (R123). -/
  | encFinish
  /-- DEC_START (R127). -/
  | decStart
  /-- DEC_BYTE b (R128). -/
  | decByte (b : Byte)
  /-- DEC_END (R129). -/
  | decEnd
  deriving DecidableEq, Repr

/-- The four word formats of R82. -/
inductive Format where
  /-- N: no operand. -/
  | none
  /-- S: mask bit and sample value. -/
  | sample
  /-- L: symbol and length. -/
  | length
  /-- B: payload byte. -/
  | byte
  deriving DecidableEq, Repr

/-- The commands that may push output words (R90), the ones that R93 holds while OUTQ lacks PUSH_MAX free slots. -/
def Instr.mayPush : Instr → Bool
  | .nop => false
  | .histClear => false
  | .histSample _ _ => false
  | .buildTree => false
  | .lenClear => false
  | .lenWrite _ _ => false
  | .buildCodes => false
  | .encStart => false
  | .encSample _ _ => true
  | .encFinish => true
  | .decStart => false
  | .decByte _ => true
  | .decEnd => false

end Sys2Proof
end

