-- ==== Sys2Proof/WellFormed.lean ====
section
/-! DEFINITION. Which 32-bit words are commands: a known opcode and every reserved bit 0 (R82, R85, R86). Every term of
Instr is well formed by its types, so the checks that can refuse something are the checks on words. -/

namespace Sys2Proof

/-- The opcode field `OP = w[31:26]` of every format (R81). -/
def opcodeField (w : Word) : BitVec 6 := w.extractLsb' 26 6

/-- The format that an opcode selects (R85), none for the reserved opcodes 0x0D to 0x3F (R87). -/
def formatOf (op : BitVec 6) : Option Format :=
  match op.toNat with
  | 0x00 => some .none    -- NOP
  | 0x01 => some .none    -- HIST_CLEAR
  | 0x02 => some .sample  -- HIST_SAMPLE
  | 0x03 => some .none    -- BUILD_TREE
  | 0x04 => some .none    -- LEN_CLEAR
  | 0x05 => some .length  -- LEN_WRITE
  | 0x06 => some .none    -- BUILD_CODES
  | 0x07 => some .none    -- ENC_START
  | 0x08 => some .sample  -- ENC_SAMPLE
  | 0x09 => some .none    -- ENC_FINISH
  | 0x0A => some .none    -- DEC_START
  | 0x0B => some .byte    -- DEC_BYTE
  | 0x0C => some .none    -- DEC_END
  | _ => none

/-- The reserved bits of a format are 0 (R82, R86). Format S has no reserved bits. -/
def reservedZero (f : Format) (w : Word) : Bool :=
  match f with
  | .none => w.extractLsb' 0 26 == 0
  | .sample => true
  | .length => w.extractLsb' 24 2 == 0
  | .byte => w.extractLsb' 8 18 == 0

/-- A word that is a command (R86): its opcode is one of the thirteen and its reserved bits are 0. -/
def wellFormedWord (w : Word) : Bool :=
  match formatOf (opcodeField w) with
  | none => false
  | some f => reservedZero f w

/-- The format of a command (R85). -/
def Instr.format : Instr → Format
  | .nop => .none
  | .histClear => .none
  | .histSample _ _ => .sample
  | .buildTree => .none
  | .lenClear => .none
  | .lenWrite _ _ => .length
  | .buildCodes => .none
  | .encStart => .none
  | .encSample _ _ => .sample
  | .encFinish => .none
  | .decStart => .none
  | .decByte _ => .byte
  | .decEnd => .none

/-- The opcode of a command (R85). -/
def Instr.opcode : Instr → BitVec 6
  | .nop => 0x00
  | .histClear => 0x01
  | .histSample _ _ => 0x02
  | .buildTree => 0x03
  | .lenClear => 0x04
  | .lenWrite _ _ => 0x05
  | .buildCodes => 0x06
  | .encStart => 0x07
  | .encSample _ _ => 0x08
  | .encFinish => 0x09
  | .decStart => 0x0A
  | .decByte _ => 0x0B
  | .decEnd => 0x0C

/-- A command is well formed when its opcode selects its format. Operand widths are carried by the types (R83), so
this holds of every command; it is the syntax's agreement with the opcode map. -/
def Instr.wellFormed (i : Instr) : Bool :=
  formatOf i.opcode == some i.format

end Sys2Proof
end

