-- ==== Sys2Proof/Decode.lean ====
section
/-! DEFINITION. The decode function of R86, total on every 32-bit word, and after it the encoder of R84. -/

namespace Sys2Proof

/-- Why a word is ILLEGAL (R86, R87). -/
inductive Illegal where
  /-- The opcode is one of 0x0D to 0x3F. -/
  | reservedOpcode (op : BitVec 6)
  /-- A reserved bit of the opcode's format is set. -/
  | reservedBits (f : Format)
  /-- Fewer than four bytes were given. -/
  | tooShort
  deriving DecidableEq, Repr

/-- `M = w[25]` (R82). -/
def maskField (w : Word) : Bool := w.getLsbD 25

/-- `V = w[24:0]` (R82). -/
def sampleField (w : Word) : BitVec 25 := w.extractLsb' 0 25

/-- `S = w[23:7]` (R82). -/
def symbolField (w : Word) : BitVec 17 := w.extractLsb' 7 17

/-- `L = w[6:0]` (R82). -/
def lengthField (w : Word) : BitVec 7 := w.extractLsb' 0 7

/-- `B = w[7:0]` (R82). -/
def byteField (w : Word) : Byte := w.extractLsb' 0 8

/-- A format's word is accepted only with its reserved bits 0 (R86). -/
def accept (f : Format) (w : Word) (i : Instr) : Except Illegal Instr :=
  if reservedZero f w then .ok i else .error (.reservedBits f)

/-- The decode function (R86): every word is exactly one command or ILLEGAL. -/
def decode (w : Word) : Except Illegal Instr :=
  match (opcodeField w).toNat with
  | 0x00 => accept .none w .nop
  | 0x01 => accept .none w .histClear
  | 0x02 => accept .sample w (.histSample (maskField w) (sampleField w))
  | 0x03 => accept .none w .buildTree
  | 0x04 => accept .none w .lenClear
  | 0x05 => accept .length w (.lenWrite (symbolField w) (lengthField w))
  | 0x06 => accept .none w .buildCodes
  | 0x07 => accept .none w .encStart
  | 0x08 => accept .sample w (.encSample (maskField w) (sampleField w))
  | 0x09 => accept .none w .encFinish
  | 0x0A => accept .none w .decStart
  | 0x0B => accept .byte w (.decByte (byteField w))
  | 0x0C => accept .none w .decEnd
  | _ => .error (.reservedOpcode (opcodeField w))

/-- The word whose byte lanes, lane 0 first, are `b0 b1 b2 b3`: lane `j` carries bits `[8j+7:8j]` (R66). -/
def ofLanes (b0 b1 b2 b3 : Byte) : Word := b3 ++ b2 ++ b1 ++ b0

/-- Byte lane `j` of a word (R66). -/
def lane (w : Word) (j : Nat) : Byte := w.extractLsb' (8 * j) 8

/-- The command read from bytes in register lane order (R66), with the bytes after it. -/
def decodeBytes : List Byte → Except Illegal (Instr × List Byte)
  | b0 :: b1 :: b2 :: b3 :: rest =>
    match decode (ofLanes b0 b1 b2 b3) with
    | .ok i => .ok (i, rest)
    | .error e => .error e
  | _ => .error .tooShort

/-- The command that the decoder reads from an instruction whose bits are `w`: its bits below `nbits`, those above
being 0, laid out in register lane order. Every command is one 32-bit word (R80), so a longer instruction is refused. -/
def decodeTableWord (nbits w : Nat) : Option Instr :=
  let x : Word := BitVec.ofNat 32 (w % 2 ^ nbits)
  if w % 2 ^ nbits < 2 ^ 32 then
    match decodeBytes [lane x 0, lane x 1, lane x 2, lane x 3] with
    | .ok (i, _) => some i
    | .error _ => none
  else none

/-- Format N: `OP << 26` (R84). -/
def encodeNone (op : BitVec 6) : Word := op ++ (0 : BitVec 26)

/-- Format S: `(OP << 26) | (M << 25) | V` (R84). -/
def encodeSample (op : BitVec 6) (m : Bool) (v : BitVec 25) : Word := op ++ BitVec.ofBool m ++ v

/-- Format L: `(OP << 26) | (S << 7) | L` (R84). -/
def encodeLength (op : BitVec 6) (sym : BitVec 17) (l : BitVec 7) : Word := op ++ (0 : BitVec 2) ++ sym ++ l

/-- Format B: `(OP << 26) | B` (R84). -/
def encodeByte (op : BitVec 6) (b : Byte) : Word := op ++ (0 : BitVec 18) ++ b

/-- The word of a command (R84, R85). -/
def encode : Instr → Word
  | .nop => encodeNone 0x00
  | .histClear => encodeNone 0x01
  | .histSample m v => encodeSample 0x02 m v
  | .buildTree => encodeNone 0x03
  | .lenClear => encodeNone 0x04
  | .lenWrite sym l => encodeLength 0x05 sym l
  | .buildCodes => encodeNone 0x06
  | .encStart => encodeNone 0x07
  | .encSample m v => encodeSample 0x08 m v
  | .encFinish => encodeNone 0x09
  | .decStart => encodeNone 0x0A
  | .decByte b => encodeByte 0x0B b
  | .decEnd => encodeNone 0x0C

end Sys2Proof
end

