-- ==== Sys2Proof/Machine/State.lean ====
section
/-! DEFINITION. The architectural state of 10_state.md, the events that move it, the reasons a step can stop, and the state after reset (R153). -/

namespace Sys2Proof.Machine

/-- What the entries of a table read as where no cell lists them. -/
inductive Fill (w : Nat) where
  /-- Every unlisted entry holds `v`. -/
  | const (v : BitVec w)
  /-- Unspecified contents (I1, I5): entry `i` reads as the free value `Config.freeEntry w draw i`. -/
  | free (draw : Nat)
  deriving DecidableEq, Repr

/-- A table of `n` entries of `w` bits (R63): its fill, and the entries that differ from it as (index, value) cells,
indices strictly rising (DESIGN CHOICE, safe: log 2). -/
structure Table (n w : Nat) where
  fill : Fill w
  cells : List (Nat × BitVec w)
  deriving DecidableEq, Repr

/-- The decoder's walk state (R36). -/
inductive DecState where
  /-- No walk is open. -/
  | idle
  /-- Walking. -/
  | run
  /-- The running code reached MAX_LEN bits without matching. -/
  | noMatch
  /-- The EOS code was matched. -/
  | done
  deriving DecidableEq, Repr

/-- The hardwired parameters that the spec leaves OPEN (R6, D6, D7, I12, I13). No step changes them. DESIGN CHOICE,
unsafe for State.reset alone: log 1. -/
structure Params where
  /-- `CMDQ_DEPTH`, 1 to 255. -/
  cmdqDepth : BitVec 8
  /-- `OUTQ_DEPTH`, 10 to 255. -/
  outqDepth : BitVec 8
  /-- `BASE`, the byte address of the register window (R70). -/
  base : Nat
  deriving DecidableEq, Repr

/-- One atomic event of the total order of R72. -/
inductive Event where
  /-- The core takes a step if one is enabled (R93). -/
  | core
  /-- The reset input resets the core (R152). -/
  | resetInput
  /-- The host reads `bytes` bytes at `addr` (R79). -/
  | read (addr bytes : Nat)
  /-- The host writes the `bytes` bytes of `v` at `addr` (R79). -/
  | write (addr bytes : Nat) (v : Word)
  deriving DecidableEq, Repr

/-- The error codes of R133. -/
inductive ErrKind where
  /-- ILLEGAL_CMD, 0x01. -/
  | illegalCmd
  /-- SEQUENCE, 0x02. -/
  | sequence
  /-- INVALID_SYMBOL, 0x03. -/
  | invalidSymbol
  /-- LEN_RANGE, 0x04. -/
  | lenRange
  /-- UNCODED_SYMBOL, 0x05. -/
  | uncodedSymbol
  /-- CAPACITY, 0x06. -/
  | capacity
  /-- BUILD_FAIL, 0x07. -/
  | buildFail
  /-- CODE_ASSIGN, 0x08. -/
  | codeAssign
  /-- TRUNCATED, 0x09. -/
  | truncated
  /-- CMDQ_OVERFLOW, 0x0A. -/
  | cmdqOverflow
  deriving DecidableEq, Repr

/-- The error kinds of the source (R135), under which the host reports a core error code. -/
inductive SourceKind where
  /-- InvalidArgument. -/
  | invalidArgument
  /-- FormatError. -/
  | formatError
  /-- TruncatedStream. -/
  | truncatedStream
  /-- CodeAssignmentFailure. -/
  | codeAssignmentFailure
  /-- IOFailure, raised by the host alone. -/
  | ioFailure
  deriving DecidableEq, Repr

/-- The machine never stops with a fault: a recorded error is the state HALT = 1, which is never final (R151, I7), and
a hold or a quiescent core waits (R93, I6). The type has no constructors, which is safe: nothing raises one. -/
inductive Fault where
  deriving DecidableEq, Repr

/-- Why a step has no meaning. -/
inductive Refusal where
  /-- An instruction that the model does not give a meaning yet, raised by exec's arm. Safe: the model stops. -/
  | notModelled (mnemonic : String)
  /-- A host access of another width than 32 bits, or at an unaligned offset (R67, I4: "A model refuses it"), raised
  by the host access operations. Safe: the spec gives it no meaning. -/
  | undefinedAccess (addr bytes : Nat)
  /-- A host access outside the 256 bytes of the register window, raised by the host access operations: it does not
  reach this core (R62, R70). Safe: the model stops. DESIGN CHOICE, log 8. -/
  | outsideWindow (addr : Nat)
  deriving DecidableEq, Repr

/-- The state (R21), every field under the spec's name. The last three fields are the model's own. -/
structure State where
  /-- CMDQ_DEPTH, OUTQ_DEPTH and BASE (R6, R48, R70). -/
  params : Params
  /-- COUNT, the histogram (R23). -/
  count : Table 65537 32
  /-- HIST_TOTAL (R25). -/
  histTotal : BitVec 32
  /-- LEN, the code lengths (R26). -/
  len : Table 65537 7
  /-- CODE, the code patterns (R27). -/
  code : Table 65537 64
  /-- SORTED, the lengths-sorted table (R28). -/
  sorted : Table 65537 17
  /-- FIRST, the index of the first symbol of each length (R29). -/
  first : Table 65 32
  /-- NUM_CODED (R30). -/
  numCoded : BitVec 17
  /-- MAX_LEN (R30). -/
  maxLen : BitVec 7
  /-- TOTAL_BITS (R31). -/
  totalBits : BitVec 64
  /-- HIST_VALID (R32). -/
  histValid : Bool
  /-- LEN_VALID (R32). -/
  lenValid : Bool
  /-- CODES_VALID (R32). -/
  codesValid : Bool
  /-- ENC_ACTIVE (R33). -/
  encActive : Bool
  /-- ENC_ACC (R34). -/
  encAcc : Byte
  /-- ENC_NACC (R34). -/
  encNacc : BitVec 3
  /-- ENC_BITS (R35). -/
  encBits : BitVec 64
  /-- ENC_BYTES (R35). -/
  encBytes : BitVec 64
  /-- DEC_STATE (R36). -/
  decState : DecState
  /-- DEC_RC (R37). -/
  decRc : BitVec 64
  /-- DEC_RL (R37). -/
  decRl : BitVec 7
  /-- DEC_SYMS (R38). -/
  decSyms : BitVec 32
  /-- DEC_BITS (R38). -/
  decBits : BitVec 64
  /-- CMDQ, head first (R39). Its head is the core's sequence point (R24). -/
  cmdq : List Word
  /-- OUTQ, head first (R40). -/
  outq : List Word
  /-- HALT (R41). -/
  halt : Bool
  /-- ERR_CODE (R42). -/
  errCode : BitVec 8
  /-- ERR_CMD (R42). -/
  errCmd : Word
  /-- ERR_ARG (R42). -/
  errArg : Word
  /-- IRQ_EN (R43, R54). -/
  irqEn : BitVec 5
  /-- P_ERR (R43, R55). -/
  pErr : Bool
  /-- P_IDLE (R43, R55). -/
  pIdle : Bool
  /-- P_ENC_DONE (R43, R55). -/
  pEncDone : Bool
  /-- P_DEC_DONE (R43, R55). -/
  pDecDone : Bool
  /-- TBL_INDEX (R44). -/
  tblIndex : BitVec 17
  /-- The model's own: how many free values have been used. DESIGN CHOICE, safe: log 3. -/
  draws : Nat
  /-- The model's own: the events still to come, in the total order of R72. Empty: the core moves.
  DESIGN CHOICE, safe: log 5. -/
  agenda : List Event
  /-- The model's own: what the last host read returned. DESIGN CHOICE, safe: log 6. -/
  busData : Word
  deriving DecidableEq, Repr

/-- What the next event asks for. -/
inductive Move where
  /-- The core executes the decoded head command in this state. -/
  | run (i : Instr) (s : State)
  /-- The event is over with this outcome. -/
  | settled (o : Host.Outcome State Fault Refusal)

/-- A table whose contents the spec leaves unspecified (I1, I5). -/
def Table.unspecified (n w draw : Nat) : Table n w := { fill := .free draw, cells := [] }

/-- The core right after reset (R153, R154), with the reference values of the OPEN parameters (D6; DESIGN
CHOICE, unsafe: log 1). -/
def State.reset : State where
  params := { cmdqDepth := 16, outqDepth := 16, base := 0 }
  count := .unspecified 65537 32 0
  histTotal := 0
  len := .unspecified 65537 7 1
  code := .unspecified 65537 64 2
  sorted := .unspecified 65537 17 3
  first := .unspecified 65 32 4
  numCoded := 0
  maxLen := 0
  totalBits := 0
  histValid := false
  lenValid := false
  codesValid := false
  encActive := false
  encAcc := 0
  encNacc := 0
  encBits := 0
  encBytes := 0
  decState := .idle
  decRc := 0
  decRl := 0
  decSyms := 0
  decBits := 0
  cmdq := []
  outq := []
  halt := false
  errCode := 0
  errCmd := 0
  errArg := 0
  irqEn := 0
  pErr := false
  pIdle := false
  pEncDone := false
  pDecDone := false
  tblIndex := 0
  draws := 5
  agenda := []
  busData := 0

end Sys2Proof.Machine
end

