-- ==== Sys2Proof/Machine/Ops.lean ====
section
/-! DEFINITION. The shared operations of the machine: tables, output, retirement, error entry and return, free values, reset. -/

namespace Sys2Proof.Machine

/-! ### Tables (R23 to R29, R63) -/

/-- What entry `i` of a table reads as where no cell lists it. -/
def Fill.at {w : Nat} (f : Fill w) (i : Nat) : BitVec w :=
  match f with
  | .const v => v
  | .free draw => Config.freeEntry w draw i

/-- An unlisted entry is known to hold `v`. Nothing is known of an unspecified entry. -/
def Fill.knows {w : Nat} (f : Fill w) (v : BitVec w) : Bool :=
  match f with
  | .const u => v == u
  | .free _ => false

/-- The value listed for index `i`, if there is one. -/
def lookupCell {w : Nat} : List (Nat × BitVec w) → Nat → Option (BitVec w)
  | [], _ => none
  | (j, v) :: rest, i => if i = j then some v else lookupCell rest i

/-- Lists `v` at index `i`, keeping the indices rising. -/
def insertCell {w : Nat} (i : Nat) (v : BitVec w) : List (Nat × BitVec w) → List (Nat × BitVec w)
  | [] => [(i, v)]
  | (j, u) :: rest =>
    if i < j then (i, v) :: (j, u) :: rest
    else if i = j then (i, v) :: rest
    else (j, u) :: insertCell i v rest

/-- Removes what is listed at index `i`. -/
def eraseCell {w : Nat} (i : Nat) (cells : List (Nat × BitVec w)) : List (Nat × BitVec w) :=
  cells.filter (fun c => c.1 != i)

/-- The indices of the cells are strictly rising. -/
def risingCells {w : Nat} : List (Nat × BitVec w) → Bool
  | [] => true
  | [_] => true
  | a :: b :: rest => a.1 < b.1 && risingCells (b :: rest)

/-- `T[i]` (R10). -/
def Table.get {n w : Nat} (t : Table n w) (i : Nat) : BitVec w :=
  (lookupCell t.cells i).getD (t.fill.at i)

/-- `T[i] <- v` (R10). An index the table does not have is not written (R14: none occurs). -/
def Table.set {n w : Nat} (t : Table n w) (i : Nat) (v : BitVec w) : Table n w :=
  if i < n then
    { t with cells := if t.fill.knows v then eraseCell i t.cells else insertCell i v t.cells }
  else t

/-- The table with every entry `v`. -/
def Table.const (n w : Nat) (v : BitVec w) : Table n w := { fill := .const v, cells := [] }

/-- The canonical form: indices strictly rising and below the table's size, and no cell with the value that an unlisted
entry is known to hold. -/
def Table.wf {n w : Nat} (t : Table n w) : Bool :=
  risingCells t.cells && t.cells.all (fun c => decide (c.1 < n) && !t.fill.knows c.2)

/-- The indices whose entries are not 0, ascending. Where unlisted entries are 0, only the listed ones can be. -/
def Table.support {n w : Nat} (t : Table n w) : List Nat :=
  if t.fill = .const 0#w then (t.cells.filter (fun c => c.2 != 0#w)).map (·.1)
  else (List.range n).filter (fun i => t.get i != 0#w)

/-! ### Output (R10, R40, R89) -/

/-- `push_out(w)`: appends `w` to the tail of OUTQ (R10, R40). -/
def State.pushOut (s : State) (w : Word) : State := { s with outq := s.outq ++ [w] }

/-- `BYTE(b) = 0x4000_0000 | b` (R89). -/
def byteWord (b : Byte) : Word := 0x40000000 ||| b.setWidth 32

/-- `SYM(s) = 0x8000_0000 | s` (R89). -/
def symWord (sym : BitVec 17) : Word := 0x80000000 ||| sym.setWidth 32

/-- `END_ENC` (R89). -/
def endEncWord : Word := 0xC0000000

/-- `END_DEC` (R89). -/
def endDecWord : Word := 0xC0000001

/-- The word a read of an empty OUTQ returns (R57, R89). -/
def emptyWord : Word := 0

/-- OUTQ has PUSH_MAX free slots (R93). -/
def State.outRoom (s : State) : Bool := s.outq.length + Config.pushMax ≤ s.params.outqDepth.toNat

/-- `CTRL.OUT_FLUSH`: empties OUTQ (R50). -/
def State.flushOut (s : State) : State := { s with outq := [] }

/-! ### Retirement (R95, R96) -/

/-- The head command: the word executing, or about to (R24, R39). No step executes on an empty CMDQ
(DESIGN CHOICE, safe: log 11). -/
def State.headWord (s : State) : Word := s.cmdq.headD 0

/-- `pc <- next`, then P_IDLE if CMDQ is empty (R95): a command that succeeds leaves CMDQ. -/
def State.retire (s : State) : State :=
  { s with cmdq := s.cmdq.tail, pIdle := s.pIdle || s.cmdq.tail.isEmpty }

/-! ### Error entry and return (R133, R136, R139) -/

/-- The code of an error (R133). -/
def ErrKind.code : ErrKind → BitVec 8
  | .illegalCmd => 0x01
  | .sequence => 0x02
  | .invalidSymbol => 0x03
  | .lenRange => 0x04
  | .uncodedSymbol => 0x05
  | .capacity => 0x06
  | .buildFail => 0x07
  | .codeAssign => 0x08
  | .truncated => 0x09
  | .cmdqOverflow => 0x0A

/-- The source's kind under which the host reports an error (R133, R135). -/
def ErrKind.sourceKind : ErrKind → SourceKind
  | .illegalCmd => .invalidArgument
  | .sequence => .invalidArgument
  | .invalidSymbol => .invalidArgument
  | .lenRange => .formatError
  | .uncodedSymbol => .invalidArgument
  | .capacity => .invalidArgument
  | .buildFail => .codeAssignmentFailure
  | .codeAssign => .codeAssignmentFailure
  | .truncated => .truncatedStream
  | .cmdqOverflow => .invalidArgument

/-- Error entry (R136) for the command word `w`: HALT, the three error registers, P_ERR, and CMDQ emptied. -/
def State.recordError (s : State) (k : ErrKind) (w arg : Word) : State :=
  { s with halt := true, errCode := k.code, errCmd := w, errArg := arg, pErr := true, cmdq := [] }

/-- `raise Error(code, arg)` in the head command (R10, R136). -/
def State.raiseError (s : State) (k : ErrKind) (arg : Word) : State := s.recordError k s.headWord arg

/-- The return, `CTRL.ERR_CLEAR` (R139): leaves the halt and zeroes the error registers. While HALT = 0 it does nothing. -/
def State.clearError (s : State) : State :=
  if s.halt then { s with halt := false, errCode := 0, errCmd := 0, errArg := 0 } else s

/-! ### Free values (I1, I3, I5) -/

/-- A fresh arbitrary word (I3): the free value, and the state in which it is used. -/
def State.drawWord (s : State) : Word × State := (Config.freeWord s.draws, { s with draws := s.draws + 1 })

/-! ### Reset (R152 to R154) -/

/-- The reset of R153, in any state: every field takes its reset value and the tables' contents become unspecified
(R154). The hardwired parameters stand, and the model's own fields go on (DEDUCED, safe: log 18). -/
def State.resetAll (s : State) : State :=
  { State.reset with
    params := s.params
    count := .unspecified 65537 32 s.draws
    len := .unspecified 65537 7 (s.draws + 1)
    code := .unspecified 65537 64 (s.draws + 2)
    sorted := .unspecified 65537 17 (s.draws + 3)
    first := .unspecified 65 32 (s.draws + 4)
    draws := s.draws + 5
    agenda := s.agenda
    busData := s.busData }

end Sys2Proof.Machine
end

