-- ==== Sys2Proof/Machine/Operands.lean ====
section
/-! DEFINITION. The operands of the commands (R82, R83): the mask gate, the ranges of sample values, symbols and lengths, the bits of a payload byte, and operands as error arguments. -/

namespace Sys2Proof.Machine

/-- `zext_32` of an operand, as error arguments and register views take it (R8, R83, R133). -/
def zext32 {w : Nat} (v : BitVec w) : Word := v.setWidth 32

/-- A symbol number as an error argument (R133). -/
def symbolArg (sym : Nat) : Word := BitVec.ofNat 32 sym

/-- The mask gate `M` (R5): a sample outside the field of view has no effect. -/
def maskedOut (m : Bool) : Bool := !m

/-- `V > SAMPLE_MAX`: EOS and above name no sample (R101, R122). -/
def sampleTooLarge (v : BitVec 25) : Bool := Config.sampleMax < v.toNat

/-- `S > EOS`: no symbol (R111). -/
def symbolTooLarge (sym : BitVec 17) : Bool := Config.eos < sym.toNat

/-- `L > LMAX`: longer than any code the core holds (R111). -/
def lengthTooLarge (l : BitVec 7) : Bool := Config.lmax < l.toNat

/-- The bits of a payload byte in the order the decoder reads them, bit 7 first (R64, R128). -/
def byteBits (b : Byte) : List Bool :=
  [b.getLsbD 7, b.getLsbD 6, b.getLsbD 5, b.getLsbD 4, b.getLsbD 3, b.getLsbD 2, b.getLsbD 1, b.getLsbD 0]

/-- `bits_l(c)`: the `l` bits of the code `c`, most significant first (R9). -/
def codeBits (c : BitVec 64) : Nat → List Bool
  | 0 => []
  | l + 1 => c.getLsbD l :: codeBits c l

end Sys2Proof.Machine
end

