-- ==== Sys2Proof/Machine/Flags.lean ====
section
/-! DEFINITION. The flags: the SEQUENCE preconditions of R134, the pending bits and the interrupt level (R55, R142, R143), and the live views of STATUS (R51). -/

namespace Sys2Proof.Machine

/-! ### SEQUENCE preconditions (R134) -/

/-- HIST_SAMPLE and BUILD_TREE require a valid histogram. -/
def State.histReady (s : State) : Bool := s.histValid

/-- LEN_WRITE and BUILD_CODES require valid lengths. -/
def State.lenReady (s : State) : Bool := s.lenValid

/-- ENC_START and DEC_START require valid codes. -/
def State.codesReady (s : State) : Bool := s.codesValid

/-- ENC_SAMPLE and ENC_FINISH require valid codes and an open payload. -/
def State.encReady (s : State) : Bool := s.codesValid && s.encActive

/-- A decode walk is open: DEC_STATE is not IDLE. DEC_END requires it. -/
def State.walkOpen (s : State) : Bool := s.decState != .idle

/-- DEC_BYTE requires valid codes and an open walk. -/
def State.decReady (s : State) : Bool := s.codesValid && s.walkOpen

/-! ### Live views (R31, R36, R51) -/

/-- The two bits of DEC_STATE (R36). -/
def DecState.bits : DecState → BitVec 2
  | .idle => 0
  | .run => 1
  | .noMatch => 2
  | .done => 3

/-- CMDQ_LEVEL (R39), as the 8-bit field of STATUS. -/
def State.cmdqLevel (s : State) : BitVec 8 := BitVec.ofNat 8 s.cmdq.length

/-- OUTQ_LEVEL (R40), as the 8-bit field of STATUS. -/
def State.outqLevel (s : State) : BitVec 8 := BitVec.ofNat 8 s.outq.length

/-- BUSY: CMDQ is not empty (R51). -/
def State.busy (s : State) : Bool := !s.cmdq.isEmpty

/-- P_OUT: OUTQ is not empty (R55). -/
def State.pOut (s : State) : Bool := !s.outq.isEmpty

/-- PAYLOAD_BYTES = ceil(TOTAL_BITS / 8) (R31). -/
def State.payloadBytes (s : State) : BitVec 64 := BitVec.ofNat 64 ((s.totalBits.toNat + 7) / 8)

/-! ### Interrupts (R54, R55, R143) -/

/-- IRQ_PEND, bit 0 to bit 4 (R55). -/
def State.irqPend (s : State) : BitVec 5 :=
  BitVec.ofBool s.pDecDone ++ BitVec.ofBool s.pEncDone ++ BitVec.ofBool s.pOut ++ BitVec.ofBool s.pIdle ++ BitVec.ofBool s.pErr

/-- The interrupt output: some enabled source is pending (R143). Its delivery to a CPU is the platform's (DESIGN CHOICE,
safe: log 14). -/
def State.irq (s : State) : Bool := (s.irqEn &&& s.irqPend) != 0

/-- Writing 1 to a sticky bit of IRQ_PEND clears it; P_OUT is a level and is not written (R55). -/
def State.clearPending (s : State) (v : Word) : State :=
  { s with
    pErr := s.pErr && !v.getLsbD 0
    pIdle := s.pIdle && !v.getLsbD 1
    pEncDone := s.pEncDone && !v.getLsbD 3
    pDecDone := s.pDecDone && !v.getLsbD 4 }

/-- STATUS (R51): 7 bits of 0, IRQ, OUTQ_LEVEL, CMDQ_LEVEL, DEC_STATE, ENC_ACTIVE, CODES_VALID, LEN_VALID, HIST_VALID,
HALT, BUSY. -/
def State.status (s : State) : Word :=
  (0 : BitVec 7) ++ BitVec.ofBool s.irq ++ s.outqLevel ++ s.cmdqLevel ++ s.decState.bits ++ BitVec.ofBool s.encActive
    ++ BitVec.ofBool s.codesValid ++ BitVec.ofBool s.lenValid ++ BitVec.ofBool s.histValid ++ BitVec.ofBool s.halt
    ++ BitVec.ofBool s.busy

end Sys2Proof.Machine
end

