-- ==== Sys2Proof/Machine/Canonical.lean ====
section
/-! DEFINITION. The canonical code table generator (43_canonical.md): LEN_CLEAR, LEN_WRITE and BUILD_CODES. -/

namespace Sys2Proof.Machine

/-- The code length of a symbol, as a number. -/
def lengthOf (len : Table 65537 7) (sym : Nat) : Nat := (len.get sym).toNat

/-- The symbols of length `l`, ascending (R113, R114). -/
def symbolsOfLength (len : Table 65537 7) (l : Nat) : List Nat :=
  len.support.filter (fun sym => lengthOf len sym == l)

/-- The values of a 7-bit length field, ascending. Valid lengths are at most 64 (DEDUCED beyond that: log 19). -/
def lengthValues : List Nat := List.range 128

/-- The symbols with a code, by (length, symbol) ascending (R113). -/
def lengthsSorted (len : Table 65537 7) : List Nat := lengthValues.flatMap (symbolsOfLength len)

/-- The symbols with a code in the order of canonical assignment: longest length first, ascending within one (R114, D9). -/
def longestFirst (len : Table 65537 7) : List Nat := lengthValues.reverse.flatMap (symbolsOfLength len)

/-- SORTED with its first entries written from `syms`; the entries after them are not written (R113;
DEDUCED, unsafe for those entries: log 12). -/
def writeSorted (t : Table 65537 17) (syms : List Nat) : Table 65537 17 :=
  syms.zipIdx.foldl (fun t c => t.set c.2 (BitVec.ofNat 17 c.1)) t

/-- MAX_LEN: the length of the last symbol of the sorted list, 0 of an empty one (R113). -/
def maxLength (len : Table 65537 7) (syms : List Nat) : BitVec 7 :=
  match syms.getLast? with
  | none => 0
  | some sym => len.get sym

/-- FIRST: INVALID, and then from the last index down to 0 each symbol's index at its length (R113). -/
def firstIndex (len : Table 65537 7) (syms : List Nat) : Table 65 32 :=
  syms.zipIdx.reverse.foldl (fun t c => t.set (lengthOf len c.1) (BitVec.ofNat 32 c.2)) (Table.const 65 32 Config.invalid)

/-- Canonical assignment (R114) to the symbols of a list, longest first, with the running pattern `p` and the running
length `rl`: the pattern is shifted right to the symbol's length, the pattern is its code, and the pattern is
incremented. Answers the symbol of the CODE_ASSIGN when a shift would drop a 1 bit or the pattern overflows (R115).
Where the length equals the running length the shift is by 0 and drops nothing. -/
def assignCodes (len : Table 65537 7) : List Nat → Nat → Nat → Table 65537 64 → Except Nat (Table 65537 64)
  | [], _, _, codes => .ok codes
  | sym :: rest, p, rl, codes =>
    if p % 2 ^ (rl - lengthOf len sym) ≠ 0 then .error sym
    else if 2 ^ lengthOf len sym ≤ p / 2 ^ (rl - lengthOf len sym) then .error sym
    else
      assignCodes len rest (p / 2 ^ (rl - lengthOf len sym) + 1) (lengthOf len sym)
        (codes.set sym (BitVec.ofNat 64 (p / 2 ^ (rl - lengthOf len sym))))

/-- CODE from LEN (R114): every code 0, a pattern of MAX_LEN zero bits, and the assignment. -/
def canonicalCodes (len : Table 65537 7) : Except Nat (Table 65537 64) :=
  assignCodes len (longestFirst len) 0 (maxLength len (lengthsSorted len)).toNat (Table.const 65537 64 0)

/-- The payload's bit length (R117): over the coded sample symbols the count times the length, and EOS's length. -/
def payloadBits (count : Table 65537 32) (len : Table 65537 7) : Nat :=
  ((len.support.filter (fun sym => sym != Config.eos)).map (fun sym => (count.get sym).toNat * lengthOf len sym)).sum
    + lengthOf len Config.eos

/-- BUILD_CODES step 1 (R113), after its flag clear (R112). -/
def State.sortLengths (s : State) : State :=
  { s with
    codesValid := false
    sorted := writeSorted s.sorted (lengthsSorted s.len)
    numCoded := BitVec.ofNat 17 (lengthsSorted s.len).length
    maxLen := maxLength s.len (lengthsSorted s.len)
    first := firstIndex s.len (lengthsSorted s.len) }

/-- BUILD_CODES step 3 (R117): TOTAL_BITS, 0 without a histogram (D32). -/
def State.measurePayload (s : State) : State :=
  { s with totalBits := if s.histValid then BitVec.ofNat 64 (payloadBits s.count s.len) else 0 }

/-- CODE_ASSIGN (R112): step 1's results stand and CODE is unspecified (I5; DESIGN CHOICE, safe: log 4). -/
def State.codeAssignFail (s : State) (sym : Nat) : State :=
  { s with code := .unspecified 65537 64 s.draws, draws := s.draws + 1 }.raiseError .codeAssign (symbolArg sym)

/-- LEN all 0 and valid (R110). -/
def State.clearLengths (s : State) : State :=
  { s with len := Table.const 65537 7 0, lenValid := true, codesValid := false }

/-- LEN[sym] written (R111). -/
def State.writeLength (s : State) (sym : BitVec 17) (l : BitVec 7) : State :=
  { s with len := s.len.set sym.toNat l, codesValid := false }

/-- LEN_CLEAR (R110). -/
def execLenClear (s : State) : Host.Outcome State Fault Refusal := .next s.clearLengths.retire

/-- LEN_WRITE s, l (R111), its checks in the order of the rule. -/
def execLenWrite (sym : BitVec 17) (l : BitVec 7) (s : State) : Host.Outcome State Fault Refusal :=
  if !s.lenReady then .next (s.raiseError .sequence 0)
  else if symbolTooLarge sym then .next (s.raiseError .lenRange (zext32 sym))
  else if lengthTooLarge l then .next (s.raiseError .lenRange (zext32 sym))
  else .next (s.writeLength sym l).retire

/-- BUILD_CODES (R112): the three steps in order. -/
def execBuildCodes (s : State) : Host.Outcome State Fault Refusal :=
  if !s.lenReady then .next (s.raiseError .sequence 0)
  else
    match canonicalCodes s.len with
    | .error sym => .next (s.sortLengths.codeAssignFail sym)
    | .ok codes => .next { s.sortLengths.measurePayload with code := codes, codesValid := true }.retire

end Sys2Proof.Machine
end

