-- ==== Sys2Proof/Machine/Control.lean ====
section
/-! DEFINITION. The control family (40_control.md): NOP. -/

namespace Sys2Proof.Machine

/-- NOP (R99): nothing but its retirement. -/
def execNop (s : State) : Host.Outcome State Fault Refusal := .next s.retire

end Sys2Proof.Machine
end

