-- ==== Sys2Proof/Machine/Decoder.lean ====
section
/-! DEFINITION. The bit-stream decoder (45_decoder.md): DEC_START, DEC_BYTE and DEC_END. -/

namespace Sys2Proof.Machine

/-- The scan of R126 from index `i` of SORTED, over at most `n` entries: through the entries whose length is the
running length, to the first whose code is the running code. -/
def State.scanEntries (s : State) : Nat → Nat → Option (BitVec 17)
  | 0, _ => none
  | n + 1, i =>
    if s.len.get (s.sorted.get i).toNat = s.decRl then
      if s.code.get (s.sorted.get i).toNat = s.decRc then some (s.sorted.get i)
      else s.scanEntries n (i + 1)
    else none

/-- The symbol whose code is the running code, if there is one (R126): the scan starts at FIRST[DEC_RL], where that is
valid, and ends at NUM_CODED. -/
def State.matchedSymbol (s : State) : Option (BitVec 17) :=
  let i := s.first.get s.decRl.toNat
  if i = Config.invalid then none else s.scanEntries (s.numCoded.toNat - i.toNat) i.toNat

/-- One more bit in the running code (R13, R126). DEC_RL stays at most LMAX in every reachable state (DEDUCED: log 19). -/
def State.appendBit (s : State) (b : Bool) : State :=
  { s with
    decRc := (s.decRc <<< 1) ||| (BitVec.ofBool b).setWidth 64
    decRl := s.decRl + 1
    decBits := s.decBits + 1 }

/-- The EOS code was matched (R126): DONE, the END word and P_DEC_DONE. The running code is kept. -/
def State.matchEos (s : State) : State :=
  { s.pushOut endDecWord with decState := .done, pDecDone := true }

/-- A sample symbol was matched (R126): the SYM word, one more symbol, and an empty running code. -/
def State.matchSymbol (s : State) (sym : BitVec 17) : State :=
  { s.pushOut (symWord sym) with decSyms := s.decSyms + 1, decRc := 0, decRl := 0 }

/-- No code was matched (R126): where no longer code exists the walk can never match again (D18). -/
def State.noMatchYet (s : State) : State :=
  if s.maxLen.toNat ≤ s.decRl.toNat then { s with decState := .noMatch } else s

/-- `dec_bit(b)` (R126). -/
def State.decBit (s : State) (b : Bool) : State :=
  if s.decState = .run then
    match (s.appendBit b).matchedSymbol with
    | some sym =>
      if sym.toNat = Config.eos then (s.appendBit b).matchEos else (s.appendBit b).matchSymbol sym
    | none => (s.appendBit b).noMatchYet
  else s

/-- A sequence of payload bits, in order (R128). -/
def State.decBitList (s : State) (bits : List Bool) : State := bits.foldl State.decBit s

/-- `fail(e, a)` of the decoder: DEC_STATE becomes IDLE, then the error is raised (R128). -/
def State.decFail (s : State) (k : ErrKind) (arg : Word) : State :=
  { s with decState := .idle }.raiseError k arg

/-- A new walk (R127). -/
def State.startWalk (s : State) : State :=
  { s with decState := .run, decRc := 0, decRl := 0, decSyms := 0, decBits := 0 }

/-- DEC_START (R127). -/
def execDecStart (s : State) : Host.Outcome State Fault Refusal :=
  if !s.codesReady then .next (s.raiseError .sequence 0)
  else .next s.startWalk.retire

/-- DEC_BYTE b (R128). -/
def execDecByte (b : Byte) (s : State) : Host.Outcome State Fault Refusal :=
  if !s.decReady then .next (s.decFail .sequence 0)
  else .next (s.decBitList (byteBits b)).retire

/-- DEC_END (R129): the walk is over, with success only after the EOS code. -/
def execDecEnd (s : State) : Host.Outcome State Fault Refusal :=
  if !s.walkOpen then .next (s.raiseError .sequence 0)
  else if s.decState = .done then .next { s with decState := .idle }.retire
  else .next (s.decFail .truncated s.decSyms)

end Sys2Proof.Machine
end

