-- ==== Sys2Proof/Machine/Encoder.lean ====
section
/-! DEFINITION. The bit-stream encoder (44_encoder.md): ENC_START, ENC_SAMPLE and ENC_FINISH. -/

namespace Sys2Proof.Machine

/-- ENC_ACC with the next pending bit, `ENC_ACC[7 - ENC_NACC] <- b` (R120). -/
def withPendingBit (acc : Byte) (nacc : BitVec 3) (b : Bool) : Byte :=
  if b then acc ||| ((0x80 : Byte) >>> nacc.toNat) else acc &&& ~~~((0x80 : Byte) >>> nacc.toNat)

/-- The accumulator pushed as a BYTE word and emptied (R120, R123). -/
def State.pushByte (s : State) : State :=
  { s.pushOut (byteWord s.encAcc) with encBytes := s.encBytes + 1, encAcc := 0, encNacc := 0 }

/-- One bit of a code, the body of the loop of R120. The eighth bit of a byte pushes it. -/
def State.emitBit (s : State) (b : Bool) : State :=
  let t := { s with encAcc := withPendingBit s.encAcc s.encNacc b, encBits := s.encBits + 1 }
  if s.encNacc = 7 then t.pushByte else { t with encNacc := s.encNacc + 1 }

/-- A sequence of bits, in order (R120). -/
def State.emitBits (s : State) (bits : List Bool) : State := bits.foldl State.emitBit s

/-- `emit(c, l)` (R120): the `l` bits of the code, most significant first (R9, R65). -/
def State.emit (s : State) (c : BitVec 64) (l : BitVec 7) : State := s.emitBits (codeBits c l.toNat)

/-- `fail(e, a)` of the encoder: ENC_ACTIVE is cleared, then the error is raised (R122, R123). -/
def State.encFail (s : State) (k : ErrKind) (arg : Word) : State :=
  { s with encActive := false }.raiseError k arg

/-- A new payload (R121). -/
def State.startPayload (s : State) : State :=
  { s with encActive := true, encAcc := 0, encNacc := 0, encBits := 0, encBytes := 0 }

/-- Byte rounding (R123): pending bits are pushed as a last byte, padded with 0 (D10). -/
def State.padPayload (s : State) : State := if s.encNacc = 0 then s else s.pushByte

/-- The payload closed (R123): the END word, ENC_ACTIVE cleared and P_ENC_DONE set. -/
def State.closePayload (s : State) : State :=
  { s.pushOut endEncWord with encActive := false, pEncDone := true }

/-- ENC_START (R121). -/
def execEncStart (s : State) : Host.Outcome State Fault Refusal :=
  if !s.codesReady then .next (s.raiseError .sequence 0)
  else .next s.startPayload.retire

/-- ENC_SAMPLE m, v (R122), its checks in the order of the rule and before any bit is emitted. -/
def execEncSample (m : Bool) (v : BitVec 25) (s : State) : Host.Outcome State Fault Refusal :=
  if !s.encReady then .next (s.encFail .sequence 0)
  else if maskedOut m then .next s.retire
  else if sampleTooLarge v then .next (s.encFail .invalidSymbol (zext32 v))
  else if s.len.get v.toNat = 0 then .next (s.encFail .uncodedSymbol (zext32 v))
  else .next (s.emit (s.code.get v.toNat) (s.len.get v.toNat)).retire

/-- ENC_FINISH (R123). -/
def execEncFinish (s : State) : Host.Outcome State Fault Refusal :=
  if !s.encReady then .next (s.encFail .sequence 0)
  else if s.len.get Config.eos = 0 then .next (s.encFail .uncodedSymbol (symbolArg Config.eos))
  else .next (s.emit (s.code.get Config.eos) (s.len.get Config.eos)).padPayload.closePayload.retire

end Sys2Proof.Machine
end

