-- ==== Sys2Proof/Machine/Histogram.lean ====
section
/-! DEFINITION. The histogram accumulator (41_histogram.md): HIST_CLEAR and HIST_SAMPLE. -/

namespace Sys2Proof.Machine

/-- The histogram of no samples: every count 0, and the synthetic EOS count of 1 (R100). -/
def emptyHistogram : Table 65537 32 := (Table.const 65537 32 0).set Config.eos 1

/-- The histogram cleared (R100). -/
def State.startHistogram (s : State) : State :=
  { s with count := emptyHistogram, histTotal := 0, histValid := true }

/-- One more sample of value `v` (R101). -/
def State.countSample (s : State) (v : BitVec 25) : State :=
  { s with count := s.count.set v.toNat (s.count.get v.toNat + 1), histTotal := s.histTotal + 1 }

/-- HIST_CLEAR (R100). -/
def execHistClear (s : State) : Host.Outcome State Fault Refusal := .next s.startHistogram.retire

/-- HIST_SAMPLE m, v (R101), its checks in the order of the rule. -/
def execHistSample (m : Bool) (v : BitVec 25) (s : State) : Host.Outcome State Fault Refusal :=
  if !s.histReady then .next (s.raiseError .sequence 0)
  else if maskedOut m then .next s.retire
  else if sampleTooLarge v then .next (s.raiseError .invalidSymbol (zext32 v))
  else if s.histTotal = Config.totalMax then .next (s.raiseError .capacity (zext32 v))
  else .next (s.countSample v).retire

end Sys2Proof.Machine
end

