-- ==== Sys2Proof/Machine/TreeBuilder.lean ====
section
/-! DEFINITION. The Huffman tree builder and length assignment (42_tree.md): BUILD_TREE. -/

namespace Sys2Proof.Machine

/-- The transient tree (R22): its leaves are symbols. -/
inductive Tree where
  | leaf (sym : Nat)
  | node (x y : Tree)
  deriving DecidableEq, Repr

/-- An active node (R104): its count, its height, its index, and the tree under it. Counts are exact naturals, which
R108 shows to fit the 32 bits of `cnt` (DEDUCED, unsafe in unreachable states alone: log 10). -/
structure Node where
  cnt : Nat
  ht : Nat
  index : Nat
  tree : Tree
  deriving DecidableEq, Repr

/-- The selection key `(cnt, ht, index)`, least first (R105): `a` is selected before `b`. -/
def Node.before (a b : Node) : Bool :=
  decide (a.cnt < b.cnt) || (a.cnt == b.cnt && (decide (a.ht < b.ht) || (a.ht == b.ht && decide (a.index < b.index))))

/-- The node with the least key among `m` and the list, and the others: a first-minimum scan (R105). -/
def takeLeast (m : Node) : List Node → Node × List Node
  | [] => (m, [])
  | x :: rest =>
    if x.before m then ((takeLeast x rest).1, m :: (takeLeast x rest).2)
    else ((takeLeast m rest).1, x :: (takeLeast m rest).2)

/-- The internal node number `index` over `x` and `y` (R104). -/
def mergeNodes (index : Nat) (x y : Node) : Node :=
  { cnt := x.cnt + y.cnt, ht := max x.ht y.ht + 1, index := index, tree := .node x.tree y.tree }

/-- The loop of R104: the two least active nodes are merged under internal node `next` until one is left, the root.
Each turn leaves one active node less, so as many turns as there are active nodes are enough. No active node at all
answers none, which R104 calls unreachable. -/
def mergeLoop : Nat → Nat → List Node → Option Node
  | _, _, [] => none
  | _, _, [root] => some root
  | 0, _, _ => none
  | turns + 1, next, a :: b :: rest =>
    let first := takeLeast a (b :: rest)
    match first.2 with
    | [] => some first.1
    | c :: others =>
      let second := takeLeast c others
      mergeLoop turns (next + 1) (mergeNodes next first.1 second.1 :: second.2)

/-- The leaf of a symbol with its count (R104). -/
def leafNode (sym cnt : Nat) : Node := { cnt := cnt, ht := 0, index := sym, tree := .leaf sym }

/-- The leaves that are active at the start (R104): the sample symbols with a count, each with it, and EOS with 1. -/
def activeLeaves (count : Table 65537 32) : List Node :=
  (count.support.filter (fun i => i != Config.eos)).map (fun i => leafNode i (count.get i).toNat) ++ [leafNode Config.eos 1]

/-- The root of the Huffman tree of a histogram (R104). -/
def huffmanRoot (count : Table 65537 32) : Option Node :=
  mergeLoop (activeLeaves count).length Config.alphabet (activeLeaves count)

/-- Each leaf under a node at depth `d`, with its own depth (R104). -/
def Tree.depths : Tree → Nat → List (Nat × Nat)
  | .leaf sym, d => [(sym, d)]
  | .node x y, d => x.depths (d + 1) ++ y.depths (d + 1)

/-- The symbols of a tree with their code lengths (assignLengths, R104): the leaf's depth, and 1 for a lone root. -/
def treeLengths (t : Tree) : List (Nat × Nat) := (t.depths 0).map (fun c => (c.1, max c.2 1))

/-- The first symbol, in ascending order, whose length the core cannot hold (R104, unreachable by R108). -/
def firstOverlong (lengths : List (Nat × Nat)) : Option Nat :=
  ((lengths.filter (fun c => decide (Config.lmax < c.2))).map (·.1)).min?

/-- LEN as BUILD_TREE leaves it: the given lengths, and 0 for every other symbol (R104). -/
def lengthTable (lengths : List (Nat × Nat)) : Table 65537 7 :=
  lengths.foldl (fun t c => t.set c.1 (BitVec.ofNat 7 c.2)) (Table.const 65537 7 0)

/-- The flag clears at the start of BUILD_TREE (R32, R104). -/
def State.dropLengths (s : State) : State := { s with lenValid := false, codesValid := false }

/-- BUILD_FAIL (R104): the flags stay 0 and LEN is unspecified (I5; DESIGN CHOICE, safe: log 4). -/
def State.buildFail (s : State) (arg : Word) : State :=
  { s with len := .unspecified 65537 7 s.draws, draws := s.draws + 1 }.raiseError .buildFail arg

/-- BUILD_TREE (R104). -/
def execBuildTree (s : State) : Host.Outcome State Fault Refusal :=
  if !s.histReady then .next (s.raiseError .sequence 0)
  else
    match huffmanRoot s.count with
    | none => .next (s.dropLengths.buildFail 0)
    | some root =>
      match firstOverlong (treeLengths root.tree) with
      | some sym => .next (s.dropLengths.buildFail (symbolArg sym))
      | none => .next { s.dropLengths with len := lengthTable (treeLengths root.tree), lenValid := true }.retire

end Sys2Proof.Machine
end

