-- ==== Sys2Proof/Machine/Dispatch.lean ====
section
/-! DEFINITION. exec: one arm per command, each one call of its meaning (R85). -/

namespace Sys2Proof.Machine

def exec (i : Instr) (s : State) : Host.Outcome State Fault Refusal :=
  match i with
  | .nop => Sys2Proof.Machine.execNop s
  | .histClear => Sys2Proof.Machine.execHistClear s
  | .histSample m v => Sys2Proof.Machine.execHistSample m v s
  | .buildTree => Sys2Proof.Machine.execBuildTree s
  | .lenClear => Sys2Proof.Machine.execLenClear s
  | .lenWrite sym l => Sys2Proof.Machine.execLenWrite sym l s
  | .buildCodes => Sys2Proof.Machine.execBuildCodes s
  | .encStart => Sys2Proof.Machine.execEncStart s
  | .encSample m v => Sys2Proof.Machine.execEncSample m v s
  | .encFinish => Sys2Proof.Machine.execEncFinish s
  | .decStart => Sys2Proof.Machine.execDecStart s
  | .decByte b => Sys2Proof.Machine.execDecByte b s
  | .decEnd => Sys2Proof.Machine.execDecEnd s

end Sys2Proof.Machine
end

