-- ==== Sys2Proof/Machine/Window.lean ====
section
/-! DEFINITION. The register window (10_state.md sections 7 and 8, R45 to R61) and the host's accesses to it (R67, R79). -/

namespace Sys2Proof.Machine

/-- The registers of the map (R46). -/
inductive Reg where
  | id | param | alpha | ctrl | status | errCode | errCmd | errArg | irqEn | irqPend | cmd | out
  | tblIndex | countRd | lenRd | codeRdLo | codeRdHi | sortedRd | firstRd
  | histTotal | numCoded | maxLen | totalBitsLo | totalBitsHi | payloadBytesLo | payloadBytesHi
  | encBitsLo | encBitsHi | encBytesLo | encBytesHi | decSyms | decBitsLo | decBitsHi
  | encPend | decRl | decRcLo | decRcHi
  deriving DecidableEq, Repr

/-- The register at a byte offset (R46); none at the reserved offsets 0x94 to 0xFC (R70). -/
def regAt (offset : Nat) : Option Reg :=
  match offset with
  | 0x00 => some .id
  | 0x04 => some .param
  | 0x08 => some .alpha
  | 0x0C => some .ctrl
  | 0x10 => some .status
  | 0x14 => some .errCode
  | 0x18 => some .errCmd
  | 0x1C => some .errArg
  | 0x20 => some .irqEn
  | 0x24 => some .irqPend
  | 0x28 => some .cmd
  | 0x2C => some .out
  | 0x30 => some .tblIndex
  | 0x34 => some .countRd
  | 0x38 => some .lenRd
  | 0x3C => some .codeRdLo
  | 0x40 => some .codeRdHi
  | 0x44 => some .sortedRd
  | 0x48 => some .firstRd
  | 0x4C => some .histTotal
  | 0x50 => some .numCoded
  | 0x54 => some .maxLen
  | 0x58 => some .totalBitsLo
  | 0x5C => some .totalBitsHi
  | 0x60 => some .payloadBytesLo
  | 0x64 => some .payloadBytesHi
  | 0x68 => some .encBitsLo
  | 0x6C => some .encBitsHi
  | 0x70 => some .encBytesLo
  | 0x74 => some .encBytesHi
  | 0x78 => some .decSyms
  | 0x7C => some .decBitsLo
  | 0x80 => some .decBitsHi
  | 0x84 => some .encPend
  | 0x88 => some .decRl
  | 0x8C => some .decRcLo
  | 0x90 => some .decRcHi
  | _ => none

/-- The low half of a 64-bit value (R60). -/
def lowWord (v : BitVec 64) : Word := v.extractLsb' 0 32

/-- The high half of a 64-bit value (R60). -/
def highWord (v : BitVec 64) : Word := v.extractLsb' 32 32

/-- PARAM (R48): PUSH_MAX, OUTQ_DEPTH, CMDQ_DEPTH, LMAX, high byte first. -/
def State.paramWord (s : State) : Word :=
  BitVec.ofNat 8 Config.pushMax ++ s.params.outqDepth ++ s.params.cmdqDepth ++ BitVec.ofNat 8 Config.lmax

/-- ENC_PEND (R61): ENC_ACC in [15:8] and ENC_NACC in [2:0]. -/
def State.encPendWord (s : State) : Word := (0 : BitVec 16) ++ s.encAcc ++ (0 : BitVec 5) ++ s.encNacc

/-- A window read (R59, R161, I3): the fixed answer where the index is out of the table's range, whatever the flag and
BUSY say (DEDUCED, unsafe: log 13), else the entry while
the table is valid and the core is not busy, else a free word. -/
def State.windowRead (s : State) (inRange : Bool) (outside : Word) (valid : Bool) (entry : Word) : Word × State :=
  if !inRange then (outside, s)
  else if valid && !s.busy then (entry, s)
  else s.drawWord

/-- TBL_INDEX names a symbol (R59). -/
def State.indexIsSymbol (s : State) : Bool := s.tblIndex.toNat ≤ Config.eos

/-- A read of OUT (R57): the head of OUTQ, removed; the EMPTY word from an empty OUTQ. -/
def State.popOut (s : State) : Word × State :=
  match s.outq with
  | [] => (emptyWord, s)
  | w :: rest => (w, { s with outq := rest })

/-- The value a read of a register returns, and the state after it (R45 to R61). Only OUT has a side effect (R53). -/
def State.readReg (s : State) : Reg → Word × State
  | .id => (Config.idValue, s)
  | .param => (s.paramWord, s)
  | .alpha => (BitVec.ofNat 32 Config.alphabet, s)
  | .ctrl => (0, s)
  | .status => (s.status, s)
  | .errCode => (zext32 s.errCode, s)
  | .errCmd => (s.errCmd, s)
  | .errArg => (s.errArg, s)
  | .irqEn => (zext32 s.irqEn, s)
  | .irqPend => (zext32 s.irqPend, s)
  | .cmd => (0, s)
  | .out => s.popOut
  | .tblIndex => (zext32 s.tblIndex, s)
  | .countRd => s.windowRead s.indexIsSymbol 0 s.histValid (s.count.get s.tblIndex.toNat)
  | .lenRd => s.windowRead s.indexIsSymbol 0 s.lenValid (zext32 (s.len.get s.tblIndex.toNat))
  | .codeRdLo => s.windowRead s.indexIsSymbol 0 s.codesValid (lowWord (s.code.get s.tblIndex.toNat))
  | .codeRdHi => s.windowRead s.indexIsSymbol 0 s.codesValid (highWord (s.code.get s.tblIndex.toNat))
  | .sortedRd =>
    s.windowRead (decide (s.tblIndex.toNat < s.numCoded.toNat)) Config.invalid s.codesValid
      (zext32 (s.sorted.get s.tblIndex.toNat))
  | .firstRd =>
    s.windowRead (decide (s.tblIndex.toNat ≤ Config.lmax)) Config.invalid s.codesValid (s.first.get s.tblIndex.toNat)
  | .histTotal => (s.histTotal, s)
  | .numCoded => (zext32 s.numCoded, s)
  | .maxLen => (zext32 s.maxLen, s)
  | .totalBitsLo => (lowWord s.totalBits, s)
  | .totalBitsHi => (highWord s.totalBits, s)
  | .payloadBytesLo => (lowWord s.payloadBytes, s)
  | .payloadBytesHi => (highWord s.payloadBytes, s)
  | .encBitsLo => (lowWord s.encBits, s)
  | .encBitsHi => (highWord s.encBits, s)
  | .encBytesLo => (lowWord s.encBytes, s)
  | .encBytesHi => (highWord s.encBytes, s)
  | .decSyms => (s.decSyms, s)
  | .decBitsLo => (lowWord s.decBits, s)
  | .decBitsHi => (highWord s.decBits, s)
  | .encPend => (s.encPendWord, s)
  | .decRl => (zext32 s.decRl, s)
  | .decRcLo => (lowWord s.decRc, s)
  | .decRcHi => (highWord s.decRc, s)

/-- A write of CTRL (R50): SOFT_RESET alone where it is set, else ERR_CLEAR and OUT_FLUSH, each where it is set. -/
def State.writeCtrl (s : State) (v : Word) : State :=
  if v.getLsbD 0 then s.resetAll
  else
    let t := if v.getLsbD 1 then s.clearError else s
    if v.getLsbD 2 then t.flushOut else t

/-- A write of CMD (R56): discarded while halted, queued where there is room, else CMDQ_OVERFLOW (R133, R136). -/
def State.pushCommand (s : State) (w : Word) : State :=
  if s.halt then s
  else if s.cmdq.length < s.params.cmdqDepth.toNat then { s with cmdq := s.cmdq ++ [w] }
  else s.recordError .cmdqOverflow w 0

/-- The state after a write of a register (R45 to R61). Writes act on CTRL, IRQ_EN, IRQ_PEND, CMD and TBL_INDEX only (R53). -/
def State.writeReg (s : State) (r : Reg) (v : Word) : State :=
  match r with
  | .ctrl => s.writeCtrl v
  | .irqEn => { s with irqEn := v.extractLsb' 0 5 }
  | .irqPend => s.clearPending v
  | .cmd => s.pushCommand v
  | .tblIndex => { s with tblIndex := v.extractLsb' 0 17 }
  | .id | .param | .alpha | .status | .errCode | .errCmd | .errArg | .out
  | .countRd | .lenRd | .codeRdLo | .codeRdHi | .sortedRd | .firstRd
  | .histTotal | .numCoded | .maxLen | .totalBitsLo | .totalBitsHi | .payloadBytesLo | .payloadBytesHi
  | .encBitsLo | .encBitsHi | .encBytesLo | .encBytesHi | .decSyms | .decBitsLo | .decBitsHi
  | .encPend | .decRl | .decRcLo | .decRcHi => s

/-- A read at an offset of the window: a reserved offset reads 0 (R46, R70). -/
def State.readOffset (s : State) (offset : Nat) : Word × State :=
  match regAt offset with
  | some r => s.readReg r
  | none => (0, s)

/-- A write at an offset of the window: a reserved offset ignores it (R46, R70). -/
def State.writeOffset (s : State) (offset : Nat) (v : Word) : State :=
  match regAt offset with
  | some r => s.writeReg r v
  | none => s

/-- Why a host access of `bytes` bytes at `addr` is refused, if it is: it lies outside the window (DESIGN CHOICE, safe: log 8), or it is not
a 32-bit access at an aligned offset (R67, I4). -/
def State.accessRefusal (s : State) (addr bytes : Nat) : Option Refusal :=
  if addr < s.params.base ∨ s.params.base + 256 ≤ addr then some (.outsideWindow addr)
  else if bytes ≠ 4 ∨ (addr - s.params.base) % 4 ≠ 0 then some (.undefinedAccess addr bytes)
  else none

/-- `MemRead(addr, bytes)` by the host (R10, R79): the value is left in `busData` (DESIGN CHOICE, safe: log 6). -/
def hostRead (addr bytes : Nat) (s : State) : Host.Outcome State Fault Refusal :=
  match s.accessRefusal addr bytes with
  | some r => .refused r
  | none =>
    .next { (s.readOffset (addr - s.params.base)).2 with busData := (s.readOffset (addr - s.params.base)).1 }

/-- `MemWrite(addr, bytes, v)` by the host (R10, R79). -/
def hostWrite (addr bytes : Nat) (v : Word) (s : State) : Host.Outcome State Fault Refusal :=
  match s.accessRefusal addr bytes with
  | some r => .refused r
  | none => .next (s.writeOffset (addr - s.params.base) v)

end Sys2Proof.Machine
end

