-- ==== Sys2Proof/Machine/Sequencer.lean ====
section
/-! DEFINITION. The sequencer: when the core can take a step and which command it takes (R93, R95), and the next event of the total order (R72). -/

namespace Sys2Proof.Machine

/-- The head command holds: it may push output and OUTQ lacks PUSH_MAX free slots (R93). -/
def State.holds (s : State) (i : Instr) : Bool := i.mayPush && !s.outRoom

/-- The core's move (R93, R95): quiescent while halted or with an empty CMDQ; ILLEGAL_CMD for a head word that is no
command; a hold; else the decoded command. A core that takes no step leaves the state as it is (DEDUCED, safe: log 7). -/
def coreMove (s : State) : Move :=
  if s.halt then .settled (.next s)
  else
    match s.cmdq with
    | [] => .settled (.next s)
    | w :: _ =>
      match decode w with
      | .error _ => .settled (.next (s.raiseError .illegalCmd 0))
      | .ok i => if s.holds i then .settled (.next s) else .run i s

/-- The next event of the total order (R72; DESIGN CHOICE, safe: log 5): the head of the agenda, or the core where nothing is listed. -/
def nextMove (s : State) : Move :=
  match s.agenda with
  | [] => coreMove s
  | .core :: rest => coreMove { s with agenda := rest }
  | .resetInput :: rest => .settled (.next { s with agenda := rest }.resetAll)
  | .read addr bytes :: rest => .settled (hostRead addr bytes { s with agenda := rest })
  | .write addr bytes v :: rest => .settled (hostWrite addr bytes v { s with agenda := rest })

/-- The state in which the very next step fetches and runs the word `w`: no error stands, OUTQ has room, nothing else
happens first, and `w` is the head of CMDQ in the place of the old head (DESIGN CHOICE, safe: log 9). -/
def State.placeHead (s : State) (w : Word) : State :=
  { s.clearError with
    cmdq := w :: s.cmdq.tail
    outq := if s.outRoom then s.outq else []
    agenda := [] }

end Sys2Proof.Machine
end

