-- ==== Sys2Proof/Machine/Step.lean ====
section
/-! DEFINITION. One step: the next atomic event of R72, and the placing of an instruction where the step fetches it. -/

namespace Sys2Proof.Machine

/-- One atomic event (R72): what the sequencer settles, or the command it fetches. A command takes no time and is never
interrupted (R94, R167; DEDUCED, safe: log 16). -/
def step (s : State) : Host.Outcome State Fault Refusal :=
  match nextMove s with
  | .settled o => o
  | .run i t => exec i t

/-- The state with an instruction of `nbits` bits `w` (those above being 0) at the head of CMDQ, where the step fetches. -/
def State.withFetchWord (s : State) (nbits w : Nat) : State := s.placeHead (BitVec.ofNat 32 (w % 2 ^ nbits))

end Sys2Proof.Machine
end

