-- ==== Sys2Proof/Safety.lean ====
section
/-! DEFINITION. What counts as a sound state and a run that ends well, in the terms that the statements use. -/

namespace Sys2Proof.Machine

/-- The five tables are in canonical form. -/
abbrev State.tablesWf (s : State) : Prop :=
  s.count.wf = true ∧ s.len.wf = true ∧ s.code.wf = true ∧ s.sorted.wf = true ∧ s.first.wf = true

/-- The OPEN parameters are in the ranges of R6. -/
abbrev Params.legal (p : Params) : Prop := 1 ≤ p.cmdqDepth.toNat ∧ 10 ≤ p.outqDepth.toNat

/-- Neither FIFO holds more than its depth (R39, R40). -/
abbrev State.fifosFit (s : State) : Prop :=
  s.cmdq.length ≤ s.params.cmdqDepth.toNat ∧ s.outq.length ≤ s.params.outqDepth.toNat

/-- The error registers agree with HALT (R42, R52, R136, R139): they are 0 without an error, and with one CMDQ is empty
and the code is one of the ten of R133. -/
abbrev State.errorSound (s : State) : Prop :=
  (s.halt = false → s.errCode = 0 ∧ s.errCmd = 0 ∧ s.errArg = 0)
    ∧ (s.halt = true → s.cmdq = [] ∧ 1 ≤ s.errCode.toNat ∧ s.errCode.toNat ≤ 10)

/-- The number of samples in a histogram: the counts of the sample symbols added up (R25). -/
def sampleTotal (count : Table 65537 32) : Nat := ∑ sym ∈ Finset.range 65536, (count.get sym).toNat

/-- A valid histogram is one: unlisted counts are 0, EOS counts 1, and HIST_TOTAL is the number of samples, at most
TOTAL_MAX (R23, R25). -/
def State.histogramSound (s : State) : Prop :=
  s.histValid = true →
    s.count.fill = .const 0 ∧ s.count.get 65536 = 1 ∧ sampleTotal s.count = s.histTotal.toNat
      ∧ s.histTotal.toNat ≤ 2 ^ 32 - 2

/-- Lengths (R26, R30, R32): valid ones are 0 to LMAX with 0 where nothing is listed, MAX_LEN is at most LMAX, and valid
codes have valid lengths. -/
def State.lengthsSound (s : State) : Prop :=
  (s.lenValid = true → s.len.fill = .const 0 ∧ ∀ sym : Nat, (s.len.get sym).toNat ≤ 64)
    ∧ s.maxLen.toNat ≤ 64 ∧ (s.codesValid = true → s.lenValid = true)

/-- Valid codes are the ones that BUILD_CODES derives from the lengths that now stand in LEN (R32, R113, R114, R118). -/
def State.codesSound (s : State) : Prop :=
  s.codesValid = true →
    canonicalCodes s.len = .ok s.code
      ∧ s.numCoded.toNat = (lengthsSorted s.len).length
      ∧ (∀ i < s.numCoded.toNat, (lengthsSorted s.len)[i]? = some (s.sorted.get i).toNat)
      ∧ s.maxLen = maxLength s.len (lengthsSorted s.len)
      ∧ s.first = firstIndex s.len (lengthsSorted s.len)

/-- The bits of ENC_ACC that are not pending are 0 (R34). -/
def State.pendingSound (s : State) : Prop := ∀ j : Nat, j + s.encNacc.toNat ≤ 7 → s.encAcc.getLsbD j = false

/-- The running code (R36, R37, R126): at most LMAX bits long, fewer while walking, and no larger than its length allows. -/
def State.walkSound (s : State) : Prop :=
  s.decRl.toNat ≤ 64 ∧ (s.decState = .run → s.decRl.toNat ≤ 63) ∧ s.decRc.toNat < 2 ^ s.decRl.toNat

/-- The core is quiescent (R93): halted, or nothing is queued. -/
def State.quiescent (s : State) : Prop := s.halt = true ∨ s.cmdq = []

/-- The event is a write by the host. -/
def Event.isWrite : Event → Bool
  | .core => false
  | .resetInput => false
  | .read _ _ => false
  | .write _ _ _ => true

/-- The host has nothing more to write (R98): no write is left in the agenda (DEDUCED, safe: log 20). -/
def State.nothingToWrite (s : State) : Prop := ∀ e ∈ s.agenda, e.isWrite = false

/-- A run that is in this state has ended (R98): the core is quiescent, and the host has nothing more to write. Nothing is
said of OUTQ, of an open payload or walk, or of any table. -/
def State.ended (s : State) : Prop := s.quiescent ∧ s.nothingToWrite

/-- The run ended well (R98). -/
def State.endsWell (s : State) : Prop := s.ended ∧ s.halt = false

/-- The run ended with a fault (R98). The error is never final: a later write of ERR_CLEAR or a reset leaves it (R139). -/
def State.endsWithFault (s : State) : Prop := s.ended ∧ s.halt = true

/-- `t` is a state of the run from `s`. -/
def State.runsTo (s t : State) : Prop := ∃ k : Nat, Sys2Proof.core.run k s = .next t

/-- The run from `s` ends well in `t` (R98). -/
def State.runEndsWell (s t : State) : Prop := s.runsTo t ∧ t.endsWell

/-- The run from `s` ends with a fault in `t` (R98). -/
def State.runEndsWithFault (s t : State) : Prop := s.runsTo t ∧ t.endsWithFault

/-- The core holds (R93): not halted, with a head command that waits for free slots of OUTQ. -/
def State.holding (s : State) : Prop :=
  s.halt = false ∧ ∃ i w q, s.cmdq = w :: q ∧ decode w = .ok i ∧ s.holds i = true

/-- An event that leaves a hold as it is: the core's own, or a host read of anything but OUT in the window at `base`. -/
def Event.leavesHold (base : Nat) : Event → Bool
  | .core => true
  | .resetInput => false
  | .read addr _ => addr != base + 0x2C
  | .write _ _ _ => false

/-- A hang (R98): the core holds, and the host never reads OUT and neither writes nor resets. Such a run has no end. -/
def State.hangs (s : State) : Prop := s.holding ∧ ∀ e ∈ s.agenda, e.leavesHold s.params.base = true

/-- The core's whole invariant. -/
def State.sound (s : State) : Prop :=
  s.tablesWf ∧ s.params.legal ∧ s.fifosFit ∧ s.errorSound ∧ s.histogramSound ∧ s.lengthsSound ∧ s.codesSound
    ∧ s.pendingSound ∧ s.walkSound

/-- The pending bits of the encoder, first emitted first (R34). -/
def State.pendingBits (s : State) : List Bool := (byteBits s.encAcc).take s.encNacc.toNat

end Sys2Proof.Machine
end

