-- ==== Sys2Proof/Certificates/Slice0/Obligations.lean ====
section
/-! DEFINITION. The statements for the provers. Each docstring names the rules of spec/ that it formalises. -/

open Sys2Proof Sys2Proof.Machine

namespace Sys2Proof.Statements

/-- The state after an error entry (R136) with code `code`, command word `w` and argument `arg`. -/
def failed (s : State) (code : BitVec 8) (w arg : Word) : State :=
  { s with halt := true, errCode := code, errCmd := w, errArg := arg, pErr := true, cmdq := [] }

/-- The state after a command that succeeded left CMDQ with `q` behind it (R95). -/
def retired (s : State) (q : List Word) : State :=
  { s with cmdq := q, pIdle := s.pIdle || q.isEmpty }

/-- A host read at `offset` of the window returns `v` and leaves `t`, whatever events follow (R68, R79). The events and the
returned value stand in fields of the model's own (log 5, log 6). -/
def reads (s : State) (offset : Nat) (v : Word) (t : State) : Prop :=
  ∀ rest : List Event,
    step { s with agenda := .read (s.params.base + offset) 4 :: rest } = .next { t with agenda := rest, busData := v }

/-- A host write of `v` at `offset` of the window leaves `t`, whatever events follow (R68, R79; the events stand in a field of
the model's own, log 5). -/
def writes (s : State) (offset : Nat) (v : Word) (t : State) : Prop :=
  ∀ rest : List Event,
    step { s with agenda := .write (s.params.base + offset) 4 v :: rest } = .next { t with agenda := rest }

/-- The next event is a host write of `v` at `offset` of the window. -/
def nextIsWrite (s : State) (offset : Nat) (v : Word) : Prop :=
  ∃ rest : List Event, s.agenda = .write (s.params.base + offset) 4 v :: rest

/-- The next event is a reset: the reset input, or a write of CTRL with SOFT_RESET = 1 (R152). -/
def nextIsReset (s : State) : Prop :=
  (∃ rest : List Event, s.agenda = .resetInput :: rest) ∨ ∃ v : Word, nextIsWrite s 0x0C v ∧ v.getLsbD 0 = true

/-- The next event is the core executing the command `i`. -/
def nextRuns (s : State) (i : Instr) : Prop := ∃ u : State, nextMove s = .run i u

/-- The core can take a step (R93): not halted, a command word at the head, and no hold. -/
def enabled (s : State) : Prop :=
  s.halt = false ∧ ∃ w q, s.cmdq = w :: q
    ∧ ∀ i, decode w = .ok i → i.mayPush = true → s.outq.length + 10 ≤ s.params.outqDepth.toNat

/-- The core holds (R93): not halted, with a command that may push at the head and too few free slots in OUTQ. -/
def holding (s : State) : Prop :=
  s.halt = false ∧ ∃ i w q, s.cmdq = w :: q ∧ decode w = .ok i ∧ i.mayPush = true
    ∧ s.params.outqDepth.toNat < s.outq.length + 10

/-- The words with opcode `op` are those of a command `i` of format N (R82, R86): the word with no other bit set is `i`,
and every other one is illegal. -/
def plainWord (op : BitVec 6) (i : Instr) : Prop :=
  ∀ x : BitVec 26, decode (op ++ x) = if x = 0 then .ok i else .error (.reservedBits .none)

/-- The nodes that are active at the start of the tree builder (R104): one leaf for each symbol with a count, and the EOS
leaf with count 1. -/
def activeAtStart (count : Table 65537 32) : List Node :=
  ((List.range 65537).filter (fun i => i = 65536 ∨ count.get i ≠ 0)).map
    (fun i => { cnt := if i = 65536 then 1 else (count.get i).toNat, ht := 0, index := i, tree := .leaf i })

/-- `x` has the least key (count, height, index) of the nodes in `l`, compared lexicographically (R105). -/
def leastKey (x : Node) (l : List Node) : Prop :=
  ∀ y ∈ l, x.cnt < y.cnt ∨ (x.cnt = y.cnt ∧ (x.ht < y.ht ∨ (x.ht = y.ht ∧ x.index ≤ y.index)))

/-- The merging loop of R104 from active nodes `l`, with `n` the next internal node's index, ends with `root`. -/
inductive Merges : Nat → List Node → Node → Prop where
  | root (n : Nat) (r : Node) : Merges n [r] r
  | merge (n : Nat) (l rest : List Node) (x y r : Node)
      (active : l.Perm (x :: y :: rest)) (first : leastKey x l) (second : leastKey y (y :: rest))
      (next : Merges (n + 1)
        ({ cnt := x.cnt + y.cnt, ht := max x.ht y.ht + 1, index := n, tree := .node x.tree y.tree } :: rest) r) :
      Merges n l r

/-- `sym` is a leaf at depth `d` of a tree (R104). -/
inductive LeafAt : Tree → Nat → Nat → Prop where
  | here (sym : Nat) : LeafAt (.leaf sym) sym 0
  | left (x y : Tree) (sym d : Nat) (h : LeafAt x sym d) : LeafAt (.node x y) sym (d + 1)
  | right (x y : Tree) (sym d : Nat) (h : LeafAt y sym d) : LeafAt (.node x y) sym (d + 1)

/-- What emitting `bits` does to OUTQ, the accumulator and the counters (R64, R120): the pushed bytes and then the
pending bits are the old pending bits and then `bits`, and the counters count them. -/
def emitted (s t : State) (bytes : List Byte) (bits : List Bool) : Prop :=
  t.outq = s.outq ++ bytes.map (fun b => 0x40000000#32 ||| b.setWidth 32)
    ∧ bytes.flatMap byteBits ++ t.pendingBits = s.pendingBits ++ bits
    ∧ t.encBits = s.encBits + BitVec.ofNat 64 bits.length
    ∧ t.encBytes = s.encBytes + BitVec.ofNat 64 bytes.length
    ∧ (s.pendingSound → t.pendingSound)

/-- The commands of a list, executed in order until one does not answer a next state (R73). -/
def runs : List Instr → State → Host.Outcome State Fault Refusal
  | [], s => .next s
  | i :: rest, s =>
    match exec i s with
    | .next t => runs rest t
    | o => o

/-- The Kraft sum of a length table in units of 2^-64 (R109). -/
def kraft (len : Table 65537 7) : Nat :=
  ∑ sym ∈ Finset.range 65537, if len.get sym = 0 then 0 else 2 ^ (64 - (len.get sym).toNat)

/-- The Kraft sum of the coded symbols that canonical assignment takes before `sym`: the longer ones, and those of equal
length and smaller value (R114). -/
def kraftBefore (len : Table 65537 7) (sym : Nat) : Nat :=
  ∑ x ∈ Finset.range 65537,
    if len.get x ≠ 0 ∧ ((len.get sym).toNat < (len.get x).toNat ∨ (len.get x = len.get sym ∧ x < sym)) then
      2 ^ (64 - (len.get x).toNat)
    else 0

/-- Canonical assignment can give `sym` its code (R115): the shift drops no 1 bit and the pattern does not overflow. -/
def assignable (len : Table 65537 7) (sym : Nat) : Prop :=
  2 ^ (64 - (len.get sym).toNat) ∣ kraftBefore len sym ∧ kraftBefore len sym < 2 ^ 64

/-- SORTED, NUM_CODED, MAX_LEN and FIRST are the ones of the length table `len` (R28, R29, R30, R113). -/
def sortedTables (len : Table 65537 7) (t : State) : Prop :=
  t.numCoded.toNat = ((Finset.range 65537).filter (fun sym => len.get sym ≠ 0)).card
    ∧ (∀ i < t.numCoded.toNat, (t.sorted.get i).toNat < 65537 ∧ len.get (t.sorted.get i).toNat ≠ 0)
    ∧ (∀ i j, i < j → j < t.numCoded.toNat →
        (len.get (t.sorted.get i).toNat).toNat < (len.get (t.sorted.get j).toNat).toNat
          ∨ (len.get (t.sorted.get i).toNat = len.get (t.sorted.get j).toNat
              ∧ (t.sorted.get i).toNat < (t.sorted.get j).toNat))
    ∧ (∀ sym < 65537, (len.get sym).toNat ≤ t.maxLen.toNat)
    ∧ (∃ sym < 65537, len.get sym = t.maxLen)
    ∧ (∀ l ≤ 64,
        (t.first.get l = 0xFFFFFFFF#32 ∧ ∀ i < t.numCoded.toNat, (len.get (t.sorted.get i).toNat).toNat ≠ l)
          ∨ ∃ i < t.numCoded.toNat, t.first.get l = BitVec.ofNat 32 i ∧ (len.get (t.sorted.get i).toNat).toNat = l
              ∧ ∀ j < i, (len.get (t.sorted.get j).toNat).toNat ≠ l)

/-- Two states agree on everything but the contents of tables whose validity flag is 0, and the entries of SORTED from
NUM_CODED on (R28, R32). -/
def agree (s t : State) : Prop :=
  t = { s with count := t.count, len := t.len, code := t.code, sorted := t.sorted, first := t.first }
    ∧ (s.histValid = true → t.count = s.count)
    ∧ (s.lenValid = true → t.len = s.len)
    ∧ (s.codesValid = true → t.code = s.code ∧ t.first = s.first
        ∧ ∀ i < s.numCoded.toNat, t.sorted.get i = s.sorted.get i)

end Sys2Proof.Statements

open Sys2Proof.Statements

/-! ### Encoding -/

/-- Words written out from R82, R84 and R85 decode to the commands they stand for, and words that R86 rejects do not
decode. -/
def Obligations.SpecWordsDecode : Prop :=
  decode 0x00000000#32 = .ok .nop
    ∧ decode 0x0A00000A#32 = .ok (.histSample true 10#25)
    ∧ decode 0x08000014#32 = .ok (.histSample false 20#25)
    ∧ decode 0x0C000000#32 = .ok .buildTree
    ∧ decode 0x14800002#32 = .ok (.lenWrite 65536#17 2#7)
    ∧ decode 0x18000000#32 = .ok .buildCodes
    ∧ decode 0x2200000A#32 = .ok (.encSample true 10#25)
    ∧ decode 0x24000000#32 = .ok .encFinish
    ∧ decode 0x2C00001B#32 = .ok (.decByte 0x1B#8)
    ∧ decode 0x30000000#32 = .ok .decEnd
    ∧ decode 0x06000000#32 = .error (.reservedBits .none)
    ∧ decode 0x15000000#32 = .error (.reservedBits .length)
    ∧ decode 0x2C000100#32 = .error (.reservedBits .byte)
    ∧ decode 0x34000000#32 = .error (.reservedOpcode 0x0D#6)

/-- R84 and R86: decoding the word of any command, with any operands, gives the command back. -/
def Obligations.DecodeOfEncode : Prop :=
  ∀ i : Instr, i.wellFormed = true ∧ decode (encode i) = .ok i

/-- R86: every word decodes either to exactly one command, whose word it is, or to ILLEGAL; the second exactly when its
opcode is above 0x0C or a reserved bit of its format is set; and an ILLEGAL word raises ILLEGAL_CMD at the head of CMDQ. -/
def Obligations.EveryWordCommandOrIllegal : Prop :=
  ∀ w : Word,
    (wellFormedWord w = true → ∃ i, decode w = .ok i ∧ encode i = w ∧ ∀ j, encode j = w → j = i)
      ∧ (wellFormedWord w = false → ∃ e, decode w = .error e)
      ∧ (wellFormedWord w = true ↔
          (opcodeField w).toNat ≤ 0x0C
            ∧ ((opcodeField w).toNat ∈ [0x00, 0x01, 0x03, 0x04, 0x06, 0x07, 0x09, 0x0A, 0x0C] → w.extractLsb' 0 26 = 0)
            ∧ ((opcodeField w).toNat = 0x05 → w.extractLsb' 24 2 = 0)
            ∧ ((opcodeField w).toNat = 0x0B → w.extractLsb' 8 18 = 0))
      ∧ (wellFormedWord w = false →
          ∀ (s : State) (q : List Word), s.agenda = [] → s.halt = false → s.cmdq = w :: q →
            step s = .next (failed s 0x01 w 0))

/-! ### The step (40_control.md) -/

/-- R87, R95, R136: a head word that is no command raises ILLEGAL_CMD, with argument 0 and no other effect. -/
def Obligations.IllegalHeadHalts : Prop :=
  ∀ (s : State) (w : Word) (q : List Word),
    s.agenda = [] → s.halt = false → s.cmdq = w :: q → wellFormedWord w = false →
      step s = .next (failed s 0x01 w 0)

/-- R93, R95 (with the event list of log 5): where the core is enabled and the head word decodes to `i`, the step is exec of `i`; the event of the core
is then over. The command leaves CMDQ inside exec. -/
def Obligations.StepRunsHeadCommand : Prop :=
  ∀ (s : State) (i : Instr) (w : Word) (q : List Word),
    s.halt = false → s.cmdq = w :: q → decode w = .ok i → i.wellFormed = true →
      (i.mayPush = true → s.outq.length + 10 ≤ s.params.outqDepth.toNat) →
        (s.agenda = [] → step s = exec i s)
          ∧ ∀ rest : List Event, s.agenda = .core :: rest → step s = exec i { s with agenda := rest }

/-- R93: the core can take a step exactly when it is enabled; a hold ends only with a host read of OUT or
a CTRL write of OUT_FLUSH (or a reset, which empties CMDQ); a quiescent core is enabled again only by a write of CMD or a
CTRL write of ERR_CLEAR. That the event of a core that takes no step answers a next state, which is the old one, is the
model's reading (DEDUCED, log 7): R93 says that it takes no step, R151 and I6 call a hold stuck. -/
def Obligations.CoreTakesStepWhenEnabled : Prop :=
  ∀ s t : State,
    (s.agenda = [] → (step s ≠ .next s ↔ enabled s))
      ∧ (∀ rest : List Event, s.agenda = .core :: rest → (step s ≠ .next { s with agenda := rest } ↔ enabled s))
      ∧ (enabled s ∨ holding s ∨ s.quiescent)
      ∧ (holding s → step s = .next t → enabled t →
          (∃ rest, s.agenda = .read (s.params.base + 0x2C) 4 :: rest)
            ∨ ∃ v, nextIsWrite s 0x0C v ∧ v.getLsbD 2 = true)
      ∧ (s.quiescent → step s = .next t → enabled t →
          (∃ w, nextIsWrite s 0x28 w) ∨ ∃ v, nextIsWrite s 0x0C v ∧ v.getLsbD 1 = true)

/-- R57, R93, R160: a core that holds with nine free slots executes its head command after one host read of OUT. That the
event of the holding core answers the old state is the model's reading (DEDUCED, log 7). -/
def Obligations.HoldEndsWithRead : Prop :=
  ∀ (s : State) (i : Instr) (w v : Word) (q o : List Word),
    s.halt = false → s.cmdq = w :: q → decode w = .ok i → i.mayPush = true →
      s.outq = v :: o → o.length + 10 = s.params.outqDepth.toNat →
        step { s with agenda := [] } = .next { s with agenda := [] }
          ∧ reads s 0x2C v { s with outq := o }
          ∧ nextMove { s with outq := o, agenda := [], busData := v } = .run i { s with outq := o, agenda := [], busData := v }

/-- R134: a command whose precondition is false raises SEQUENCE, with argument 0, and changes nothing else, but that the
encoder's fail forms clear ENC_ACTIVE and DEC_BYTE sets DEC_STATE to IDLE. NOP, HIST_CLEAR and LEN_CLEAR have no precondition. -/
def Obligations.SequencePreconditions : Prop :=
  ∀ (s : State) (w : Word) (q : List Word), s.cmdq = w :: q →
    (s.histValid = false →
        (∀ m v, exec (.histSample m v) s = .next (failed s 0x02 w 0)) ∧ exec .buildTree s = .next (failed s 0x02 w 0))
      ∧ (s.lenValid = false →
          (∀ sym l, exec (.lenWrite sym l) s = .next (failed s 0x02 w 0)) ∧ exec .buildCodes s = .next (failed s 0x02 w 0))
      ∧ (s.codesValid = false →
          exec .encStart s = .next (failed s 0x02 w 0) ∧ exec .decStart s = .next (failed s 0x02 w 0))
      ∧ (s.codesValid = false ∨ s.encActive = false →
          (∀ m v, exec (.encSample m v) s = .next (failed { s with encActive := false } 0x02 w 0))
            ∧ exec .encFinish s = .next (failed { s with encActive := false } 0x02 w 0))
      ∧ (s.codesValid = false ∨ s.decState = .idle →
          ∀ b, exec (.decByte b) s = .next (failed { s with decState := .idle } 0x02 w 0))
      ∧ (s.decState = .idle → exec .decEnd s = .next (failed s 0x02 w 0))
      ∧ ∀ i ∈ [Instr.nop, .histClear, .lenClear], ∃ t, exec i s = .next t ∧ t.halt = s.halt ∧ t.cmdq = q

/-- R99: NOP does nothing but retire, in every state; a word of its opcode with another bit set is illegal; a halted core
does not reach it; and written to a full CMDQ it raises CMDQ_OVERFLOW. That the event of a halted core, which takes no
step, answers the old state is the model's reading (DEDUCED, log 7). -/
def Obligations.NopRule : Prop :=
  plainWord 0x00 .nop
    ∧ (∀ (s : State) (w : Word) (q : List Word), s.cmdq = w :: q → exec .nop s = .next (retired s q))
    ∧ (∀ s : State, s.halt = true → s.agenda = [] → step s = .next s)
    ∧ ∀ s : State, s.halt = false → s.cmdq.length = s.params.cmdqDepth.toNat → writes s 0x28 0 (failed s 0x0A 0 0)

/-! ### The histogram (41_histogram.md) -/

/-- R100: HIST_CLEAR zeroes the sample counts, sets COUNT[EOS] to 1, HIST_TOTAL to 0 and HIST_VALID, and changes nothing
else, in every state. -/
def Obligations.HistClearRule : Prop :=
  plainWord 0x01 .histClear
    ∧ ∀ (s : State) (w : Word) (q : List Word), s.cmdq = w :: q →
        ∃ t, exec .histClear s = .next t
          ∧ (∀ sym < 65536, t.count.get sym = 0) ∧ t.count.get 65536 = 1 ∧ t.histTotal = 0 ∧ t.histValid = true
          ∧ t = retired { s with count := t.count, histTotal := t.histTotal, histValid := t.histValid } q

/-- R101: HIST_SAMPLE, its checks in order, the masked-out sample, and the count of one sample with all that it leaves
unchanged. -/
def Obligations.HistSampleRule : Prop :=
  (∀ m v, decode (0x08000000#32 ||| (if m then 0x02000000#32 else 0#32) ||| v.setWidth 32) = .ok (.histSample m v))
    ∧ ∀ (s : State) (w : Word) (q : List Word) (v : BitVec 25), s.cmdq = w :: q →
        (s.histValid = false → ∀ m, exec (.histSample m v) s = .next (failed s 0x02 w 0))
          ∧ (s.histValid = true →
              exec (.histSample false v) s = .next (retired s q)
                ∧ (65535 < v.toNat → exec (.histSample true v) s = .next (failed s 0x03 w (v.setWidth 32)))
                ∧ (v.toNat ≤ 65535 → s.histTotal = 0xFFFFFFFE#32 →
                    exec (.histSample true v) s = .next (failed s 0x06 w (v.setWidth 32)))
                ∧ (v.toNat ≤ 65535 → s.histTotal ≠ 0xFFFFFFFE#32 →
                    ∃ t, exec (.histSample true v) s = .next t
                      ∧ t.count.get v.toNat = s.count.get v.toNat + 1
                      ∧ (∀ sym, sym ≠ v.toNat → t.count.get sym = s.count.get sym)
                      ∧ t.histTotal = s.histTotal + 1
                      ∧ t = retired { s with count := t.count, histTotal := t.histTotal } q))

/-! ### The tree builder (42_tree.md) -/

/-- R104 with the key of R105: BUILD_TREE merges the two active nodes with the least keys until one is left; each leaf's
length is its depth, at least 1, and every other length is 0; LEN_VALID is set, CODES_VALID cleared, and nothing else
changes. Were a leaf deeper than 64, it would raise BUILD_FAIL for the least such symbol, with both flags 0. -/
def Obligations.BuildTreeIsHuffman : Prop :=
  plainWord 0x03 .buildTree
    ∧ ∀ (s : State) (w : Word) (q : List Word), s.cmdq = w :: q →
        (s.histValid = false → exec .buildTree s = .next (failed s 0x02 w 0))
          ∧ (s.histValid = true → s.count.wf = true →
              ∃ (root : Node) (t : State), Merges 65537 (activeAtStart s.count) root ∧ exec .buildTree s = .next t
                ∧ (((∀ sym d, LeafAt root.tree sym d → d ≤ 64 ∧ (t.len.get sym).toNat = max d 1)
                      ∧ (∀ sym, (∀ d, ¬ LeafAt root.tree sym d) → t.len.get sym = 0)
                      ∧ t = retired { s with len := t.len, lenValid := true, codesValid := false } q)
                    ∨ ∃ sym d, LeafAt root.tree sym d ∧ 64 < d ∧ (∀ x e, LeafAt root.tree x e → 64 < e → sym ≤ x)
                      ∧ t = failed { s with len := t.len, lenValid := false, codesValid := false, draws := t.draws }
                          0x07 w (BitVec.ofNat 32 sym)))

/-- R104, R108, R109: BUILD_TREE on a valid histogram always succeeds: EOS and the symbols with a count, and no others,
get a length, which is at most 45; LEN_VALID is set, CODES_VALID cleared, and nothing else changes. -/
def Obligations.BuildTreeSucceeds : Prop :=
  plainWord 0x03 .buildTree
    ∧ ∀ (s : State) (w : Word) (q : List Word),
        s.cmdq = w :: q → s.histValid = true → s.histogramSound → s.count.wf = true →
          ∃ t, exec .buildTree s = .next t
            ∧ (∀ sym, t.len.get sym ≠ 0 ↔ sym = 65536 ∨ (sym < 65536 ∧ s.count.get sym ≠ 0))
            ∧ (∀ sym, (t.len.get sym).toNat ≤ 45)
            ∧ t = retired { s with len := t.len, lenValid := true, codesValid := false } q

/-- R105: the selection takes the node with the least key (count, height, index), compared lexicographically, and
leaves the others. -/
def Obligations.SelectionIsLeastKey : Prop :=
  ∀ (m : Node) (l : List Node),
    (((takeLeast m l).1 :: (takeLeast m l).2).Perm (m :: l)) ∧ leastKey (takeLeast m l).1 (m :: l)

/-- R106: without a counted sample the only length is LEN[EOS] = 1; with one distinct sample value `v`, LEN[v] and
LEN[EOS] are 1 and every other length is 0. -/
def Obligations.DegenerateTree : Prop :=
  ∀ (s : State) (w : Word) (q : List Word),
    s.cmdq = w :: q → s.histValid = true → s.count.wf = true →
      ((∀ sym < 65536, s.count.get sym = 0) →
          ∃ t, exec .buildTree s = .next t ∧ t.lenValid = true ∧ ∀ sym, t.len.get sym = if sym = 65536 then 1 else 0)
        ∧ ∀ v < 65536, s.count.get v ≠ 0 → (∀ sym < 65536, sym ≠ v → s.count.get sym = 0) →
            ∃ t, exec .buildTree s = .next t ∧ t.lenValid = true
              ∧ ∀ sym, t.len.get sym = if sym = 65536 ∨ sym = v then 1 else 0

/-- R109: a successful BUILD_TREE gives a length to EOS and to the symbols with a count, and to no others; the lengths
satisfy the Kraft equality when a sample was counted, and sum to one half when none was; BUILD_CODES on them succeeds. -/
def Obligations.TreeKraftEquality : Prop :=
  ∀ s t : State,
    s.histValid = true → s.count.wf = true → exec .buildTree s = .next t → t.lenValid = true →
      (∀ sym, t.len.get sym ≠ 0 ↔ sym = 65536 ∨ (sym < 65536 ∧ s.count.get sym ≠ 0))
        ∧ ((∃ sym < 65536, s.count.get sym ≠ 0) → kraft t.len = 2 ^ 64)
        ∧ ((∀ sym < 65536, s.count.get sym = 0) → kraft t.len = 2 ^ 63)
        ∧ ∃ u, exec .buildCodes t = .next u ∧ u.codesValid = true ∧ u.halt = t.halt

/-! ### The canonical codes (43_canonical.md) -/

/-- R110: LEN_CLEAR zeroes every length, sets LEN_VALID, clears CODES_VALID, and changes nothing else, in every state. -/
def Obligations.LenClearRule : Prop :=
  plainWord 0x04 .lenClear
    ∧ ∀ (s : State) (w : Word) (q : List Word), s.cmdq = w :: q →
        ∃ t, exec .lenClear s = .next t ∧ (∀ sym, t.len.get sym = 0)
          ∧ t = retired { s with len := t.len, lenValid := true, codesValid := false } q

/-- R111: LEN_WRITE, its checks in order (LEN_RANGE on S and then on L, with argument S), and the write of one length
with all that it leaves unchanged. -/
def Obligations.LenWriteRule : Prop :=
  (∀ (sym : BitVec 17) (l : BitVec 7),
      decode (0x14000000#32 ||| (sym.setWidth 32 <<< 7) ||| l.setWidth 32) = .ok (.lenWrite sym l))
    ∧ (∀ w : Word, opcodeField w = 0x05 → w.extractLsb' 24 2 ≠ 0 → decode w = .error (.reservedBits .length))
    ∧ ∀ (s : State) (w : Word) (q : List Word) (sym : BitVec 17) (l : BitVec 7), s.cmdq = w :: q →
        (s.lenValid = false → exec (.lenWrite sym l) s = .next (failed s 0x02 w 0))
          ∧ (s.lenValid = true →
              (65536 < sym.toNat ∨ 64 < l.toNat →
                  exec (.lenWrite sym l) s = .next (failed s 0x04 w (sym.setWidth 32)))
                ∧ (sym.toNat ≤ 65536 → l.toNat ≤ 64 →
                    ∃ t, exec (.lenWrite sym l) s = .next t
                      ∧ t.len.get sym.toNat = l
                      ∧ (∀ x, x ≠ sym.toNat → t.len.get x = s.len.get x)
                      ∧ t = retired { s with len := t.len, codesValid := false } q))

/-- R113: BUILD_CODES leaves SORTED, NUM_CODED, MAX_LEN and FIRST as the length table determines them, and does so when it
ends in CODE_ASSIGN too (R112). -/
def Obligations.SortedTablesRule : Prop :=
  ∀ (s : State) (w : Word) (q : List Word),
    s.cmdq = w :: q → s.lenValid = true → s.len.wf = true →
      ∃ t, exec .buildCodes s = .next t ∧ sortedTables s.len t

/-- R112, R114, R115: BUILD_CODES succeeds exactly when every coded symbol can be given its code, the code of a symbol
is then the Kraft sum before it in its own units, and nothing but the code tables, TOTAL_BITS and CODES_VALID changes.
Otherwise it raises CODE_ASSIGN for the first symbol, longest length first and ascending within one, that cannot be
given its code; CODES_VALID is then 0 and TOTAL_BITS unchanged. -/
def Obligations.CodeAssignExactly : Prop :=
  plainWord 0x06 .buildCodes
    ∧ ∀ (s : State) (w : Word) (q : List Word),
        s.cmdq = w :: q → s.lenValid = true → s.len.wf = true → (∀ sym < 65537, (s.len.get sym).toNat ≤ 64) →
          ((∀ sym < 65537, s.len.get sym ≠ 0 → assignable s.len sym) →
              ∃ t, exec .buildCodes s = .next t
                ∧ (∀ sym < 65537, s.len.get sym ≠ 0 →
                    (t.code.get sym).toNat * 2 ^ (64 - (s.len.get sym).toNat) = kraftBefore s.len sym
                      ∧ (t.code.get sym).toNat < 2 ^ (s.len.get sym).toNat)
                ∧ (∀ sym < 65537, s.len.get sym = 0 → t.code.get sym = 0)
                ∧ t = retired { s with
                    code := t.code, sorted := t.sorted, first := t.first, numCoded := t.numCoded, maxLen := t.maxLen
                    totalBits := t.totalBits, codesValid := true } q)
            ∧ ∀ sym < 65537, s.len.get sym ≠ 0 → ¬ assignable s.len sym →
                (∀ x < 65537, s.len.get x ≠ 0 →
                    ((s.len.get sym).toNat < (s.len.get x).toNat ∨ (s.len.get x = s.len.get sym ∧ x < sym)) →
                      assignable s.len x) →
                  ∃ t, exec .buildCodes s = .next t
                    ∧ t = failed { s with
                        code := t.code, sorted := t.sorted, first := t.first, numCoded := t.numCoded, maxLen := t.maxLen
                        codesValid := false, draws := t.draws } 0x08 w (BitVec.ofNat 32 sym)

/-- R118, items 1 to 3: after a successful BUILD_CODES no code is a prefix of another, equal-length codes increase with
the symbol, and a longer code is smaller than a shorter one on the shorter one's length. -/
def Obligations.CodesPrefixFree : Prop :=
  ∀ s t : State,
    s.lenValid = true → s.len.wf = true → (∀ sym < 65537, (s.len.get sym).toNat ≤ 64) →
      exec .buildCodes s = .next t → t.codesValid = true →
        ∀ a < 65537, ∀ b < 65537, a ≠ b → t.len.get a ≠ 0 → t.len.get b ≠ 0 →
          ¬ (codeBits (t.code.get a) (t.len.get a).toNat <+: codeBits (t.code.get b) (t.len.get b).toNat)
            ∧ (t.len.get a = t.len.get b → a < b → (t.code.get a).toNat < (t.code.get b).toNat)
            ∧ ((t.len.get b).toNat < (t.len.get a).toNat →
                (t.code.get a).toNat / 2 ^ ((t.len.get a).toNat - (t.len.get b).toNat) < (t.code.get b).toNat)

/-- R118, item 4: the codes, the order, the index, NUM_CODED and MAX_LEN depend on LEN alone. -/
def Obligations.CodesDependOnLengthsAlone : Prop :=
  ∀ s s' t t' : State,
    s.len = s'.len → s.len.wf = true → s.lenValid = true → s'.lenValid = true →
      exec .buildCodes s = .next t → exec .buildCodes s' = .next t' →
        t.codesValid = t'.codesValid
          ∧ t.first = t'.first ∧ t.numCoded = t'.numCoded ∧ t.maxLen = t'.maxLen
          ∧ (∀ i < t.numCoded.toNat, t.sorted.get i = t'.sorted.get i)
          ∧ (t.codesValid = true → t.code = t'.code)

/-- R116: lengths that satisfy the Kraft equality, and the lone code of length 1, never raise CODE_ASSIGN. -/
def Obligations.FullCodeBuilds : Prop :=
  ∀ (s : State) (w : Word) (q : List Word),
    s.cmdq = w :: q → s.lenValid = true → s.len.wf = true → (∀ sym < 65537, (s.len.get sym).toNat ≤ 64) →
      (kraft s.len = 2 ^ 64
        ∨ ∃ sym < 65537, s.len.get sym = 1 ∧ ∀ x < 65537, x ≠ sym → s.len.get x = 0) →
          ∃ t, exec .buildCodes s = .next t ∧ t.codesValid = true ∧ t.halt = s.halt

/-- R117: a successful BUILD_CODES sets TOTAL_BITS to the sum of count times length over the sample symbols plus the
length of EOS, and to 0 without a valid histogram. -/
def Obligations.TotalBitsRule : Prop :=
  ∀ s t : State,
    s.lenValid = true → s.len.wf = true → exec .buildCodes s = .next t → t.codesValid = true →
      (s.histValid = true →
          t.totalBits = BitVec.ofNat 64
            ((∑ sym ∈ Finset.range 65536, (s.count.get sym).toNat * (s.len.get sym).toNat) + (s.len.get 65536).toNat))
        ∧ (s.histValid = false → t.totalBits = 0)

/-! ### The encoder (44_encoder.md) -/

/-- R121: ENC_START opens a payload: the accumulator and the counters are 0, and nothing else changes. -/
def Obligations.EncStartRule : Prop :=
  plainWord 0x07 .encStart
    ∧ ∀ (s : State) (w : Word) (q : List Word), s.cmdq = w :: q →
        (s.codesValid = false → exec .encStart s = .next (failed s 0x02 w 0))
          ∧ (s.codesValid = true →
              exec .encStart s =
                .next (retired { s with encActive := true, encAcc := 0, encNacc := 0, encBits := 0, encBytes := 0 } q))

/-- R120, R122: ENC_SAMPLE, its checks in order, the masked-out sample, and the emission of the sample's code, most
significant bit first, with all that it leaves unchanged. -/
def Obligations.EncSampleRule : Prop :=
  (∀ m v, decode (0x20000000#32 ||| (if m then 0x02000000#32 else 0#32) ||| v.setWidth 32) = .ok (.encSample m v))
    ∧ ∀ (s : State) (w : Word) (q : List Word) (v : BitVec 25), s.cmdq = w :: q →
        (s.codesValid = false ∨ s.encActive = false →
            ∀ m, exec (.encSample m v) s = .next (failed { s with encActive := false } 0x02 w 0))
          ∧ (s.codesValid = true → s.encActive = true →
              exec (.encSample false v) s = .next (retired s q)
                ∧ (65535 < v.toNat →
                    exec (.encSample true v) s = .next (failed { s with encActive := false } 0x03 w (v.setWidth 32)))
                ∧ (v.toNat ≤ 65535 → s.len.get v.toNat = 0 →
                    exec (.encSample true v) s = .next (failed { s with encActive := false } 0x05 w (v.setWidth 32)))
                ∧ (v.toNat ≤ 65535 → s.len.get v.toNat ≠ 0 →
                    ∃ t bytes, exec (.encSample true v) s = .next t
                      ∧ emitted s t bytes (codeBits (s.code.get v.toNat) (s.len.get v.toNat).toNat)
                      ∧ t = retired { s with
                          encAcc := t.encAcc, encNacc := t.encNacc, encBits := t.encBits, encBytes := t.encBytes
                          outq := t.outq } q))

/-- R123: ENC_FINISH emits the EOS code, pads with 0 bits to a whole byte, pushes END, clears ENC_ACTIVE, sets P_ENC_DONE,
and changes nothing else; without an EOS code it raises UNCODED_SYMBOL with argument 65536. -/
def Obligations.EncFinishRule : Prop :=
  plainWord 0x09 .encFinish
    ∧ ∀ (s : State) (w : Word) (q : List Word), s.cmdq = w :: q →
        (s.codesValid = false ∨ s.encActive = false →
            exec .encFinish s = .next (failed { s with encActive := false } 0x02 w 0))
          ∧ (s.codesValid = true → s.encActive = true → s.len.get 65536 = 0 →
              exec .encFinish s = .next (failed { s with encActive := false } 0x05 w 65536))
          ∧ (s.codesValid = true → s.encActive = true → s.len.get 65536 ≠ 0 → s.pendingSound →
              ∃ (t : State) (bytes : List Byte) (pad : Nat), exec .encFinish s = .next t
                ∧ pad < 8
                ∧ t.outq = s.outq ++ bytes.map (fun b => 0x40000000#32 ||| b.setWidth 32) ++ [0xC0000000#32]
                ∧ bytes.flatMap byteBits =
                    s.pendingBits ++ codeBits (s.code.get 65536) (s.len.get 65536).toNat ++ List.replicate pad false
                ∧ t.encBits = s.encBits + BitVec.ofNat 64 (s.len.get 65536).toNat
                ∧ t.encBytes = s.encBytes + BitVec.ofNat 64 bytes.length
                ∧ t = retired { s with
                    encActive := false, encAcc := 0, encNacc := 0, encBits := t.encBits, encBytes := t.encBytes
                    outq := t.outq, pEncDone := true } q)

/-- R124: ENC_START, ENC_SAMPLE of any coded values and ENC_FINISH push the values' codes and the EOS code, cut into bytes
most significant bit first and padded with 0 bits to a multiple of 8, and then END; the counters count the bits and the
bytes. -/
def Obligations.PayloadIsPacked : Prop :=
  ∀ (s : State) (samples : List (BitVec 25)),
    s.codesValid = true → (∀ v ∈ samples, v.toNat < 65536 ∧ s.len.get v.toNat ≠ 0) → s.len.get 65536 ≠ 0 →
      ∃ (t : State) (bytes : List Byte) (pad : Nat),
        runs (.encStart :: samples.map (fun v => .encSample true v) ++ [.encFinish]) s = .next t
          ∧ pad < 8
          ∧ t.outq = s.outq ++ bytes.map (fun b => 0x40000000#32 ||| b.setWidth 32) ++ [0xC0000000#32]
          ∧ bytes.flatMap byteBits =
              samples.flatMap (fun v => codeBits (s.code.get v.toNat) (s.len.get v.toNat).toNat)
                ++ codeBits (s.code.get 65536) (s.len.get 65536).toNat ++ List.replicate pad false
          ∧ t.encBits =
              BitVec.ofNat 64 ((samples.map (fun v => (s.len.get v.toNat).toNat)).sum + (s.len.get 65536).toNat)
          ∧ t.encBytes = BitVec.ofNat 64 bytes.length
          ∧ t.encActive = false ∧ t.halt = s.halt

/-! ### The decoder (45_decoder.md) -/

/-- R127: DEC_START opens a walk: RUN, an empty running code and counters of 0, and nothing else changes. -/
def Obligations.DecStartRule : Prop :=
  plainWord 0x0A .decStart
    ∧ ∀ (s : State) (w : Word) (q : List Word), s.cmdq = w :: q →
        (s.codesValid = false → exec .decStart s = .next (failed s 0x02 w 0))
          ∧ (s.codesValid = true →
              exec .decStart s =
                .next (retired { s with decState := .run, decRc := 0, decRl := 0, decSyms := 0, decBits := 0 } q))

/-- R126: with valid codes, one payload bit of a running walk ends exactly the code that it completes, whichever symbol
that is of; where it completes none, the walk goes on or, at MAX_LEN bits, enters NOMATCH. In any other walk state the
bit is not consumed. -/
def Obligations.DecBitFindsCode : Prop :=
  ∀ (s : State) (b : Bool),
    (s.decState ≠ .run → s.decBit b = s)
      ∧ (s.decState = .run → s.codesValid = true → s.lengthsSound → s.codesSound → s.len.wf = true → s.walkSound →
          (∀ sym < 65537, (s.len.get sym).toNat = s.decRl.toNat + 1 →
              (s.code.get sym).toNat = 2 * s.decRc.toNat + b.toNat →
                s.decBit b =
                  if sym = 65536 then
                    { s with
                      decState := .done, decRc := s.code.get sym, decRl := s.len.get sym, decBits := s.decBits + 1
                      outq := s.outq ++ [0xC0000001#32], pDecDone := true }
                  else
                    { s with
                      decRc := 0, decRl := 0, decSyms := s.decSyms + 1, decBits := s.decBits + 1
                      outq := s.outq ++ [0x80000000#32 ||| BitVec.ofNat 32 sym] })
            ∧ ((∀ sym < 65537, (s.len.get sym).toNat = s.decRl.toNat + 1 →
                  (s.code.get sym).toNat ≠ 2 * s.decRc.toNat + b.toNat) →
                s.decBit b =
                  { s with
                    decRc := BitVec.ofNat 64 (2 * s.decRc.toNat + b.toNat), decRl := s.decRl + 1
                    decBits := s.decBits + 1
                    decState := if s.maxLen.toNat ≤ s.decRl.toNat + 1 then .noMatch else .run }))

/-- R128: DEC_BYTE walks the eight bits of its byte, bit 7 first; in DONE and NOMATCH it only retires. -/
def Obligations.DecByteRule : Prop :=
  (∀ b : Byte, decode (0x2C000000#32 ||| b.setWidth 32) = .ok (.decByte b))
    ∧ (∀ w : Word, opcodeField w = 0x0B → w.extractLsb' 8 18 ≠ 0 → decode w = .error (.reservedBits .byte))
    ∧ ∀ (s : State) (w : Word) (q : List Word) (b : Byte), s.cmdq = w :: q →
        (s.codesValid = false ∨ s.decState = .idle →
            exec (.decByte b) s = .next (failed { s with decState := .idle } 0x02 w 0))
          ∧ (s.codesValid = true → s.decState ≠ .idle →
              exec (.decByte b) s =
                .next (retired
                  ((((((((s.decBit (b.getLsbD 7)).decBit (b.getLsbD 6)).decBit (b.getLsbD 5)).decBit (b.getLsbD 4)).decBit
                    (b.getLsbD 3)).decBit (b.getLsbD 2)).decBit (b.getLsbD 1)).decBit (b.getLsbD 0)) q))
          ∧ (s.codesValid = true → s.decState = .done ∨ s.decState = .noMatch →
              exec (.decByte b) s = .next (retired s q))
          ∧ (s.codesValid = true → s.decState ≠ .idle →
              ∃ t, exec (.decByte b) s = .next t
                ∧ t = retired { s with
                    decState := t.decState, decRc := t.decRc, decRl := t.decRl, decSyms := t.decSyms
                    decBits := t.decBits, outq := t.outq, pDecDone := t.pDecDone } q)

/-- R129: DEC_END after the EOS code succeeds and closes the walk; in RUN and NOMATCH it closes the walk and raises
TRUNCATED with the number of decoded symbols; without a walk it raises SEQUENCE. -/
def Obligations.DecEndRule : Prop :=
  plainWord 0x0C .decEnd
    ∧ ∀ (s : State) (w : Word) (q : List Word), s.cmdq = w :: q →
        (s.decState = .idle → exec .decEnd s = .next (failed s 0x02 w 0))
          ∧ (s.decState = .done → exec .decEnd s = .next (retired { s with decState := .idle } q))
          ∧ (s.decState = .run ∨ s.decState = .noMatch →
              exec .decEnd s = .next (failed { s with decState := .idle } 0x09 w s.decSyms))

/-- R130: with valid codes, walking the codes of any coded samples and then of EOS, and whatever bits follow, pushes
exactly those samples and END, and ends in DONE with the symbols and the code bits counted. -/
def Obligations.PayloadDecodes : Prop :=
  ∀ (s : State) (syms : List Nat) (pad : List Bool),
    s.codesValid = true → s.lengthsSound → s.codesSound → s.len.wf = true →
      s.decState = .run → s.decRl = 0 → s.decRc = 0 →
        (∀ x ∈ syms, x < 65536 ∧ s.len.get x ≠ 0) → s.len.get 65536 ≠ 0 →
          s.decBitList
              (syms.flatMap (fun x => codeBits (s.code.get x) (s.len.get x).toNat)
                ++ codeBits (s.code.get 65536) (s.len.get 65536).toNat ++ pad) =
            { s with
              outq := s.outq ++ syms.map (fun x => 0x80000000#32 ||| BitVec.ofNat 32 x) ++ [0xC0000001#32]
              decState := .done
              pDecDone := true
              decRc := s.code.get 65536
              decRl := s.len.get 65536
              decSyms := s.decSyms + BitVec.ofNat 32 syms.length
              decBits := s.decBits
                + BitVec.ofNat 64 ((syms.map (fun x => (s.len.get x).toNat)).sum + (s.len.get 65536).toNat) }

/-! ### The register window (10_state.md) -/

/-- R56: a write of CMD is discarded while halted, queued while there is room, and else raises CMDQ_OVERFLOW with the
dropped word, which empties CMDQ. -/
def Obligations.CommandWrites : Prop :=
  ∀ (s : State) (w : Word),
    (s.halt = true → writes s 0x28 w s)
      ∧ (s.halt = false → s.cmdq.length < s.params.cmdqDepth.toNat → writes s 0x28 w { s with cmdq := s.cmdq ++ [w] })
      ∧ (s.halt = false → s.cmdq.length = s.params.cmdqDepth.toNat → writes s 0x28 w (failed s 0x0A w 0))
      ∧ reads s 0x28 0 s

/-- R50, R139: a write of CTRL clears the error and empties OUTQ as its bits 1 and 2 say; a write of 0 does nothing, and
CTRL reads 0. (The reset of bit 0 is stated by ResetFromAnywhere.) -/
def Obligations.ControlWrites : Prop :=
  ∀ (s : State) (v : Word), v.getLsbD 0 = false →
    writes s 0x0C v
        { s with
          halt := s.halt && !v.getLsbD 1
          errCode := if s.halt && v.getLsbD 1 then 0 else s.errCode
          errCmd := if s.halt && v.getLsbD 1 then 0 else s.errCmd
          errArg := if s.halt && v.getLsbD 1 then 0 else s.errArg
          outq := if v.getLsbD 2 then [] else s.outq }
      ∧ writes s 0x0C 0 s ∧ reads s 0x0C 0 s

/-- R57: a read of OUT pops the head of OUTQ; from an empty OUTQ it returns 0 and changes nothing; a write is ignored. -/
def Obligations.OutReads : Prop :=
  ∀ s : State,
    (s.outq = [] → reads s 0x2C 0 s)
      ∧ (∀ (w : Word) (o : List Word), s.outq = w :: o → reads s 0x2C w { s with outq := o })
      ∧ ∀ v : Word, writes s 0x2C v s

/-- R54, R55, R58: IRQ_EN and TBL_INDEX hold their low bits, writing 1 to a sticky bit of IRQ_PEND clears it, and P_OUT is
the level OUTQ_LEVEL != 0, which no write changes. -/
def Obligations.InterruptAndIndexRegisters : Prop :=
  ∀ (s : State) (v : Word),
    writes s 0x20 v { s with irqEn := v.extractLsb' 0 5 }
      ∧ reads s 0x20 (s.irqEn.setWidth 32) s
      ∧ writes s 0x24 v
          { s with
            pErr := s.pErr && !v.getLsbD 0
            pIdle := s.pIdle && !v.getLsbD 1
            pEncDone := s.pEncDone && !v.getLsbD 3
            pDecDone := s.pDecDone && !v.getLsbD 4 }
      ∧ reads s 0x24
          (BitVec.ofNat 32
            (s.pErr.toNat + 2 * s.pIdle.toNat + 4 * (!s.outq.isEmpty).toNat + 8 * s.pEncDone.toNat + 16 * s.pDecDone.toNat)) s
      ∧ writes s 0x30 v { s with tblIndex := v.extractLsb' 0 17 }
      ∧ reads s 0x30 (s.tblIndex.setWidth 32) s

/-- R53: a read of any register but OUT has no side effect (the model's own `draws` counts free values, log 3), and a write has
an effect on CTRL, IRQ_EN, IRQ_PEND, CMD and TBL_INDEX only. -/
def Obligations.RegisterSideEffects : Prop :=
  ∀ (s : State) (offset : Nat), offset < 256 → offset % 4 = 0 →
    (offset ≠ 0x2C → ∃ v d, reads s offset v { s with draws := d })
      ∧ (offset ∉ [0x0C, 0x20, 0x24, 0x28, 0x30] → ∀ v : Word, writes s offset v s)

/-- R67: a step stops exactly on a host access that the spec leaves undefined or that misses the window, and answers a next
state otherwise. Two parts are the model's: that an access outside the window is refused (DESIGN CHOICE, log 8), and that
a core that holds or is quiescent answers a next state (DEDUCED, log 7; R151 and I6 call a hold stuck). -/
def Obligations.StepStopsOnlyOnBadAccess : Prop :=
  ∀ (s : State) (bad : Prop),
    (bad ↔
      ∃ addr bytes rest,
        ((s.agenda = .read addr bytes :: rest) ∨ ∃ v, s.agenda = .write addr bytes v :: rest)
          ∧ ¬ (s.params.base ≤ addr ∧ addr < s.params.base + 256 ∧ bytes = 4 ∧ (addr - s.params.base) % 4 = 0)) →
      ((∃ r, step s = .refused r) ↔ bad) ∧ ((∃ t, step s = .next t) ↔ ¬ bad)

/-- R59: a window read of a valid table by a core that is not busy returns the entry, and out of the table's range the fixed
answer. That the fixed answers hold whatever the flag and BUSY is the model's reading (DEDUCED, log 13): I3 of 93 says that
they still hold, while R153 names only those of SORTED_RD and FIRST_RD after reset. -/
def Obligations.WindowReads : Prop :=
  ∀ (s : State) (i : Nat), s.tblIndex.toNat = i →
    (s.cmdq = [] → i ≤ 65536 →
        (s.histValid = true → reads s 0x34 (s.count.get i) s)
          ∧ (s.lenValid = true → reads s 0x38 ((s.len.get i).setWidth 32) s)
          ∧ (s.codesValid = true →
              reads s 0x3C ((s.code.get i).extractLsb' 0 32) s ∧ reads s 0x40 ((s.code.get i).extractLsb' 32 32) s))
      ∧ (s.cmdq = [] → s.codesValid = true → i < s.numCoded.toNat → reads s 0x44 ((s.sorted.get i).setWidth 32) s)
      ∧ (s.cmdq = [] → s.codesValid = true → i ≤ 64 → reads s 0x48 (s.first.get i) s)
      ∧ (65536 < i → reads s 0x34 0 s ∧ reads s 0x38 0 s ∧ reads s 0x3C 0 s ∧ reads s 0x40 0 s)
      ∧ (s.numCoded.toNat ≤ i → reads s 0x44 0xFFFFFFFF#32 s)
      ∧ (64 < i → reads s 0x48 0xFFFFFFFF#32 s)

/-- R47, R48, R49, R60, R61: the hardwired registers, the counters and the debug views, all read-only, and the reserved
offsets, which read 0 and ignore writes (R46). -/
def Obligations.RegisterViews : Prop :=
  ∀ s : State,
    reads s 0x00 0x53514431#32 s
      ∧ reads s 0x04
          (BitVec.ofNat 32 (64 + 2 ^ 8 * s.params.cmdqDepth.toNat + 2 ^ 16 * s.params.outqDepth.toNat + 2 ^ 24 * 10)) s
      ∧ reads s 0x08 65537#32 s
      ∧ reads s 0x4C s.histTotal s ∧ reads s 0x50 (s.numCoded.setWidth 32) s ∧ reads s 0x54 (s.maxLen.setWidth 32) s
      ∧ reads s 0x58 (s.totalBits.extractLsb' 0 32) s ∧ reads s 0x5C (s.totalBits.extractLsb' 32 32) s
      ∧ (∀ bytes : BitVec 64, bytes.toNat = (s.totalBits.toNat + 7) / 8 →
          reads s 0x60 (bytes.extractLsb' 0 32) s ∧ reads s 0x64 (bytes.extractLsb' 32 32) s)
      ∧ reads s 0x68 (s.encBits.extractLsb' 0 32) s ∧ reads s 0x6C (s.encBits.extractLsb' 32 32) s
      ∧ reads s 0x70 (s.encBytes.extractLsb' 0 32) s ∧ reads s 0x74 (s.encBytes.extractLsb' 32 32) s
      ∧ reads s 0x78 s.decSyms s
      ∧ reads s 0x7C (s.decBits.extractLsb' 0 32) s ∧ reads s 0x80 (s.decBits.extractLsb' 32 32) s
      ∧ reads s 0x84 (BitVec.ofNat 32 (256 * s.encAcc.toNat + s.encNacc.toNat)) s
      ∧ reads s 0x88 (s.decRl.setWidth 32) s
      ∧ reads s 0x8C (s.decRc.extractLsb' 0 32) s ∧ reads s 0x90 (s.decRc.extractLsb' 32 32) s
      ∧ (∀ offset ∈ [0x00, 0x04, 0x08, 0x4C, 0x50, 0x54, 0x58, 0x5C, 0x60, 0x64, 0x68, 0x6C, 0x70, 0x74, 0x78, 0x7C, 0x80,
            0x84, 0x88, 0x8C, 0x90], ∀ v : Word, writes s offset v s)
      ∧ ∀ offset, 0x94 ≤ offset → offset ≤ 0xFC → offset % 4 = 0 →
          reads s offset 0 s ∧ ∀ v : Word, writes s offset v s

/-- R51, R52, R143: each field of STATUS is the live view that the rule names, IRQ being the OR of the enabled pending
sources, and the error registers read as they are. -/
def Obligations.StatusFields : Prop :=
  ∀ s : State, s.cmdq.length ≤ 255 → s.outq.length ≤ 255 →
    (∃ v : Word, reads s 0x10 v s
        ∧ v.getLsbD 0 = !s.cmdq.isEmpty ∧ v.getLsbD 1 = s.halt ∧ v.getLsbD 2 = s.histValid
        ∧ v.getLsbD 3 = s.lenValid ∧ v.getLsbD 4 = s.codesValid ∧ v.getLsbD 5 = s.encActive
        ∧ (v.extractLsb' 6 2).toNat =
            (match s.decState with | .idle => 0 | .run => 1 | .noMatch => 2 | .done => 3)
        ∧ (v.extractLsb' 8 8).toNat = s.cmdq.length ∧ (v.extractLsb' 16 8).toNat = s.outq.length
        ∧ v.getLsbD 24 =
            ((s.irqEn.getLsbD 0 && s.pErr) || (s.irqEn.getLsbD 1 && s.pIdle) || (s.irqEn.getLsbD 2 && !s.outq.isEmpty)
              || (s.irqEn.getLsbD 3 && s.pEncDone) || (s.irqEn.getLsbD 4 && s.pDecDone))
        ∧ v.extractLsb' 25 7 = 0)
      ∧ reads s 0x14 (s.errCode.setWidth 32) s ∧ reads s 0x18 s.errCmd s ∧ reads s 0x1C s.errArg s

/-! ### Reset (70_reset_and_hazards.md) -/

/-- R153: the values that the spec gives for reset hold in State.reset, and STATUS reads 0. -/
def Obligations.ResetValues : Prop :=
  State.reset.halt = false ∧ State.reset.errCode = 0 ∧ State.reset.errCmd = 0 ∧ State.reset.errArg = 0
    ∧ State.reset.irqEn = 0 ∧ State.reset.pErr = false ∧ State.reset.pIdle = false ∧ State.reset.pEncDone = false
    ∧ State.reset.pDecDone = false ∧ State.reset.tblIndex = 0 ∧ State.reset.histValid = false
    ∧ State.reset.lenValid = false ∧ State.reset.codesValid = false ∧ State.reset.histTotal = 0
    ∧ State.reset.numCoded = 0 ∧ State.reset.maxLen = 0 ∧ State.reset.totalBits = 0
    ∧ State.reset.encActive = false ∧ State.reset.encAcc = 0 ∧ State.reset.encNacc = 0 ∧ State.reset.encBits = 0
    ∧ State.reset.encBytes = 0 ∧ State.reset.decState = .idle ∧ State.reset.decRc = 0 ∧ State.reset.decRl = 0
    ∧ State.reset.decSyms = 0 ∧ State.reset.decBits = 0 ∧ State.reset.cmdq = [] ∧ State.reset.outq = []
    ∧ reads State.reset 0x10 0 State.reset

/-- R50, R152, R153: from any state the reset input and a CTRL write with SOFT_RESET = 1, whatever its other bits, have one
effect: every field but the tables takes its reset value, and the hardwired parameters stand. That the model's own fields
agenda and busData go on is its choice (DESIGN CHOICE, log 18). -/
def Obligations.ResetFromAnywhere : Prop :=
  ∀ s : State, ∃ t : State,
    (∀ rest : List Event, step { s with agenda := .resetInput :: rest } = .next { t with agenda := rest })
      ∧ (∀ v : Word, v.getLsbD 0 = true → writes s 0x0C v t)
      ∧ t = { State.reset with
          params := s.params, count := t.count, len := t.len, code := t.code, sorted := t.sorted, first := t.first
          draws := t.draws, agenda := t.agenda, busData := s.busData }

/-! ### Invariants that every step keeps -/

/-- Every step keeps the canonical form of the five tables (R63; the model's own form, log 2). -/
def Obligations.TablesStayCanonical : Prop :=
  ∀ s t : State, s.tablesWf → step s = .next t → t.tablesWf

/-- R39, R40, R90, R93: with lengths of at most LMAX, every step keeps both FIFOs within their depths. -/
def Obligations.FifosStayBounded : Prop :=
  ∀ s t : State, s.lengthsSound → s.fifosFit → step s = .next t → t.fifosFit

/-- R42, R52, R136, R138, R139: every step keeps the error registers 0 while HALT = 0, and CMDQ empty and ERR_CODE one of
the ten codes while HALT = 1. -/
def Obligations.ErrorRegistersStaySound : Prop :=
  ∀ s t : State, s.errorSound → step s = .next t → t.errorSound

/-- R23, R25, R101: every step keeps a valid histogram a histogram: COUNT[EOS] is 1, HIST_TOTAL is the sum of the sample
counts and at most TOTAL_MAX. -/
def Obligations.HistogramStaysSound : Prop :=
  ∀ s t : State, s.histogramSound → step s = .next t → t.histogramSound

/-- R26, R30, R32: every step keeps valid lengths and MAX_LEN within LMAX, and valid codes with valid lengths. -/
def Obligations.LengthsStaySound : Prop :=
  ∀ s t : State, s.lengthsSound → step s = .next t → t.lengthsSound

/-- R32, R112, R118: every step keeps CODES_VALID true to its meaning: while it is set, CODE, SORTED, FIRST, NUM_CODED and
MAX_LEN are those of the lengths that stand in LEN. -/
def Obligations.CodesStayCanonical : Prop :=
  ∀ s t : State, s.tablesWf → s.codesSound → step s = .next t → t.codesSound

/-- R34: every step keeps the bits of ENC_ACC that are not pending 0. -/
def Obligations.PendingBitsStayJustified : Prop :=
  ∀ s t : State, s.pendingSound → step s = .next t → t.pendingSound

/-- R36, R37, R126: with MAX_LEN at most LMAX, every step keeps the running code at most LMAX bits long, fewer while
walking, and its value below two to its length. -/
def Obligations.RunningCodeStaysBounded : Prop :=
  ∀ s t : State, s.lengthsSound → s.walkSound → step s = .next t → t.walkSound

/-- The invariants hold at reset, in which no table is valid (R153, R154). The parameters are legal (R6) by the model's values
of State.reset, 16 and 16 (DESIGN CHOICE, log 1), and the tables canonical by the model's form (DESIGN CHOICE, log 2). -/
def Obligations.ResetIsSound : Prop := State.reset.sound

/-! ### Whole-machine rules -/

/-- R32: a validity flag is set and cleared only by the commands that the rule names, and by reset. -/
def Obligations.ValidityFlagEvents : Prop :=
  ∀ s t : State, step s = .next t →
    (s.histValid = false → t.histValid = true → nextRuns s .histClear)
      ∧ (s.histValid = true → t.histValid = false → nextIsReset s)
      ∧ (s.lenValid = false → t.lenValid = true → nextRuns s .buildTree ∨ nextRuns s .lenClear)
      ∧ (s.lenValid = true → t.lenValid = false → nextRuns s .buildTree ∨ nextIsReset s)
      ∧ (s.codesValid = false → t.codesValid = true → nextRuns s .buildCodes)
      ∧ (s.codesValid = true → t.codesValid = false →
          nextRuns s .buildTree ∨ nextRuns s .lenClear ∨ (∃ sym l, nextRuns s (.lenWrite sym l))
            ∨ nextRuns s .buildCodes ∨ nextIsReset s)

/-- R23, R26, R27, R28, R29, R30, R31: each table and its scalars are written only by the commands that their rules name,
and by reset; COUNT[EOS] only by HIST_CLEAR and reset. -/
def Obligations.TableWriters : Prop :=
  ∀ s t : State, step s = .next t →
    (t.count ≠ s.count ∨ t.histTotal ≠ s.histTotal →
        nextRuns s .histClear ∨ (∃ m v, nextRuns s (.histSample m v)) ∨ nextIsReset s)
      ∧ (t.count.get 65536 ≠ s.count.get 65536 → nextRuns s .histClear ∨ nextIsReset s)
      ∧ (t.len ≠ s.len →
          nextRuns s .buildTree ∨ nextRuns s .lenClear ∨ (∃ sym l, nextRuns s (.lenWrite sym l)) ∨ nextIsReset s)
      ∧ (t.code ≠ s.code ∨ t.sorted ≠ s.sorted ∨ t.first ≠ s.first ∨ t.numCoded ≠ s.numCoded ∨ t.maxLen ≠ s.maxLen
            ∨ t.totalBits ≠ s.totalBits →
          nextRuns s .buildCodes ∨ nextIsReset s)

/-- R33, R35, R36, R48, R54, R58, R94: the encoder's state changes only by the encoder's commands and reset, the decoder's
only by the decoder's and reset, IRQ_EN and TBL_INDEX only by their writes and reset, and the parameters never. -/
def Obligations.UnitsAreSeparate : Prop :=
  ∀ s t : State, step s = .next t →
    t.params = s.params
      ∧ (t.encActive ≠ s.encActive ∨ t.encAcc ≠ s.encAcc ∨ t.encNacc ≠ s.encNacc ∨ t.encBits ≠ s.encBits
            ∨ t.encBytes ≠ s.encBytes →
          nextRuns s .encStart ∨ (∃ m v, nextRuns s (.encSample m v)) ∨ nextRuns s .encFinish ∨ nextIsReset s)
      ∧ (t.decState ≠ s.decState ∨ t.decRc ≠ s.decRc ∨ t.decRl ≠ s.decRl ∨ t.decSyms ≠ s.decSyms
            ∨ t.decBits ≠ s.decBits →
          nextRuns s .decStart ∨ (∃ b, nextRuns s (.decByte b)) ∨ nextRuns s .decEnd ∨ nextIsReset s)
      ∧ (t.irqEn ≠ s.irqEn → (∃ v, nextIsWrite s 0x20 v) ∨ nextIsReset s)
      ∧ (t.tblIndex ≠ s.tblIndex → (∃ v, nextIsWrite s 0x30 v) ∨ nextIsReset s)

/-- R138, R139, R142: each sticky pending bit is set only by its event and cleared only by writing 1 to it or by reset;
HALT is set only with an error recorded and left only by ERR_CLEAR or reset. -/
def Obligations.StickyBitsAndHalt : Prop :=
  ∀ s t : State, step s = .next t →
    (s.pErr = false → t.pErr = true → s.halt = false ∧ t.halt = true)
      ∧ (s.pErr = true → t.pErr = false → (∃ v, nextIsWrite s 0x24 v ∧ v.getLsbD 0 = true) ∨ nextIsReset s)
      ∧ (s.pIdle = false → t.pIdle = true → (∃ i, nextRuns s i) ∧ t.cmdq = [] ∧ t.halt = false)
      ∧ (s.pIdle = true → t.pIdle = false → (∃ v, nextIsWrite s 0x24 v ∧ v.getLsbD 1 = true) ∨ nextIsReset s)
      ∧ (s.pEncDone = false → t.pEncDone = true → nextRuns s .encFinish)
      ∧ (s.pEncDone = true → t.pEncDone = false → (∃ v, nextIsWrite s 0x24 v ∧ v.getLsbD 3 = true) ∨ nextIsReset s)
      ∧ (s.pDecDone = false → t.pDecDone = true → ∃ b, nextRuns s (.decByte b))
      ∧ (s.pDecDone = true → t.pDecDone = false → (∃ v, nextIsWrite s 0x24 v ∧ v.getLsbD 4 = true) ∨ nextIsReset s)
      ∧ (s.halt = false → t.halt = true → t.pErr = true ∧ 1 ≤ t.errCode.toNat ∧ t.errCode.toNat ≤ 10 ∧ t.cmdq = [])
      ∧ (s.halt = true → t.halt = false → (∃ v, nextIsWrite s 0x0C v ∧ v.getLsbD 1 = true) ∨ nextIsReset s)

/-- R40, R57, R74: the words of OUTQ keep their order: a command only appends, a read of OUT removes the head, and
OUT_FLUSH and reset empty it. -/
def Obligations.OutputKeepsOrder : Prop :=
  ∀ s t : State, step s = .next t →
    t.outq = s.outq
      ∨ (∃ i words, nextRuns s i ∧ i.mayPush = true ∧ t.outq = s.outq ++ words)
      ∨ (∃ rest, s.agenda = .read (s.params.base + 0x2C) 4 :: rest ∧ t.outq = s.outq.tail)
      ∨ (t.outq = [] ∧ (nextIsReset s ∨ ∃ v, nextIsWrite s 0x0C v ∧ v.getLsbD 2 = true))

/-- R32, R134, R154: no command reads a table whose flag is 0: states that differ only in such contents stay so. -/
def Obligations.NoCommandReadsInvalidTable : Prop :=
  ∀ (i : Instr) (s s' t t' : State),
    agree s s' → s.tablesWf → s'.tablesWf → (s.codesValid = true → s.lenValid = true) →
      exec i s = .next t → exec i s' = .next t' → agree t t'

/-- R90: with lengths of at most LMAX, ENC_SAMPLE pushes at most 8 words, ENC_FINISH at most 10, DEC_BYTE at most 8, and
every other command none. -/
def Obligations.PushBound : Prop :=
  ∀ (i : Instr) (s t : State),
    (∀ sym : Nat, (s.len.get sym).toNat ≤ 64) → exec i s = .next t →
      ∃ words, t.outq = s.outq ++ words
        ∧ words.length ≤
          (match i with | .encSample _ _ => 8 | .encFinish => 10 | .decByte _ => 8 | _ => 0)
end

