-- ==== Sys2Proof/Laws/PerInstr.lean ====
section
/-! SUPPORT. A statement made per command about its syntax: the word it encodes to. -/

namespace Sys2Proof.Laws.EncodedForm

/-- The word of a command has the command's opcode in its opcode field (R81, R85), and is a command word, so that its
reserved bits are 0 (R82). -/
def Statement (i : Instr) : Prop :=
  opcodeField (encode i) = i.opcode ∧ wellFormedWord (encode i) = true

/-- The opcode field of a word of format N is its opcode. -/
theorem opcodeField_encodeNone (op : BitVec 6) : opcodeField (encodeNone op) = op := by
  revert op
  decide

/-- The opcode field of a word of format S is its opcode. -/
theorem opcodeField_encodeSample (op : BitVec 6) (m : Bool) (v : BitVec 25) : opcodeField (encodeSample op m v) = op := by
  apply BitVec.eq_of_getLsbD_eq
  intro i hi
  simp only [opcodeField, encodeSample, BitVec.getLsbD_extractLsb', BitVec.getLsbD_append]
  have h1 : ¬ 26 + i < 25 := by omega
  have h2 : ¬ 26 + i - 25 < 1 := by omega
  have h3 : 26 + i - 25 - 1 = i := by omega
  simp [h1, h2, h3, hi]

/-- The opcode field of a word of format L is its opcode. -/
theorem opcodeField_encodeLength (op : BitVec 6) (sym : BitVec 17) (l : BitVec 7) :
    opcodeField (encodeLength op sym l) = op := by
  apply BitVec.eq_of_getLsbD_eq
  intro i hi
  simp only [opcodeField, encodeLength, BitVec.getLsbD_extractLsb', BitVec.getLsbD_append]
  have h1 : ¬ 26 + i < 7 := by omega
  have h2 : ¬ 26 + i - 7 < 17 := by omega
  have h3 : ¬ 26 + i - 7 - 17 < 2 := by omega
  have h4 : 26 + i - 7 - 17 - 2 = i := by omega
  simp [h1, h2, h3, h4, hi]

/-- The opcode field of a word of format B is its opcode. -/
theorem opcodeField_encodeByte (op : BitVec 6) (b : Byte) : opcodeField (encodeByte op b) = op := by
  apply BitVec.eq_of_getLsbD_eq
  intro i hi
  simp only [opcodeField, encodeByte, BitVec.getLsbD_extractLsb', BitVec.getLsbD_append]
  have h1 : ¬ 26 + i < 8 := by omega
  have h2 : ¬ 26 + i - 8 < 18 := by omega
  have h3 : 26 + i - 8 - 18 = i := by omega
  simp [h1, h2, h3, hi]

/-- The reserved bits of a word of format L are 0. -/
theorem reservedZero_encodeLength (op : BitVec 6) (sym : BitVec 17) (l : BitVec 7) :
    reservedZero .length (encodeLength op sym l) = true := by
  simp only [reservedZero, beq_iff_eq]
  apply BitVec.eq_of_getLsbD_eq
  intro i hi
  simp only [encodeLength, BitVec.getLsbD_extractLsb', BitVec.getLsbD_append]
  have h1 : ¬ 24 + i < 7 := by omega
  have h2 : ¬ 24 + i - 7 < 17 := by omega
  have h3 : 24 + i - 7 - 17 < 2 := by omega
  simp [h1, h2, h3]

/-- The reserved bits of a word of format B are 0. -/
theorem reservedZero_encodeByte (op : BitVec 6) (b : Byte) : reservedZero .byte (encodeByte op b) = true := by
  simp only [reservedZero, beq_iff_eq]
  apply BitVec.eq_of_getLsbD_eq
  intro i hi
  simp only [encodeByte, BitVec.getLsbD_extractLsb', BitVec.getLsbD_append]
  simp
  intro _ h2
  omega

theorem nop : Statement .nop := by unfold Statement; decide

theorem histClear : Statement .histClear := by unfold Statement; decide

theorem histSample (m : Bool) (v : BitVec 25) : Statement (.histSample m v) := by
  have h := opcodeField_encodeSample 0x02 m v
  exact ⟨h, by simp only [wellFormedWord, encode, h]; rfl⟩

theorem buildTree : Statement .buildTree := by unfold Statement; decide

theorem lenClear : Statement .lenClear := by unfold Statement; decide

theorem lenWrite (sym : BitVec 17) (l : BitVec 7) : Statement (.lenWrite sym l) := by
  have h := opcodeField_encodeLength 0x05 sym l
  exact ⟨h, by simp only [wellFormedWord, encode, h]; exact reservedZero_encodeLength 0x05 sym l⟩

theorem buildCodes : Statement .buildCodes := by unfold Statement; decide

theorem encStart : Statement .encStart := by unfold Statement; decide

theorem encSample (m : Bool) (v : BitVec 25) : Statement (.encSample m v) := by
  have h := opcodeField_encodeSample 0x08 m v
  exact ⟨h, by simp only [wellFormedWord, encode, h]; rfl⟩

theorem encFinish : Statement .encFinish := by unfold Statement; decide

theorem decStart : Statement .decStart := by unfold Statement; decide

theorem decByte (b : Byte) : Statement (.decByte b) := by
  have h := opcodeField_encodeByte 0x0B b
  exact ⟨h, by simp only [wellFormedWord, encode, h]; exact reservedZero_encodeByte 0x0B b⟩

theorem decEnd : Statement .decEnd := by unfold Statement; decide

end Sys2Proof.Laws.EncodedForm
end

