-- ==== Sys2Proof/Laws/State.lean ====
section
/-! SUPPORT. What each shared operation does to each field of the state: one lemma per field, true by rfl. -/

namespace Sys2Proof.Machine

/-! ### A command's retirement (R95) -/

@[simp] theorem State.retire_params (s : State) : s.retire.params = s.params := rfl
@[simp] theorem State.retire_count (s : State) : s.retire.count = s.count := rfl
@[simp] theorem State.retire_histTotal (s : State) : s.retire.histTotal = s.histTotal := rfl
@[simp] theorem State.retire_len (s : State) : s.retire.len = s.len := rfl
@[simp] theorem State.retire_code (s : State) : s.retire.code = s.code := rfl
@[simp] theorem State.retire_sorted (s : State) : s.retire.sorted = s.sorted := rfl
@[simp] theorem State.retire_first (s : State) : s.retire.first = s.first := rfl
@[simp] theorem State.retire_numCoded (s : State) : s.retire.numCoded = s.numCoded := rfl
@[simp] theorem State.retire_maxLen (s : State) : s.retire.maxLen = s.maxLen := rfl
@[simp] theorem State.retire_totalBits (s : State) : s.retire.totalBits = s.totalBits := rfl
@[simp] theorem State.retire_histValid (s : State) : s.retire.histValid = s.histValid := rfl
@[simp] theorem State.retire_lenValid (s : State) : s.retire.lenValid = s.lenValid := rfl
@[simp] theorem State.retire_codesValid (s : State) : s.retire.codesValid = s.codesValid := rfl
@[simp] theorem State.retire_encActive (s : State) : s.retire.encActive = s.encActive := rfl
@[simp] theorem State.retire_encAcc (s : State) : s.retire.encAcc = s.encAcc := rfl
@[simp] theorem State.retire_encNacc (s : State) : s.retire.encNacc = s.encNacc := rfl
@[simp] theorem State.retire_encBits (s : State) : s.retire.encBits = s.encBits := rfl
@[simp] theorem State.retire_encBytes (s : State) : s.retire.encBytes = s.encBytes := rfl
@[simp] theorem State.retire_decState (s : State) : s.retire.decState = s.decState := rfl
@[simp] theorem State.retire_decRc (s : State) : s.retire.decRc = s.decRc := rfl
@[simp] theorem State.retire_decRl (s : State) : s.retire.decRl = s.decRl := rfl
@[simp] theorem State.retire_decSyms (s : State) : s.retire.decSyms = s.decSyms := rfl
@[simp] theorem State.retire_decBits (s : State) : s.retire.decBits = s.decBits := rfl
@[simp] theorem State.retire_cmdq (s : State) : s.retire.cmdq = s.cmdq.tail := rfl
@[simp] theorem State.retire_outq (s : State) : s.retire.outq = s.outq := rfl
@[simp] theorem State.retire_halt (s : State) : s.retire.halt = s.halt := rfl
@[simp] theorem State.retire_errCode (s : State) : s.retire.errCode = s.errCode := rfl
@[simp] theorem State.retire_errCmd (s : State) : s.retire.errCmd = s.errCmd := rfl
@[simp] theorem State.retire_errArg (s : State) : s.retire.errArg = s.errArg := rfl
@[simp] theorem State.retire_irqEn (s : State) : s.retire.irqEn = s.irqEn := rfl
@[simp] theorem State.retire_pErr (s : State) : s.retire.pErr = s.pErr := rfl
@[simp] theorem State.retire_pIdle (s : State) : s.retire.pIdle = (s.pIdle || s.cmdq.tail.isEmpty) := rfl
@[simp] theorem State.retire_pEncDone (s : State) : s.retire.pEncDone = s.pEncDone := rfl
@[simp] theorem State.retire_pDecDone (s : State) : s.retire.pDecDone = s.pDecDone := rfl
@[simp] theorem State.retire_tblIndex (s : State) : s.retire.tblIndex = s.tblIndex := rfl
@[simp] theorem State.retire_draws (s : State) : s.retire.draws = s.draws := rfl
@[simp] theorem State.retire_agenda (s : State) : s.retire.agenda = s.agenda := rfl
@[simp] theorem State.retire_busData (s : State) : s.retire.busData = s.busData := rfl

/-! ### Error entry (R136) -/

@[simp] theorem State.recordError_params (s : State) (k : ErrKind) (w arg : Word) : (s.recordError k w arg).params = s.params := rfl
@[simp] theorem State.recordError_count (s : State) (k : ErrKind) (w arg : Word) : (s.recordError k w arg).count = s.count := rfl
@[simp] theorem State.recordError_histTotal (s : State) (k : ErrKind) (w arg : Word) : (s.recordError k w arg).histTotal = s.histTotal := rfl
@[simp] theorem State.recordError_len (s : State) (k : ErrKind) (w arg : Word) : (s.recordError k w arg).len = s.len := rfl
@[simp] theorem State.recordError_code (s : State) (k : ErrKind) (w arg : Word) : (s.recordError k w arg).code = s.code := rfl
@[simp] theorem State.recordError_sorted (s : State) (k : ErrKind) (w arg : Word) : (s.recordError k w arg).sorted = s.sorted := rfl
@[simp] theorem State.recordError_first (s : State) (k : ErrKind) (w arg : Word) : (s.recordError k w arg).first = s.first := rfl
@[simp] theorem State.recordError_numCoded (s : State) (k : ErrKind) (w arg : Word) : (s.recordError k w arg).numCoded = s.numCoded := rfl
@[simp] theorem State.recordError_maxLen (s : State) (k : ErrKind) (w arg : Word) : (s.recordError k w arg).maxLen = s.maxLen := rfl
@[simp] theorem State.recordError_totalBits (s : State) (k : ErrKind) (w arg : Word) : (s.recordError k w arg).totalBits = s.totalBits := rfl
@[simp] theorem State.recordError_histValid (s : State) (k : ErrKind) (w arg : Word) : (s.recordError k w arg).histValid = s.histValid := rfl
@[simp] theorem State.recordError_lenValid (s : State) (k : ErrKind) (w arg : Word) : (s.recordError k w arg).lenValid = s.lenValid := rfl
@[simp] theorem State.recordError_codesValid (s : State) (k : ErrKind) (w arg : Word) : (s.recordError k w arg).codesValid = s.codesValid := rfl
@[simp] theorem State.recordError_encActive (s : State) (k : ErrKind) (w arg : Word) : (s.recordError k w arg).encActive = s.encActive := rfl
@[simp] theorem State.recordError_encAcc (s : State) (k : ErrKind) (w arg : Word) : (s.recordError k w arg).encAcc = s.encAcc := rfl
@[simp] theorem State.recordError_encNacc (s : State) (k : ErrKind) (w arg : Word) : (s.recordError k w arg).encNacc = s.encNacc := rfl
@[simp] theorem State.recordError_encBits (s : State) (k : ErrKind) (w arg : Word) : (s.recordError k w arg).encBits = s.encBits := rfl
@[simp] theorem State.recordError_encBytes (s : State) (k : ErrKind) (w arg : Word) : (s.recordError k w arg).encBytes = s.encBytes := rfl
@[simp] theorem State.recordError_decState (s : State) (k : ErrKind) (w arg : Word) : (s.recordError k w arg).decState = s.decState := rfl
@[simp] theorem State.recordError_decRc (s : State) (k : ErrKind) (w arg : Word) : (s.recordError k w arg).decRc = s.decRc := rfl
@[simp] theorem State.recordError_decRl (s : State) (k : ErrKind) (w arg : Word) : (s.recordError k w arg).decRl = s.decRl := rfl
@[simp] theorem State.recordError_decSyms (s : State) (k : ErrKind) (w arg : Word) : (s.recordError k w arg).decSyms = s.decSyms := rfl
@[simp] theorem State.recordError_decBits (s : State) (k : ErrKind) (w arg : Word) : (s.recordError k w arg).decBits = s.decBits := rfl
@[simp] theorem State.recordError_cmdq (s : State) (k : ErrKind) (w arg : Word) : (s.recordError k w arg).cmdq = [] := rfl
@[simp] theorem State.recordError_outq (s : State) (k : ErrKind) (w arg : Word) : (s.recordError k w arg).outq = s.outq := rfl
@[simp] theorem State.recordError_halt (s : State) (k : ErrKind) (w arg : Word) : (s.recordError k w arg).halt = true := rfl
@[simp] theorem State.recordError_errCode (s : State) (k : ErrKind) (w arg : Word) : (s.recordError k w arg).errCode = k.code := rfl
@[simp] theorem State.recordError_errCmd (s : State) (k : ErrKind) (w arg : Word) : (s.recordError k w arg).errCmd = w := rfl
@[simp] theorem State.recordError_errArg (s : State) (k : ErrKind) (w arg : Word) : (s.recordError k w arg).errArg = arg := rfl
@[simp] theorem State.recordError_irqEn (s : State) (k : ErrKind) (w arg : Word) : (s.recordError k w arg).irqEn = s.irqEn := rfl
@[simp] theorem State.recordError_pErr (s : State) (k : ErrKind) (w arg : Word) : (s.recordError k w arg).pErr = true := rfl
@[simp] theorem State.recordError_pIdle (s : State) (k : ErrKind) (w arg : Word) : (s.recordError k w arg).pIdle = s.pIdle := rfl
@[simp] theorem State.recordError_pEncDone (s : State) (k : ErrKind) (w arg : Word) : (s.recordError k w arg).pEncDone = s.pEncDone := rfl
@[simp] theorem State.recordError_pDecDone (s : State) (k : ErrKind) (w arg : Word) : (s.recordError k w arg).pDecDone = s.pDecDone := rfl
@[simp] theorem State.recordError_tblIndex (s : State) (k : ErrKind) (w arg : Word) : (s.recordError k w arg).tblIndex = s.tblIndex := rfl
@[simp] theorem State.recordError_draws (s : State) (k : ErrKind) (w arg : Word) : (s.recordError k w arg).draws = s.draws := rfl
@[simp] theorem State.recordError_agenda (s : State) (k : ErrKind) (w arg : Word) : (s.recordError k w arg).agenda = s.agenda := rfl
@[simp] theorem State.recordError_busData (s : State) (k : ErrKind) (w arg : Word) : (s.recordError k w arg).busData = s.busData := rfl

/-! ### Error entry of the head command (R136) -/

@[simp] theorem State.raiseError_params (s : State) (k : ErrKind) (arg : Word) : (s.raiseError k arg).params = s.params := rfl
@[simp] theorem State.raiseError_count (s : State) (k : ErrKind) (arg : Word) : (s.raiseError k arg).count = s.count := rfl
@[simp] theorem State.raiseError_histTotal (s : State) (k : ErrKind) (arg : Word) : (s.raiseError k arg).histTotal = s.histTotal := rfl
@[simp] theorem State.raiseError_len (s : State) (k : ErrKind) (arg : Word) : (s.raiseError k arg).len = s.len := rfl
@[simp] theorem State.raiseError_code (s : State) (k : ErrKind) (arg : Word) : (s.raiseError k arg).code = s.code := rfl
@[simp] theorem State.raiseError_sorted (s : State) (k : ErrKind) (arg : Word) : (s.raiseError k arg).sorted = s.sorted := rfl
@[simp] theorem State.raiseError_first (s : State) (k : ErrKind) (arg : Word) : (s.raiseError k arg).first = s.first := rfl
@[simp] theorem State.raiseError_numCoded (s : State) (k : ErrKind) (arg : Word) : (s.raiseError k arg).numCoded = s.numCoded := rfl
@[simp] theorem State.raiseError_maxLen (s : State) (k : ErrKind) (arg : Word) : (s.raiseError k arg).maxLen = s.maxLen := rfl
@[simp] theorem State.raiseError_totalBits (s : State) (k : ErrKind) (arg : Word) : (s.raiseError k arg).totalBits = s.totalBits := rfl
@[simp] theorem State.raiseError_histValid (s : State) (k : ErrKind) (arg : Word) : (s.raiseError k arg).histValid = s.histValid := rfl
@[simp] theorem State.raiseError_lenValid (s : State) (k : ErrKind) (arg : Word) : (s.raiseError k arg).lenValid = s.lenValid := rfl
@[simp] theorem State.raiseError_codesValid (s : State) (k : ErrKind) (arg : Word) : (s.raiseError k arg).codesValid = s.codesValid := rfl
@[simp] theorem State.raiseError_encActive (s : State) (k : ErrKind) (arg : Word) : (s.raiseError k arg).encActive = s.encActive := rfl
@[simp] theorem State.raiseError_encAcc (s : State) (k : ErrKind) (arg : Word) : (s.raiseError k arg).encAcc = s.encAcc := rfl
@[simp] theorem State.raiseError_encNacc (s : State) (k : ErrKind) (arg : Word) : (s.raiseError k arg).encNacc = s.encNacc := rfl
@[simp] theorem State.raiseError_encBits (s : State) (k : ErrKind) (arg : Word) : (s.raiseError k arg).encBits = s.encBits := rfl
@[simp] theorem State.raiseError_encBytes (s : State) (k : ErrKind) (arg : Word) : (s.raiseError k arg).encBytes = s.encBytes := rfl
@[simp] theorem State.raiseError_decState (s : State) (k : ErrKind) (arg : Word) : (s.raiseError k arg).decState = s.decState := rfl
@[simp] theorem State.raiseError_decRc (s : State) (k : ErrKind) (arg : Word) : (s.raiseError k arg).decRc = s.decRc := rfl
@[simp] theorem State.raiseError_decRl (s : State) (k : ErrKind) (arg : Word) : (s.raiseError k arg).decRl = s.decRl := rfl
@[simp] theorem State.raiseError_decSyms (s : State) (k : ErrKind) (arg : Word) : (s.raiseError k arg).decSyms = s.decSyms := rfl
@[simp] theorem State.raiseError_decBits (s : State) (k : ErrKind) (arg : Word) : (s.raiseError k arg).decBits = s.decBits := rfl
@[simp] theorem State.raiseError_cmdq (s : State) (k : ErrKind) (arg : Word) : (s.raiseError k arg).cmdq = [] := rfl
@[simp] theorem State.raiseError_outq (s : State) (k : ErrKind) (arg : Word) : (s.raiseError k arg).outq = s.outq := rfl
@[simp] theorem State.raiseError_halt (s : State) (k : ErrKind) (arg : Word) : (s.raiseError k arg).halt = true := rfl
@[simp] theorem State.raiseError_errCode (s : State) (k : ErrKind) (arg : Word) : (s.raiseError k arg).errCode = k.code := rfl
@[simp] theorem State.raiseError_errCmd (s : State) (k : ErrKind) (arg : Word) : (s.raiseError k arg).errCmd = s.headWord := rfl
@[simp] theorem State.raiseError_errArg (s : State) (k : ErrKind) (arg : Word) : (s.raiseError k arg).errArg = arg := rfl
@[simp] theorem State.raiseError_irqEn (s : State) (k : ErrKind) (arg : Word) : (s.raiseError k arg).irqEn = s.irqEn := rfl
@[simp] theorem State.raiseError_pErr (s : State) (k : ErrKind) (arg : Word) : (s.raiseError k arg).pErr = true := rfl
@[simp] theorem State.raiseError_pIdle (s : State) (k : ErrKind) (arg : Word) : (s.raiseError k arg).pIdle = s.pIdle := rfl
@[simp] theorem State.raiseError_pEncDone (s : State) (k : ErrKind) (arg : Word) : (s.raiseError k arg).pEncDone = s.pEncDone := rfl
@[simp] theorem State.raiseError_pDecDone (s : State) (k : ErrKind) (arg : Word) : (s.raiseError k arg).pDecDone = s.pDecDone := rfl
@[simp] theorem State.raiseError_tblIndex (s : State) (k : ErrKind) (arg : Word) : (s.raiseError k arg).tblIndex = s.tblIndex := rfl
@[simp] theorem State.raiseError_draws (s : State) (k : ErrKind) (arg : Word) : (s.raiseError k arg).draws = s.draws := rfl
@[simp] theorem State.raiseError_agenda (s : State) (k : ErrKind) (arg : Word) : (s.raiseError k arg).agenda = s.agenda := rfl
@[simp] theorem State.raiseError_busData (s : State) (k : ErrKind) (arg : Word) : (s.raiseError k arg).busData = s.busData := rfl

/-! ### Pushing an output word (R10) -/

@[simp] theorem State.pushOut_params (s : State) (w : Word) : (s.pushOut w).params = s.params := rfl
@[simp] theorem State.pushOut_count (s : State) (w : Word) : (s.pushOut w).count = s.count := rfl
@[simp] theorem State.pushOut_histTotal (s : State) (w : Word) : (s.pushOut w).histTotal = s.histTotal := rfl
@[simp] theorem State.pushOut_len (s : State) (w : Word) : (s.pushOut w).len = s.len := rfl
@[simp] theorem State.pushOut_code (s : State) (w : Word) : (s.pushOut w).code = s.code := rfl
@[simp] theorem State.pushOut_sorted (s : State) (w : Word) : (s.pushOut w).sorted = s.sorted := rfl
@[simp] theorem State.pushOut_first (s : State) (w : Word) : (s.pushOut w).first = s.first := rfl
@[simp] theorem State.pushOut_numCoded (s : State) (w : Word) : (s.pushOut w).numCoded = s.numCoded := rfl
@[simp] theorem State.pushOut_maxLen (s : State) (w : Word) : (s.pushOut w).maxLen = s.maxLen := rfl
@[simp] theorem State.pushOut_totalBits (s : State) (w : Word) : (s.pushOut w).totalBits = s.totalBits := rfl
@[simp] theorem State.pushOut_histValid (s : State) (w : Word) : (s.pushOut w).histValid = s.histValid := rfl
@[simp] theorem State.pushOut_lenValid (s : State) (w : Word) : (s.pushOut w).lenValid = s.lenValid := rfl
@[simp] theorem State.pushOut_codesValid (s : State) (w : Word) : (s.pushOut w).codesValid = s.codesValid := rfl
@[simp] theorem State.pushOut_encActive (s : State) (w : Word) : (s.pushOut w).encActive = s.encActive := rfl
@[simp] theorem State.pushOut_encAcc (s : State) (w : Word) : (s.pushOut w).encAcc = s.encAcc := rfl
@[simp] theorem State.pushOut_encNacc (s : State) (w : Word) : (s.pushOut w).encNacc = s.encNacc := rfl
@[simp] theorem State.pushOut_encBits (s : State) (w : Word) : (s.pushOut w).encBits = s.encBits := rfl
@[simp] theorem State.pushOut_encBytes (s : State) (w : Word) : (s.pushOut w).encBytes = s.encBytes := rfl
@[simp] theorem State.pushOut_decState (s : State) (w : Word) : (s.pushOut w).decState = s.decState := rfl
@[simp] theorem State.pushOut_decRc (s : State) (w : Word) : (s.pushOut w).decRc = s.decRc := rfl
@[simp] theorem State.pushOut_decRl (s : State) (w : Word) : (s.pushOut w).decRl = s.decRl := rfl
@[simp] theorem State.pushOut_decSyms (s : State) (w : Word) : (s.pushOut w).decSyms = s.decSyms := rfl
@[simp] theorem State.pushOut_decBits (s : State) (w : Word) : (s.pushOut w).decBits = s.decBits := rfl
@[simp] theorem State.pushOut_cmdq (s : State) (w : Word) : (s.pushOut w).cmdq = s.cmdq := rfl
@[simp] theorem State.pushOut_outq (s : State) (w : Word) : (s.pushOut w).outq = s.outq ++ [w] := rfl
@[simp] theorem State.pushOut_halt (s : State) (w : Word) : (s.pushOut w).halt = s.halt := rfl
@[simp] theorem State.pushOut_errCode (s : State) (w : Word) : (s.pushOut w).errCode = s.errCode := rfl
@[simp] theorem State.pushOut_errCmd (s : State) (w : Word) : (s.pushOut w).errCmd = s.errCmd := rfl
@[simp] theorem State.pushOut_errArg (s : State) (w : Word) : (s.pushOut w).errArg = s.errArg := rfl
@[simp] theorem State.pushOut_irqEn (s : State) (w : Word) : (s.pushOut w).irqEn = s.irqEn := rfl
@[simp] theorem State.pushOut_pErr (s : State) (w : Word) : (s.pushOut w).pErr = s.pErr := rfl
@[simp] theorem State.pushOut_pIdle (s : State) (w : Word) : (s.pushOut w).pIdle = s.pIdle := rfl
@[simp] theorem State.pushOut_pEncDone (s : State) (w : Word) : (s.pushOut w).pEncDone = s.pEncDone := rfl
@[simp] theorem State.pushOut_pDecDone (s : State) (w : Word) : (s.pushOut w).pDecDone = s.pDecDone := rfl
@[simp] theorem State.pushOut_tblIndex (s : State) (w : Word) : (s.pushOut w).tblIndex = s.tblIndex := rfl
@[simp] theorem State.pushOut_draws (s : State) (w : Word) : (s.pushOut w).draws = s.draws := rfl
@[simp] theorem State.pushOut_agenda (s : State) (w : Word) : (s.pushOut w).agenda = s.agenda := rfl
@[simp] theorem State.pushOut_busData (s : State) (w : Word) : (s.pushOut w).busData = s.busData := rfl

/-! ### Emptying OUTQ (R50) -/

@[simp] theorem State.flushOut_params (s : State) : s.flushOut.params = s.params := rfl
@[simp] theorem State.flushOut_count (s : State) : s.flushOut.count = s.count := rfl
@[simp] theorem State.flushOut_histTotal (s : State) : s.flushOut.histTotal = s.histTotal := rfl
@[simp] theorem State.flushOut_len (s : State) : s.flushOut.len = s.len := rfl
@[simp] theorem State.flushOut_code (s : State) : s.flushOut.code = s.code := rfl
@[simp] theorem State.flushOut_sorted (s : State) : s.flushOut.sorted = s.sorted := rfl
@[simp] theorem State.flushOut_first (s : State) : s.flushOut.first = s.first := rfl
@[simp] theorem State.flushOut_numCoded (s : State) : s.flushOut.numCoded = s.numCoded := rfl
@[simp] theorem State.flushOut_maxLen (s : State) : s.flushOut.maxLen = s.maxLen := rfl
@[simp] theorem State.flushOut_totalBits (s : State) : s.flushOut.totalBits = s.totalBits := rfl
@[simp] theorem State.flushOut_histValid (s : State) : s.flushOut.histValid = s.histValid := rfl
@[simp] theorem State.flushOut_lenValid (s : State) : s.flushOut.lenValid = s.lenValid := rfl
@[simp] theorem State.flushOut_codesValid (s : State) : s.flushOut.codesValid = s.codesValid := rfl
@[simp] theorem State.flushOut_encActive (s : State) : s.flushOut.encActive = s.encActive := rfl
@[simp] theorem State.flushOut_encAcc (s : State) : s.flushOut.encAcc = s.encAcc := rfl
@[simp] theorem State.flushOut_encNacc (s : State) : s.flushOut.encNacc = s.encNacc := rfl
@[simp] theorem State.flushOut_encBits (s : State) : s.flushOut.encBits = s.encBits := rfl
@[simp] theorem State.flushOut_encBytes (s : State) : s.flushOut.encBytes = s.encBytes := rfl
@[simp] theorem State.flushOut_decState (s : State) : s.flushOut.decState = s.decState := rfl
@[simp] theorem State.flushOut_decRc (s : State) : s.flushOut.decRc = s.decRc := rfl
@[simp] theorem State.flushOut_decRl (s : State) : s.flushOut.decRl = s.decRl := rfl
@[simp] theorem State.flushOut_decSyms (s : State) : s.flushOut.decSyms = s.decSyms := rfl
@[simp] theorem State.flushOut_decBits (s : State) : s.flushOut.decBits = s.decBits := rfl
@[simp] theorem State.flushOut_cmdq (s : State) : s.flushOut.cmdq = s.cmdq := rfl
@[simp] theorem State.flushOut_outq (s : State) : s.flushOut.outq = [] := rfl
@[simp] theorem State.flushOut_halt (s : State) : s.flushOut.halt = s.halt := rfl
@[simp] theorem State.flushOut_errCode (s : State) : s.flushOut.errCode = s.errCode := rfl
@[simp] theorem State.flushOut_errCmd (s : State) : s.flushOut.errCmd = s.errCmd := rfl
@[simp] theorem State.flushOut_errArg (s : State) : s.flushOut.errArg = s.errArg := rfl
@[simp] theorem State.flushOut_irqEn (s : State) : s.flushOut.irqEn = s.irqEn := rfl
@[simp] theorem State.flushOut_pErr (s : State) : s.flushOut.pErr = s.pErr := rfl
@[simp] theorem State.flushOut_pIdle (s : State) : s.flushOut.pIdle = s.pIdle := rfl
@[simp] theorem State.flushOut_pEncDone (s : State) : s.flushOut.pEncDone = s.pEncDone := rfl
@[simp] theorem State.flushOut_pDecDone (s : State) : s.flushOut.pDecDone = s.pDecDone := rfl
@[simp] theorem State.flushOut_tblIndex (s : State) : s.flushOut.tblIndex = s.tblIndex := rfl
@[simp] theorem State.flushOut_draws (s : State) : s.flushOut.draws = s.draws := rfl
@[simp] theorem State.flushOut_agenda (s : State) : s.flushOut.agenda = s.agenda := rfl
@[simp] theorem State.flushOut_busData (s : State) : s.flushOut.busData = s.busData := rfl

/-! ### The reset in any state (R153) -/

@[simp] theorem State.resetAll_params (s : State) : s.resetAll.params = s.params := rfl
@[simp] theorem State.resetAll_count (s : State) : s.resetAll.count = .unspecified 65537 32 s.draws := rfl
@[simp] theorem State.resetAll_histTotal (s : State) : s.resetAll.histTotal = 0 := rfl
@[simp] theorem State.resetAll_len (s : State) : s.resetAll.len = .unspecified 65537 7 (s.draws + 1) := rfl
@[simp] theorem State.resetAll_code (s : State) : s.resetAll.code = .unspecified 65537 64 (s.draws + 2) := rfl
@[simp] theorem State.resetAll_sorted (s : State) : s.resetAll.sorted = .unspecified 65537 17 (s.draws + 3) := rfl
@[simp] theorem State.resetAll_first (s : State) : s.resetAll.first = .unspecified 65 32 (s.draws + 4) := rfl
@[simp] theorem State.resetAll_numCoded (s : State) : s.resetAll.numCoded = 0 := rfl
@[simp] theorem State.resetAll_maxLen (s : State) : s.resetAll.maxLen = 0 := rfl
@[simp] theorem State.resetAll_totalBits (s : State) : s.resetAll.totalBits = 0 := rfl
@[simp] theorem State.resetAll_histValid (s : State) : s.resetAll.histValid = false := rfl
@[simp] theorem State.resetAll_lenValid (s : State) : s.resetAll.lenValid = false := rfl
@[simp] theorem State.resetAll_codesValid (s : State) : s.resetAll.codesValid = false := rfl
@[simp] theorem State.resetAll_encActive (s : State) : s.resetAll.encActive = false := rfl
@[simp] theorem State.resetAll_encAcc (s : State) : s.resetAll.encAcc = 0 := rfl
@[simp] theorem State.resetAll_encNacc (s : State) : s.resetAll.encNacc = 0 := rfl
@[simp] theorem State.resetAll_encBits (s : State) : s.resetAll.encBits = 0 := rfl
@[simp] theorem State.resetAll_encBytes (s : State) : s.resetAll.encBytes = 0 := rfl
@[simp] theorem State.resetAll_decState (s : State) : s.resetAll.decState = .idle := rfl
@[simp] theorem State.resetAll_decRc (s : State) : s.resetAll.decRc = 0 := rfl
@[simp] theorem State.resetAll_decRl (s : State) : s.resetAll.decRl = 0 := rfl
@[simp] theorem State.resetAll_decSyms (s : State) : s.resetAll.decSyms = 0 := rfl
@[simp] theorem State.resetAll_decBits (s : State) : s.resetAll.decBits = 0 := rfl
@[simp] theorem State.resetAll_cmdq (s : State) : s.resetAll.cmdq = [] := rfl
@[simp] theorem State.resetAll_outq (s : State) : s.resetAll.outq = [] := rfl
@[simp] theorem State.resetAll_halt (s : State) : s.resetAll.halt = false := rfl
@[simp] theorem State.resetAll_errCode (s : State) : s.resetAll.errCode = 0 := rfl
@[simp] theorem State.resetAll_errCmd (s : State) : s.resetAll.errCmd = 0 := rfl
@[simp] theorem State.resetAll_errArg (s : State) : s.resetAll.errArg = 0 := rfl
@[simp] theorem State.resetAll_irqEn (s : State) : s.resetAll.irqEn = 0 := rfl
@[simp] theorem State.resetAll_pErr (s : State) : s.resetAll.pErr = false := rfl
@[simp] theorem State.resetAll_pIdle (s : State) : s.resetAll.pIdle = false := rfl
@[simp] theorem State.resetAll_pEncDone (s : State) : s.resetAll.pEncDone = false := rfl
@[simp] theorem State.resetAll_pDecDone (s : State) : s.resetAll.pDecDone = false := rfl
@[simp] theorem State.resetAll_tblIndex (s : State) : s.resetAll.tblIndex = 0 := rfl
@[simp] theorem State.resetAll_draws (s : State) : s.resetAll.draws = s.draws + 5 := rfl
@[simp] theorem State.resetAll_agenda (s : State) : s.resetAll.agenda = s.agenda := rfl
@[simp] theorem State.resetAll_busData (s : State) : s.resetAll.busData = s.busData := rfl

/-! ### The head command -/

@[simp] theorem State.headWord_of_cons {s : State} {w : Word} {q : List Word} (h : s.cmdq = w :: q) : s.headWord = w := by
  simp [State.headWord, h]

/-- The return leaves a core that is not halted as it is (R139). -/
@[simp] theorem State.clearError_of_running {s : State} (h : s.halt = false) : s.clearError = s := by
  simp [State.clearError, h]

/-- The return of a halted core (R139). -/
theorem State.clearError_of_halted {s : State} (h : s.halt = true) :
    s.clearError = { s with halt := false, errCode := 0, errCmd := 0, errArg := 0 } := by
  simp [State.clearError, h]

end Sys2Proof.Machine
end

