-- ==== Sys2Proof/Laws/Step.lean ====
section
/-! SUPPORT. What one step can do: the inversion of the sequencer, of the host's accesses and of the step. -/

namespace Sys2Proof.Machine

/-- The core runs a command exactly when it is enabled (R93): not halted, a head word that decodes, and no hold. -/
theorem coreMove_run_iff {s t : State} {i : Instr} :
    coreMove s = .run i t ↔
      t = s ∧ s.halt = false ∧ s.holds i = false ∧ ∃ w q, s.cmdq = w :: q ∧ decode w = .ok i := by
  unfold coreMove
  cases hh : s.halt
  · cases hq : s.cmdq with
    | nil => simp
    | cons w q =>
      cases hd : decode w with
      | error e => simp [hd]
      | ok j =>
        cases hj : s.holds j
        · simp only [Bool.false_eq_true, if_false, hd, hj, Move.run.injEq]
          constructor
          · rintro ⟨rfl, rfl⟩
            exact ⟨rfl, trivial, hj, w, q, rfl, hd⟩
          · rintro ⟨rfl, -, -, w', q', hc, hd'⟩
            cases hc
            rw [hd] at hd'
            cases hd'
            exact ⟨rfl, rfl⟩
        · simp only [Bool.false_eq_true, if_false, hd, hj, if_true, reduceCtorEq, false_iff]
          rintro ⟨-, -, h, w', q', hc, hd'⟩
          cases hc
          rw [hd] at hd'
          cases hd'
          simp [hj] at h
  · simp

/-- Where the core runs no command it stays as it is, or it raises ILLEGAL_CMD (R93, R95). -/
theorem coreMove_settled {s : State} {o : Host.Outcome State Fault Refusal} (h : coreMove s = .settled o) :
    o = .next s
      ∨ (o = .next (s.raiseError .illegalCmd 0) ∧ s.halt = false ∧ ∃ w q e, s.cmdq = w :: q ∧ decode w = .error e) := by
  unfold coreMove at h
  cases hh : s.halt
  · cases hq : s.cmdq with
    | nil =>
      simp [hh, hq] at h
      exact .inl h.symm
    | cons w q =>
      cases hd : decode w with
      | error e =>
        simp [hh, hq, hd] at h
        exact .inr ⟨h.symm, rfl, w, q, e, rfl, hd⟩
      | ok i =>
        cases hi : s.holds i
        · simp [hh, hq, hd, hi] at h
        · simp [hh, hq, hd, hi] at h
          exact .inl h.symm
  · simp [hh] at h
    exact .inl h.symm

/-- A host access is accepted exactly when it is a 32-bit access at an aligned offset of the window (R67). -/
theorem State.accessRefusal_none_iff {s : State} {addr bytes : Nat} :
    s.accessRefusal addr bytes = none ↔
      s.params.base ≤ addr ∧ addr < s.params.base + 256 ∧ bytes = 4 ∧ (addr - s.params.base) % 4 = 0 := by
  unfold State.accessRefusal
  by_cases h1 : addr < s.params.base ∨ s.params.base + 256 ≤ addr
  · simp only [h1, if_true, reduceCtorEq, false_iff]
    omega
  · by_cases h2 : bytes ≠ 4 ∨ (addr - s.params.base) % 4 ≠ 0
    · simp only [h1, h2, if_true, if_false, reduceCtorEq, false_iff]
      tauto
    · simp only [h1, h2, if_false, true_iff]
      omega

theorem hostRead_of_accepted {s : State} {addr bytes : Nat} (h : s.accessRefusal addr bytes = none) :
    hostRead addr bytes s =
      .next { (s.readOffset (addr - s.params.base)).2 with busData := (s.readOffset (addr - s.params.base)).1 } := by
  simp [hostRead, h]

theorem hostWrite_of_accepted {s : State} {addr bytes : Nat} {v : Word} (h : s.accessRefusal addr bytes = none) :
    hostWrite addr bytes v s = .next (s.writeOffset (addr - s.params.base) v) := by
  simp [hostWrite, h]

/-- What a host read can answer. -/
theorem hostRead_next {s t : State} {addr bytes : Nat} (h : hostRead addr bytes s = .next t) :
    s.accessRefusal addr bytes = none
      ∧ t = { (s.readOffset (addr - s.params.base)).2 with busData := (s.readOffset (addr - s.params.base)).1 } := by
  unfold hostRead at h
  split at h
  · cases h
  · rename_i hn
    cases h
    exact ⟨hn, rfl⟩

/-- What a host write can answer. -/
theorem hostWrite_next {s t : State} {addr bytes : Nat} {v : Word} (h : hostWrite addr bytes v s = .next t) :
    s.accessRefusal addr bytes = none ∧ t = s.writeOffset (addr - s.params.base) v := by
  unfold hostWrite at h
  split at h
  · cases h
  · rename_i hn
    cases h
    exact ⟨hn, rfl⟩

/-- A window read answers the fixed word, the entry, or a free word (R59, R161). -/
theorem State.windowRead_cases (s : State) (inRange : Bool) (outside : Word) (valid : Bool) (entry : Word) :
    (inRange = false ∧ s.windowRead inRange outside valid entry = (outside, s))
      ∨ (inRange = true ∧ valid = true ∧ s.busy = false ∧ s.windowRead inRange outside valid entry = (entry, s))
      ∨ (inRange = true ∧ (valid = false ∨ s.busy = true) ∧ s.windowRead inRange outside valid entry = s.drawWord) := by
  cases inRange <;> cases valid <;> cases hb : s.busy <;> simp [State.windowRead, hb]

/-- All that a window read changes is the counter of free values. -/
theorem State.windowRead_frame (s : State) (inRange : Bool) (outside : Word) (valid : Bool) (entry : Word) :
    ∃ d, (s.windowRead inRange outside valid entry).2 = { s with draws := d } := by
  rcases s.windowRead_cases inRange outside valid entry with ⟨-, h⟩ | ⟨-, -, -, h⟩ | ⟨-, -, h⟩
  · exact ⟨s.draws, by rw [h]⟩
  · exact ⟨s.draws, by rw [h]⟩
  · exact ⟨s.draws + 1, by rw [h]; rfl⟩

/-- All that a read of OUT changes is OUTQ, which loses its head if it has one (R57). -/
theorem State.popOut_frame (s : State) : s.popOut.2 = { s with outq := s.outq.tail } := by
  unfold State.popOut
  split <;> rename_i h
  · have : s.outq.tail = s.outq := by rw [h]; rfl
    rw [this]
  · have : s.outq.tail = _ := congrArg List.tail h
    rw [this]
    rfl

/-- All that a register read changes is the counter of free values, and OUTQ where the register is OUT (R53). -/
theorem State.readReg_frame (s : State) (r : Reg) :
    ∃ d o, (s.readReg r).2 = { s with draws := d, outq := o } ∧ (r ≠ .out → o = s.outq) := by
  have window : ∀ inRange outside valid entry,
      ∃ d o, (s.windowRead inRange outside valid entry).2 = { s with draws := d, outq := o } ∧ o = s.outq := by
    intro inRange outside valid entry
    obtain ⟨d, h⟩ := s.windowRead_frame inRange outside valid entry
    exact ⟨d, s.outq, h, rfl⟩
  have still : ∃ d o, s = { s with draws := d, outq := o } ∧ o = s.outq := ⟨s.draws, s.outq, rfl, rfl⟩
  have weaken : ∀ t : State, (∃ d o, t = { s with draws := d, outq := o } ∧ o = s.outq) →
      ∃ d o, t = { s with draws := d, outq := o } ∧ (r ≠ .out → o = s.outq) := by
    rintro t ⟨d, o, h, ho⟩
    exact ⟨d, o, h, fun _ => ho⟩
  cases r
  case out =>
    exact ⟨s.draws, s.outq.tail, s.popOut_frame, fun h => absurd rfl h⟩
  case countRd => exact weaken _ (window _ _ _ _)
  case lenRd => exact weaken _ (window _ _ _ _)
  case codeRdLo => exact weaken _ (window _ _ _ _)
  case codeRdHi => exact weaken _ (window _ _ _ _)
  case sortedRd => exact weaken _ (window _ _ _ _)
  case firstRd => exact weaken _ (window _ _ _ _)
  all_goals exact weaken _ still

theorem regAt_out {offset : Nat} (h : regAt offset = some .out) : offset = 0x2C := by
  unfold regAt at h
  split at h <;> first | rfl | cases h

/-- All that a read in the window changes is the counter of free values, and OUTQ at the offset of OUT (R53). -/
theorem State.readOffset_frame (s : State) (offset : Nat) :
    ∃ d o, (s.readOffset offset).2 = { s with draws := d, outq := o } ∧ (offset ≠ 0x2C → o = s.outq) := by
  unfold State.readOffset
  cases hr : regAt offset with
  | none => exact ⟨s.draws, s.outq, rfl, fun _ => rfl⟩
  | some r =>
    obtain ⟨d, o, h, ho⟩ := s.readReg_frame r
    exact ⟨d, o, h, fun hne => ho fun hout => hne (regAt_out (hout ▸ hr))⟩

/-- All that an accepted host read changes (R53). -/
theorem hostRead_frame {s t : State} {addr bytes : Nat} (h : hostRead addr bytes s = .next t) :
    ∃ d o v, t = { s with draws := d, outq := o, busData := v } ∧ (addr ≠ s.params.base + 0x2C → o = s.outq) := by
  obtain ⟨ha, rfl⟩ := hostRead_next h
  obtain ⟨d, o, hd, ho⟩ := s.readOffset_frame (addr - s.params.base)
  have hb := (State.accessRefusal_none_iff.1 ha).1
  exact ⟨d, o, _, by rw [hd], fun hne => ho (by omega)⟩

/-- What one step that answers a next state did (R72): a core event, in which the core waited, raised ILLEGAL_CMD or
ran its head command; a reset; a host read; or a host write. -/
theorem step_next_cases {s t : State} (h : step s = .next t) :
    ∃ u : State,
      ((s.agenda = [] ∧ u = s) ∨ ∃ e, s.agenda = e :: u.agenda ∧ u = { s with agenda := u.agenda })
        ∧ ((t = u ∧ (s.agenda = [] ∨ s.agenda = .core :: u.agenda))
          ∨ (t = u.raiseError .illegalCmd 0 ∧ u.halt = false ∧ (s.agenda = [] ∨ s.agenda = .core :: u.agenda)
              ∧ ∃ w q e, u.cmdq = w :: q ∧ decode w = .error e)
          ∨ (∃ i, nextMove s = .run i u ∧ exec i u = .next t ∧ u.halt = false ∧ u.holds i = false
              ∧ (s.agenda = [] ∨ s.agenda = .core :: u.agenda) ∧ ∃ w q, u.cmdq = w :: q ∧ decode w = .ok i)
          ∨ (t = u.resetAll ∧ s.agenda = .resetInput :: u.agenda)
          ∨ (∃ addr bytes, s.agenda = .read addr bytes :: u.agenda ∧ hostRead addr bytes u = .next t)
          ∨ (∃ addr bytes v, s.agenda = .write addr bytes v :: u.agenda ∧ hostWrite addr bytes v u = .next t)) := by
  have core : ∀ u : State, nextMove s = coreMove u → (s.agenda = [] ∨ s.agenda = .core :: u.agenda) →
      (t = u ∧ (s.agenda = [] ∨ s.agenda = .core :: u.agenda))
        ∨ (t = u.raiseError .illegalCmd 0 ∧ u.halt = false ∧ (s.agenda = [] ∨ s.agenda = .core :: u.agenda)
            ∧ ∃ w q e, u.cmdq = w :: q ∧ decode w = .error e)
        ∨ (∃ i, nextMove s = .run i u ∧ exec i u = .next t ∧ u.halt = false ∧ u.holds i = false
            ∧ (s.agenda = [] ∨ s.agenda = .core :: u.agenda) ∧ ∃ w q, u.cmdq = w :: q ∧ decode w = .ok i) := by
    intro u hn ha
    cases hm : coreMove u with
    | run i v =>
      obtain ⟨rfl, hh, hhold, hw⟩ := coreMove_run_iff.1 hm
      refine .inr (.inr ⟨i, hn.trans hm, ?_, hh, hhold, ha, hw⟩)
      simpa [step, hn, hm] using h
    | settled o =>
      have ho : o = .next t := by simpa [step, hn, hm] using h
      rcases coreMove_settled hm with hs | ⟨hs, hh, hw⟩
      · rw [ho] at hs
        cases hs
        exact .inl ⟨rfl, ha⟩
      · rw [ho] at hs
        cases hs
        exact .inr (.inl ⟨rfl, hh, ha, hw⟩)
  cases ha : s.agenda with
  | nil =>
    refine ⟨s, .inl ⟨rfl, rfl⟩, ?_⟩
    rcases core s (by simp [nextMove, ha]) (.inl ha) with h1 | h1 | h1
    · exact .inl (by simpa [ha] using h1)
    · exact .inr (.inl (by simpa [ha] using h1))
    · exact .inr (.inr (.inl (by simpa [ha] using h1)))
  | cons e rest =>
    refine ⟨{ s with agenda := rest }, .inr ⟨e, rfl, rfl⟩, ?_⟩
    cases e with
    | core =>
      rcases core { s with agenda := rest } (by simp [nextMove, ha]) (.inr ha) with h1 | h1 | h1
      · exact .inl (by simpa [ha] using h1)
      · exact .inr (.inl (by simpa [ha] using h1))
      · exact .inr (.inr (.inl (by simpa [ha] using h1)))
    | resetInput =>
      have : (.next ({ s with agenda := rest } : State).resetAll : Host.Outcome State Fault Refusal) = .next t := by
        simpa [step, nextMove, ha] using h
      cases this
      exact .inr (.inr (.inr (.inl ⟨rfl, rfl⟩)))
    | read addr bytes =>
      exact .inr (.inr (.inr (.inr (.inl ⟨addr, bytes, rfl, by simpa [step, nextMove, ha] using h⟩))))
    | write addr bytes v =>
      exact .inr (.inr (.inr (.inr (.inr ⟨addr, bytes, v, rfl, by simpa [step, nextMove, ha] using h⟩))))

/-- A host read in the window is the read of its offset (R68, R79). -/
theorem step_read {s : State} {offset : Nat} (hr : offset < 256) (ha : offset % 4 = 0) (rest : List Event) :
    step { s with agenda := .read (s.params.base + offset) 4 :: rest } =
      .next { (({ s with agenda := rest } : State).readOffset offset).2 with
        busData := (({ s with agenda := rest } : State).readOffset offset).1 } := by
  have h : ({ s with agenda := rest } : State).accessRefusal (s.params.base + offset) 4 = none :=
    State.accessRefusal_none_iff.2 ⟨Nat.le_add_right _ _, Nat.add_lt_add_left hr _, rfl, by
      show (s.params.base + offset - s.params.base) % 4 = 0
      rw [Nat.add_sub_cancel_left, ha]⟩
  show hostRead (s.params.base + offset) 4 { s with agenda := rest } = _
  rw [hostRead_of_accepted h]
  show Host.Outcome.next _ = _
  rw [show ({ s with agenda := rest } : State).params.base = s.params.base from rfl, Nat.add_sub_cancel_left]

/-- A host write in the window is the write of its offset (R68, R79). -/
theorem step_write {s : State} {offset : Nat} (hr : offset < 256) (ha : offset % 4 = 0) (v : Word) (rest : List Event) :
    step { s with agenda := .write (s.params.base + offset) 4 v :: rest } =
      .next (({ s with agenda := rest } : State).writeOffset offset v) := by
  have h : ({ s with agenda := rest } : State).accessRefusal (s.params.base + offset) 4 = none :=
    State.accessRefusal_none_iff.2 ⟨Nat.le_add_right _ _, Nat.add_lt_add_left hr _, rfl, by
      show (s.params.base + offset - s.params.base) % 4 = 0
      rw [Nat.add_sub_cancel_left, ha]⟩
  show hostWrite (s.params.base + offset) 4 v { s with agenda := rest } = _
  rw [hostWrite_of_accepted h]
  rw [show ({ s with agenda := rest } : State).params.base = s.params.base from rfl, Nat.add_sub_cancel_left]

/-- With nothing listed, the next move is the core's (R72). -/
theorem nextMove_idle {s : State} (h : s.agenda = []) : nextMove s = coreMove s := by
  unfold nextMove
  rw [h]

/-- A listed core event is the core's move without that event (R72). -/
theorem nextMove_core (s : State) (rest : List Event) :
    nextMove { s with agenda := .core :: rest } = coreMove { s with agenda := rest } := rfl

/-- A step that runs a command is exec of it (R93, R95). -/
theorem step_of_run {s t : State} {i : Instr} (h : nextMove s = .run i t) : step s = exec i t := by
  unfold step
  rw [h]

/-- A step that runs no command is what the sequencer settles. -/
theorem step_of_settled {s : State} {o : Host.Outcome State Fault Refusal} (h : nextMove s = .settled o) : step s = o := by
  unfold step
  rw [h]

/-- A listed reset event is the reset (R72, R152). -/
theorem step_resetInput (s : State) (rest : List Event) :
    step { s with agenda := .resetInput :: rest } = .next ({ s with agenda := rest } : State).resetAll := rfl

end Sys2Proof.Machine
end

