-- ==== Sys2Proof/Laws/Runs.lean ====
section
/-! SUPPORT. The end of a run (R98): an ended run stays ended, an error is not left on its own, and a hang goes on. -/

namespace Sys2Proof.Machine

/-- A run that has ended stays ended, and HALT stays as it is but for a reset (R98, R138). -/
theorem State.ended_step {s t : State} (h : s.ended) (hs : step s = .next t) :
    t.ended ∧ (t.halt = s.halt ∨ ∃ rest, s.agenda = .resetInput :: rest) := by
  obtain ⟨hq, hw⟩ := h
  obtain ⟨u, hu, ht⟩ := step_next_cases hs
  have hsub : ∀ e ∈ u.agenda, e ∈ s.agenda := by
    rcases hu with ⟨-, rfl⟩ | ⟨e, he, -⟩
    · exact fun _ h => h
    · intro x hx
      rw [he]
      exact List.mem_cons_of_mem _ hx
  have hhalt : u.halt = s.halt := by
    rcases hu with ⟨-, rfl⟩ | ⟨e, -, hu⟩
    · rfl
    · rw [hu]
  have hcmdq : u.cmdq = s.cmdq := by
    rcases hu with ⟨-, rfl⟩ | ⟨e, -, hu⟩
    · rfl
    · rw [hu]
  have hwait : ∀ w q, u.halt = false → u.cmdq = w :: q → False := by
    intro w q h1 h2
    rcases hq with hq | hq
    · rw [hhalt, hq] at h1
      cases h1
    · rw [hcmdq, hq] at h2
      cases h2
  have kept : ∀ v : State, v.halt = u.halt → v.cmdq = u.cmdq → v.agenda = u.agenda → v.ended := by
    intro v h1 h2 h3
    refine ⟨?_, fun e he => hw e (hsub e (h3 ▸ he))⟩
    rw [State.quiescent, h1, h2, hhalt, hcmdq]
    exact hq
  rcases ht with ⟨rfl, -⟩ | ⟨-, h1, -, w, q, e, h2, -⟩ | ⟨i, -, -, h1, -, -, w, q, h2, -⟩ | ⟨rfl, ha⟩ | ⟨addr, bytes, -, hr⟩
    | ⟨addr, bytes, v, ha, -⟩
  · exact ⟨kept _ rfl rfl rfl, .inl hhalt⟩
  · exact (hwait w q h1 h2).elim
  · exact (hwait w q h1 h2).elim
  · exact ⟨⟨.inr rfl, fun e he => hw e (hsub e he)⟩, .inr ⟨_, ha⟩⟩
  · obtain ⟨d, o, v, rfl, -⟩ := hostRead_frame hr
    exact ⟨kept _ rfl rfl rfl, .inl hhalt⟩
  · have := hw (.write addr bytes v) (by rw [ha]; exact List.mem_cons_self)
    cases this

/-- A hang goes on: every step leaves the core in its hold, with the queued commands and OUTQ as they were (R98, R160). -/
theorem State.hangs_step {s t : State} (h : s.hangs) (hs : step s = .next t) :
    t.hangs ∧ t.cmdq = s.cmdq ∧ t.outq = s.outq := by
  obtain ⟨⟨hh, i, w, q, hc, hd, hold⟩, hw⟩ := h
  obtain ⟨u, hu, ht⟩ := step_next_cases hs
  have hsub : ∀ e ∈ u.agenda, e ∈ s.agenda := by
    rcases hu with ⟨-, rfl⟩ | ⟨e, he, -⟩
    · exact fun _ h => h
    · intro x hx
      rw [he]
      exact List.mem_cons_of_mem _ hx
  obtain ⟨uh, uc, uo, up⟩ : u.halt = s.halt ∧ u.cmdq = s.cmdq ∧ u.outq = s.outq ∧ u.params = s.params := by
    rcases hu with ⟨-, rfl⟩ | ⟨e, -, hu⟩
    · exact ⟨rfl, rfl, rfl, rfl⟩
    · rw [hu]
      exact ⟨rfl, rfl, rfl, rfl⟩
  have uhold : ∀ v : State, v.outq = u.outq → v.params = u.params → v.holds i = true := by
    intro v h1 h2
    unfold State.holds State.outRoom at hold ⊢
    rw [h1, h2, uo, up]
    exact hold
  have kept : ∀ v : State, v.halt = u.halt → v.cmdq = u.cmdq → v.outq = u.outq → v.params = u.params →
      v.agenda = u.agenda → v.hangs ∧ v.cmdq = s.cmdq ∧ v.outq = s.outq := by
    intro v h1 h2 h3 h4 h5
    refine ⟨⟨⟨by rw [h1, uh, hh], i, w, q, by rw [h2, uc, hc], hd, uhold v h3 h4⟩, fun e he => ?_⟩, by rw [h2, uc],
      by rw [h3, uo]⟩
    rw [h4, up]
    exact hw e (hsub e (h5 ▸ he))
  rcases ht with ⟨rfl, -⟩ | ⟨-, -, -, w', q', e, h2, h3⟩ | ⟨j, -, -, -, h1, -, w', q', h2, h3⟩ | ⟨-, ha⟩ | ⟨addr, bytes, ha, hr⟩
    | ⟨addr, bytes, v, ha, -⟩
  · exact kept _ rfl rfl rfl rfl rfl
  · rw [uc, hc] at h2
    cases h2
    rw [hd] at h3
    cases h3
  · rw [uc, hc] at h2
    cases h2
    rw [hd] at h3
    cases h3
    rw [uhold u rfl rfl] at h1
    cases h1
  · have := hw .resetInput (by rw [ha]; exact List.mem_cons_self)
    cases this
  · have hne := hw (.read addr bytes) (by rw [ha]; exact List.mem_cons_self)
    obtain ⟨d, o, v, rfl, ho⟩ := hostRead_frame hr
    have ho := ho (by rw [up]; simpa [Event.leavesHold] using hne)
    exact kept _ rfl rfl ho rfl rfl
  · have := hw (.write addr bytes v) (by rw [ha]; exact List.mem_cons_self)
    cases this

/-- A hang is no end (R98). -/
theorem State.hangs_not_ended {s : State} (h : s.hangs) : ¬ s.ended := by
  obtain ⟨⟨hh, i, w, q, hc, -⟩, -⟩ := h
  rintro ⟨hq | hq, -⟩
  · rw [hh] at hq
    cases hq
  · rw [hc] at hq
    cases hq

end Sys2Proof.Machine
end

