-- ==== Sys2Proof/Laws/Streams.lean ====
section
/-! SUPPORT. What the encoder's and the decoder's bit operations can change, and the cases of one decoder bit. -/

namespace Sys2Proof.Machine

/-! ### The encoder (R120) -/

/-- One emitted bit changes the encoder's accumulator and counters and OUTQ, and nothing else. -/
theorem State.emitBit_frame (s : State) (b : Bool) :
    s.emitBit b =
      { s with
        encAcc := (s.emitBit b).encAcc
        encNacc := (s.emitBit b).encNacc
        encBits := (s.emitBit b).encBits
        encBytes := (s.emitBit b).encBytes
        outq := (s.emitBit b).outq } := by
  unfold State.emitBit
  split <;> rfl

@[simp] theorem State.emitBits_nil (s : State) : s.emitBits [] = s := rfl

@[simp] theorem State.emitBits_cons (s : State) (b : Bool) (bits : List Bool) :
    s.emitBits (b :: bits) = (s.emitBit b).emitBits bits := rfl

/-- Emitted bits change the encoder's accumulator and counters and OUTQ, and nothing else. -/
theorem State.emitBits_frame (s : State) (bits : List Bool) :
    s.emitBits bits =
      { s with
        encAcc := (s.emitBits bits).encAcc
        encNacc := (s.emitBits bits).encNacc
        encBits := (s.emitBits bits).encBits
        encBytes := (s.emitBits bits).encBytes
        outq := (s.emitBits bits).outq } := by
  induction bits generalizing s with
  | nil => rfl
  | cons b rest ih =>
    rw [State.emitBits_cons]
    have h := ih (s.emitBit b)
    rw [State.emitBit_frame s b] at h ⊢
    exact h

/-- Every emitted bit is counted. -/
@[simp] theorem State.emitBit_encBits (s : State) (b : Bool) : (s.emitBit b).encBits = s.encBits + 1 := by
  unfold State.emitBit
  split <;> rfl

/-! ### The decoder (R126) -/

/-- The cases of one payload bit (R126): it is not consumed, or it completes the EOS code, or it completes a sample
symbol's code, or it completes none. -/
theorem State.decBit_cases (s : State) (b : Bool) :
    (s.decState ≠ .run ∧ s.decBit b = s)
      ∨ (s.decState = .run
          ∧ ((∃ sym, (s.appendBit b).matchedSymbol = some sym ∧ sym.toNat = Config.eos
                ∧ s.decBit b = (s.appendBit b).matchEos)
            ∨ (∃ sym, (s.appendBit b).matchedSymbol = some sym ∧ sym.toNat ≠ Config.eos
                ∧ s.decBit b = (s.appendBit b).matchSymbol sym)
            ∨ ((s.appendBit b).matchedSymbol = none ∧ s.decBit b = (s.appendBit b).noMatchYet))) := by
  by_cases hr : s.decState = .run
  · right
    refine ⟨hr, ?_⟩
    cases hm : (s.appendBit b).matchedSymbol with
    | none => exact .inr (.inr ⟨rfl, by simp [State.decBit, hr, hm]⟩)
    | some sym =>
      by_cases he : sym.toNat = Config.eos
      · exact .inl ⟨sym, rfl, he, by simp [State.decBit, hr, hm, he]⟩
      · exact .inr (.inl ⟨sym, rfl, he, by simp [State.decBit, hr, hm, he]⟩)
  · exact .inl ⟨hr, by simp [State.decBit, hr]⟩

/-- One payload bit changes the decoder, OUTQ and P_DEC_DONE, and nothing else. -/
theorem State.decBit_frame (s : State) (b : Bool) :
    s.decBit b =
      { s with
        decState := (s.decBit b).decState
        decRc := (s.decBit b).decRc
        decRl := (s.decBit b).decRl
        decSyms := (s.decBit b).decSyms
        decBits := (s.decBit b).decBits
        outq := (s.decBit b).outq
        pDecDone := (s.decBit b).pDecDone } := by
  rcases s.decBit_cases b with ⟨-, h⟩ | ⟨-, ⟨sym, -, -, h⟩ | ⟨sym, -, -, h⟩ | ⟨-, h⟩⟩
  · rw [h]
  · rw [h]; rfl
  · rw [h]; rfl
  · rw [h]
    unfold State.noMatchYet
    split <;> rfl

@[simp] theorem State.decBitList_nil (s : State) : s.decBitList [] = s := rfl

@[simp] theorem State.decBitList_cons (s : State) (b : Bool) (bits : List Bool) :
    s.decBitList (b :: bits) = (s.decBit b).decBitList bits := rfl

/-- Payload bits change the decoder, OUTQ and P_DEC_DONE, and nothing else. -/
theorem State.decBitList_frame (s : State) (bits : List Bool) :
    s.decBitList bits =
      { s with
        decState := (s.decBitList bits).decState
        decRc := (s.decBitList bits).decRc
        decRl := (s.decBitList bits).decRl
        decSyms := (s.decBitList bits).decSyms
        decBits := (s.decBitList bits).decBits
        outq := (s.decBitList bits).outq
        pDecDone := (s.decBitList bits).pDecDone } := by
  induction bits generalizing s with
  | nil => rfl
  | cons b rest ih =>
    rw [State.decBitList_cons]
    have h := ih (s.decBit b)
    rw [State.decBit_frame s b] at h ⊢
    exact h

end Sys2Proof.Machine
end

