-- ==== Sys2Proof/Laws/Table.lean ====
section
/-! SUPPORT. The laws of tables: a read after a write, the canonical form, and which indices the support lists. -/

namespace Sys2Proof.Machine

/-! ### Reading what was written -/

theorem lookupCell_insertCell_self {w : Nat} (i : Nat) (v : BitVec w) (l : List (Nat × BitVec w)) :
    lookupCell (insertCell i v l) i = some v := by
  induction l with
  | nil => simp [insertCell, lookupCell]
  | cons c rest ih =>
    obtain ⟨j, u⟩ := c
    by_cases h1 : i < j
    · simp [insertCell, lookupCell, h1]
    · by_cases h2 : i = j
      · simp [insertCell, lookupCell, h2]
      · simp [insertCell, lookupCell, h1, h2, ih]

theorem lookupCell_insertCell_other {w : Nat} (i k : Nat) (v : BitVec w) (l : List (Nat × BitVec w)) (h : k ≠ i) :
    lookupCell (insertCell i v l) k = lookupCell l k := by
  induction l with
  | nil => simp [insertCell, lookupCell, h]
  | cons c rest ih =>
    obtain ⟨j, u⟩ := c
    by_cases h1 : i < j
    · simp [insertCell, lookupCell, h1, h]
    · by_cases h2 : i = j
      · subst h2
        simp [insertCell, lookupCell, h]
      · simp [insertCell, lookupCell, h1, h2, ih]

theorem lookupCell_eraseCell_self {w : Nat} (i : Nat) (l : List (Nat × BitVec w)) :
    lookupCell (eraseCell i l) i = none := by
  induction l with
  | nil => simp [eraseCell, lookupCell]
  | cons c rest ih =>
    obtain ⟨j, u⟩ := c
    by_cases h : j = i
    · simpa [eraseCell, h] using ih
    · have h' : i ≠ j := fun e => h e.symm
      simp only [eraseCell, List.filter_cons, bne_iff_ne, ne_eq, h, not_false_eq_true, if_true]
      simpa [lookupCell, h', eraseCell] using ih

theorem lookupCell_eraseCell_other {w : Nat} (i k : Nat) (l : List (Nat × BitVec w)) (h : k ≠ i) :
    lookupCell (eraseCell i l) k = lookupCell l k := by
  induction l with
  | nil => simp [eraseCell]
  | cons c rest ih =>
    obtain ⟨j, u⟩ := c
    by_cases hj : j = i
    · subst hj
      have he : eraseCell j ((j, u) :: rest) = eraseCell j rest := by simp [eraseCell]
      rw [he, ih]
      simp [lookupCell, h]
    · have he : eraseCell i ((j, u) :: rest) = (j, u) :: eraseCell i rest := by simp [eraseCell, hj]
      rw [he]
      by_cases hk : k = j
      · simp [lookupCell, hk]
      · simp [lookupCell, hk, ih]

/-- What is known of an unlisted entry is what it reads as. -/
theorem Fill.at_of_knows {w : Nat} {f : Fill w} {v : BitVec w} (i : Nat) (h : f.knows v = true) : f.at i = v := by
  cases f with
  | const u => exact (beq_iff_eq.1 h).symm
  | free d => simp [Fill.knows] at h

@[simp] theorem Table.set_fill {n w : Nat} (t : Table n w) (i : Nat) (v : BitVec w) : (t.set i v).fill = t.fill := by
  unfold Table.set
  split <;> rfl

/-- A write of an entry the table has is read back. -/
@[simp] theorem Table.get_set_self {n w : Nat} (t : Table n w) {i : Nat} (v : BitVec w) (h : i < n) :
    (t.set i v).get i = v := by
  unfold Table.set Table.get
  by_cases hk : t.fill.knows v = true
  · simp [h, hk, lookupCell_eraseCell_self, Fill.at_of_knows i hk]
  · simp [h, hk, lookupCell_insertCell_self]

/-- A write leaves every other entry alone. -/
theorem Table.get_set_other {n w : Nat} (t : Table n w) {i k : Nat} (v : BitVec w) (h : k ≠ i) :
    (t.set i v).get k = t.get k := by
  unfold Table.set Table.get
  by_cases hi : i < n
  · by_cases hk : t.fill.knows v = true
    · simp [hi, hk, lookupCell_eraseCell_other i k _ h]
    · simp [hi, hk, lookupCell_insertCell_other i k _ _ h]
  · simp [hi]

/-- The two laws in one. -/
theorem Table.get_set {n w : Nat} (t : Table n w) {i : Nat} (k : Nat) (v : BitVec w) (h : i < n) :
    (t.set i v).get k = if k = i then v else t.get k := by
  by_cases hk : k = i
  · subst hk
    simp [h]
  · simp [hk, t.get_set_other v hk]

@[simp] theorem Table.get_const (n w : Nat) (v : BitVec w) (i : Nat) : (Table.const n w v).get i = v := rfl

@[simp] theorem Table.const_fill (n w : Nat) (v : BitVec w) : (Table.const n w v).fill = .const v := rfl

@[simp] theorem Table.get_unspecified (n w d i : Nat) :
    (Table.unspecified n w d).get i = Config.freeEntry w d i := rfl

/-! ### The canonical form -/

theorem risingCells_cons {w : Nat} (a : Nat × BitVec w) (l : List (Nat × BitVec w)) :
    risingCells (a :: l) = true ↔ (∀ c ∈ l.head?, a.1 < c.1) ∧ risingCells l = true := by
  cases l with
  | nil => simp [risingCells]
  | cons b rest => simp [risingCells]

/-- In rising cells every later index is greater. -/
theorem risingCells_forall {w : Nat} {a : Nat × BitVec w} {l : List (Nat × BitVec w)} (h : risingCells (a :: l) = true) :
    ∀ c ∈ l, a.1 < c.1 := by
  induction l generalizing a with
  | nil => simp
  | cons b rest ih =>
    have hb := (risingCells_cons a (b :: rest)).1 h
    have hab : a.1 < b.1 := by simpa using hb.1
    intro c hc
    rcases List.mem_cons.1 hc with rfl | hc
    · exact hab
    · exact lt_trans hab (ih hb.2 c hc)

theorem risingCells_cons_of_forall {w : Nat} {a : Nat × BitVec w} {l : List (Nat × BitVec w)}
    (ha : ∀ c ∈ l, a.1 < c.1) (h : risingCells l = true) : risingCells (a :: l) = true := by
  rw [risingCells_cons]
  exact ⟨fun c hc => ha c (List.mem_of_mem_head? hc), h⟩

theorem risingCells_filter {w : Nat} (p : Nat × BitVec w → Bool) {l : List (Nat × BitVec w)}
    (h : risingCells l = true) : risingCells (l.filter p) = true := by
  induction l with
  | nil => simpa using h
  | cons a rest ih =>
    have hr := ((risingCells_cons a rest).1 h).2
    by_cases hp : p a
    · rw [List.filter_cons_of_pos hp]
      refine risingCells_cons_of_forall (fun c hc => ?_) (ih hr)
      exact risingCells_forall h c (List.mem_filter.1 hc).1
    · rw [List.filter_cons_of_neg hp]
      exact ih hr

theorem mem_insertCell {w : Nat} {i : Nat} {v : BitVec w} {l : List (Nat × BitVec w)} {c : Nat × BitVec w}
    (h : c ∈ insertCell i v l) : c = (i, v) ∨ c ∈ l := by
  induction l with
  | nil => simpa [insertCell] using h
  | cons a rest ih =>
    obtain ⟨j, u⟩ := a
    by_cases h1 : i < j
    · simpa [insertCell, h1] using h
    · by_cases h2 : i = j
      · subst h2
        rcases List.mem_cons.1 (by simpa [insertCell] using h : c ∈ (i, v) :: rest) with h | h
        · exact .inl h
        · exact .inr (List.mem_cons_of_mem _ h)
      · simp only [insertCell, h1, if_false, h2, List.mem_cons] at h
        rcases h with rfl | h
        · simp
        · rcases ih h with h | h
          · exact .inl h
          · exact .inr (List.mem_cons_of_mem _ h)

theorem risingCells_insertCell {w : Nat} (i : Nat) (v : BitVec w) {l : List (Nat × BitVec w)}
    (h : risingCells l = true) : risingCells (insertCell i v l) = true := by
  induction l with
  | nil => simp [insertCell, risingCells]
  | cons a rest ih =>
    obtain ⟨j, u⟩ := a
    have hr := ((risingCells_cons _ rest).1 h).2
    have hall := risingCells_forall h
    by_cases h1 : i < j
    · simp only [insertCell, h1, if_true]
      refine risingCells_cons_of_forall (fun c hc => ?_) h
      rcases List.mem_cons.1 hc with rfl | hc
      · exact h1
      · exact lt_trans h1 (hall c hc)
    · by_cases h2 : i = j
      · subst h2
        simp only [insertCell, lt_irrefl, if_false, if_true]
        exact risingCells_cons_of_forall (fun c hc => hall c hc) hr
      · simp only [insertCell, h1, if_false, h2]
        refine risingCells_cons_of_forall (fun c hc => ?_) (ih hr)
        rcases mem_insertCell hc with rfl | hc
        · show j < i
          omega
        · exact hall c hc

/-- What the canonical form says. -/
theorem Table.wf_iff {n w : Nat} (t : Table n w) :
    t.wf = true ↔ risingCells t.cells = true ∧ ∀ c ∈ t.cells, c.1 < n ∧ t.fill.knows c.2 = false := by
  simp [Table.wf, List.all_eq_true, Bool.and_eq_true]

/-- Every write keeps the canonical form. -/
@[simp] theorem Table.wf_set {n w : Nat} {t : Table n w} (i : Nat) (v : BitVec w) (h : t.wf = true) :
    (t.set i v).wf = true := by
  obtain ⟨hr, hc⟩ := t.wf_iff.1 h
  by_cases hi : i < n
  · rw [Table.wf_iff, Table.set_fill]
    by_cases hk : t.fill.knows v = true
    · simp only [Table.set, hi, hk, if_true]
      refine ⟨risingCells_filter _ hr, fun c hm => hc c (List.mem_filter.1 hm).1⟩
    · simp only [Table.set, hi, hk, if_true]
      refine ⟨risingCells_insertCell i v hr, fun c hm => ?_⟩
      rcases mem_insertCell hm with rfl | hm
      · exact ⟨hi, by simpa using hk⟩
      · exact hc c hm
  · simpa [Table.set, hi] using h

@[simp] theorem Table.wf_const (n w : Nat) (v : BitVec w) : (Table.const n w v).wf = true := rfl

@[simp] theorem Table.wf_unspecified (n w d : Nat) : (Table.unspecified n w d).wf = true := rfl

/-! ### The support -/

/-- In rising cells a listed pair is what its index looks up. -/
theorem lookupCell_of_mem {w : Nat} {l : List (Nat × BitVec w)} (h : risingCells l = true) {c : Nat × BitVec w}
    (hc : c ∈ l) : lookupCell l c.1 = some c.2 := by
  induction l with
  | nil => simp at hc
  | cons a rest ih =>
    obtain ⟨j, u⟩ := a
    rcases List.mem_cons.1 hc with rfl | hm
    · simp [lookupCell]
    · have hlt := risingCells_forall h c hm
      have hne : c.1 ≠ j := by simpa using (ne_of_gt hlt)
      simpa [lookupCell, hne] using ih ((risingCells_cons _ rest).1 h).2 hm

theorem mem_of_lookupCell {w : Nat} {l : List (Nat × BitVec w)} {i : Nat} {v : BitVec w}
    (h : lookupCell l i = some v) : (i, v) ∈ l := by
  induction l with
  | nil => simp [lookupCell] at h
  | cons a rest ih =>
    obtain ⟨j, u⟩ := a
    by_cases hi : i = j
    · subst hi
      simp [lookupCell] at h
      simp [h]
    · simp only [lookupCell, hi, if_false] at h
      exact List.mem_cons_of_mem _ (ih h)

/-- The support lists exactly the indices whose entries are not 0. -/
theorem Table.mem_support {n w : Nat} {t : Table n w} (h : t.wf = true) (i : Nat) :
    i ∈ t.support ↔ i < n ∧ t.get i ≠ 0#w := by
  obtain ⟨hr, hc⟩ := t.wf_iff.1 h
  by_cases hf : t.fill = .const 0#w
  · simp only [Table.support, hf, if_true, List.mem_map, List.mem_filter, bne_iff_ne, ne_eq]
    constructor
    · rintro ⟨c, ⟨hm, hv⟩, rfl⟩
      refine ⟨(hc c hm).1, ?_⟩
      simp [Table.get, lookupCell_of_mem hr hm, hv]
    · rintro ⟨_, hg⟩
      cases hl : lookupCell t.cells i with
      | none => simp [Table.get, hl, hf, Fill.at] at hg
      | some v => exact ⟨(i, v), ⟨mem_of_lookupCell hl, by simpa [Table.get, hl] using hg⟩, rfl⟩
  · simp [Table.support, hf]

theorem pairwise_of_risingCells {w : Nat} {l : List (Nat × BitVec w)} (h : risingCells l = true) :
    (l.map (·.1)).Pairwise (· < ·) := by
  induction l with
  | nil => simp
  | cons a rest ih =>
    rw [List.map_cons, List.pairwise_cons]
    refine ⟨fun i hi => ?_, ih ((risingCells_cons _ rest).1 h).2⟩
    obtain ⟨c, hc, rfl⟩ := List.mem_map.1 hi
    exact risingCells_forall h c hc

/-- The support is ascending. -/
theorem Table.support_ascending {n w : Nat} {t : Table n w} (h : t.wf = true) : t.support.Pairwise (· < ·) := by
  obtain ⟨hr, _⟩ := t.wf_iff.1 h
  by_cases hf : t.fill = .const 0#w
  · simp only [Table.support, hf, if_true]
    exact pairwise_of_risingCells (risingCells_filter _ hr)
  · simp only [Table.support, hf, if_false]
    exact List.Pairwise.filter _ (List.pairwise_lt_range)

theorem Table.support_nodup {n w : Nat} {t : Table n w} (h : t.wf = true) : t.support.Nodup :=
  (Table.support_ascending h).imp (fun hlt => ne_of_lt hlt)

end Sys2Proof.Machine
end

