-- ==== Sys2Proof/Machine/Asm.lean ====
section
/-! DEFINITION. The textual syntax of commands (R91): one command a line, a mnemonic and its operands separated by commas, numbers decimal or hexadecimal. -/

namespace Sys2Proof.Machine.Asm

/-- The mnemonic of a command (R85). -/
def mnemonic : Instr → String
  | .nop => "NOP"
  | .histClear => "HIST_CLEAR"
  | .histSample _ _ => "HIST_SAMPLE"
  | .buildTree => "BUILD_TREE"
  | .lenClear => "LEN_CLEAR"
  | .lenWrite _ _ => "LEN_WRITE"
  | .buildCodes => "BUILD_CODES"
  | .encStart => "ENC_START"
  | .encSample _ _ => "ENC_SAMPLE"
  | .encFinish => "ENC_FINISH"
  | .decStart => "DEC_START"
  | .decByte _ => "DEC_BYTE"
  | .decEnd => "DEC_END"

/-- The operands of a command in the order of R91. -/
def operands : Instr → List Nat
  | .nop => []
  | .histClear => []
  | .histSample m v => [m.toNat, v.toNat]
  | .buildTree => []
  | .lenClear => []
  | .lenWrite sym l => [sym.toNat, l.toNat]
  | .buildCodes => []
  | .encStart => []
  | .encSample m v => [m.toNat, v.toNat]
  | .encFinish => []
  | .decStart => []
  | .decByte b => [b.toNat]
  | .decEnd => []

/-- A sample command from its operands (R91): an omitted mask bit is 1. Operands must fit their fields (R83). -/
def sampleCommand (mk : Bool → BitVec 25 → Instr) : List Nat → Option Instr
  | [v] => if v < 2 ^ 25 then some (mk true (BitVec.ofNat 25 v)) else none
  | [m, v] => if m < 2 ∧ v < 2 ^ 25 then some (mk (m == 1) (BitVec.ofNat 25 v)) else none
  | _ => none

/-- A command without operands. -/
def plainCommand (i : Instr) : List Nat → Option Instr
  | [] => some i
  | _ => none

/-- The length command from its operands. -/
def lengthCommand : List Nat → Option Instr
  | [sym, l] => if sym < 2 ^ 17 ∧ l < 2 ^ 7 then some (.lenWrite (BitVec.ofNat 17 sym) (BitVec.ofNat 7 l)) else none
  | _ => none

/-- The byte command from its operand. -/
def byteCommand : List Nat → Option Instr
  | [b] => if b < 2 ^ 8 then some (.decByte (BitVec.ofNat 8 b)) else none
  | _ => none

/-- The command of a mnemonic and its operands (R91). -/
def assemble (name : String) (ops : List Nat) : Option Instr :=
  if name = "NOP" then plainCommand .nop ops
  else if name = "HIST_CLEAR" then plainCommand .histClear ops
  else if name = "HIST_SAMPLE" then sampleCommand .histSample ops
  else if name = "BUILD_TREE" then plainCommand .buildTree ops
  else if name = "LEN_CLEAR" then plainCommand .lenClear ops
  else if name = "LEN_WRITE" then lengthCommand ops
  else if name = "BUILD_CODES" then plainCommand .buildCodes ops
  else if name = "ENC_START" then plainCommand .encStart ops
  else if name = "ENC_SAMPLE" then sampleCommand .encSample ops
  else if name = "ENC_FINISH" then plainCommand .encFinish ops
  else if name = "DEC_START" then plainCommand .decStart ops
  else if name = "DEC_BYTE" then byteCommand ops
  else if name = "DEC_END" then plainCommand .decEnd ops
  else none

/-- The value of a digit in a base, hexadecimal letters in either case (DESIGN CHOICE, unsafe: log 17). -/
def digitValue (base : Nat) (c : Char) : Option Nat :=
  let d := if '0' ≤ c ∧ c ≤ '9' then c.toNat - '0'.toNat
    else if 'a' ≤ c ∧ c ≤ 'f' then c.toNat - 'a'.toNat + 10
    else if 'A' ≤ c ∧ c ≤ 'F' then c.toNat - 'A'.toNat + 10
    else base
  if d < base then some d else none

/-- The number that digits in a base spell, continuing from `acc`. -/
def digitsValue (base : Nat) : Nat → List Char → Option Nat
  | acc, [] => some acc
  | acc, c :: rest =>
    match digitValue base c with
    | some d => digitsValue base (acc * base + d) rest
    | none => none

/-- A number of R91: decimal, or hexadecimal after `0x`. -/
def numberValue : List Char → Option Nat
  | [] => none
  | ['0', 'x'] => none
  | '0' :: 'x' :: c :: rest => digitsValue 16 0 (c :: rest)
  | c :: rest => digitsValue 10 0 (c :: rest)

/-- The words of a line: maximal runs of characters other than blanks and commas (DESIGN CHOICE, unsafe:
log 17). -/
def splitWords : List Char → List Char → List (List Char)
  | acc, [] => if acc.isEmpty then [] else [acc.reverse]
  | acc, c :: rest =>
    if c = ' ' ∨ c = ',' then (if acc.isEmpty then splitWords [] rest else acc.reverse :: splitWords [] rest)
    else splitWords (c :: acc) rest

/-- The command on a line of text (R91). -/
def parseLine (line : List Char) : Option Instr :=
  match splitWords [] line with
  | [] => none
  | name :: ops =>
    match ops.mapM numberValue with
    | some ns => assemble (String.ofList name) ns
    | none => none

end Sys2Proof.Machine.Asm
end

