-- ==== Sys2Proof/Machine/Driver.lean ====
section
/-! DEFINITION. What the spec says of the host's side of the command interface: the sample mapping (R83), the pseudo-commands (R92), the orders of use (R157) and the boot order (R156). The core never sees a pseudo-command. -/

namespace Sys2Proof.Machine.Driver

/-- A grid sample with its mask bit (R5). -/
abbrev Sample := Bool × Int

/-- The operand `V` a host sends for a sample: a sample outside 0..2^25-1 becomes 0x1FF_FFFF, never wrapped (R83). -/
def sampleOperand (v : Int) : BitVec 25 := if 0 ≤ v ∧ v < 2 ^ 25 then BitVec.ofInt 25 v else 0x1FFFFFF

/-- `HSKIP v` (R92). -/
def hskip (v : BitVec 25) : List Instr := [.histSample false v]

/-- `ESKIP v` (R92). -/
def eskip (v : BitVec 25) : List Instr := [.encSample false v]

/-- `HISTOGRAM s / m` (R92). -/
def histogram (samples : List Sample) : List Instr :=
  .histClear :: samples.map (fun x => .histSample x.1 (sampleOperand x.2))

/-- `ENCODE s / m` (R92). -/
def encodeSamples (samples : List Sample) : List Instr :=
  .encStart :: samples.map (fun x => .encSample x.1 (sampleOperand x.2)) ++ [.encFinish]

/-- `COMPRESS s / m` (R92), the encode order of R157. -/
def compress (samples : List Sample) : List Instr :=
  histogram samples ++ [.buildTree, .buildCodes] ++ encodeSamples samples

/-- `LOAD_LENGTHS l0..l65536` (R92): one LEN_WRITE for every symbol whose length is not 0. -/
def loadLengths (lengths : List (BitVec 7)) : List Instr :=
  .lenClear :: (lengths.zipIdx.filter (fun c => c.1 != 0)).map (fun c => .lenWrite (BitVec.ofNat 17 c.2) c.1)

/-- `DECODE b1..bk` (R92). -/
def decodeBytes (bytes : List Byte) : List Instr := .decStart :: bytes.map .decByte ++ [.decEnd]

/-- `DECOMPRESS l / b` (R92), the decode order of R157. -/
def decompress (lengths : List (BitVec 7)) (bytes : List Byte) : List Instr :=
  loadLengths lengths ++ [.buildCodes] ++ decodeBytes bytes

/-- The host's write of a command to CMD (R56, R79). -/
def issue (base : Nat) (i : Instr) : Event := .write (base + 0x28) 4 (encode i)

/-- The host's accesses of the boot order (R156): a soft reset, and the reads of ID, ALPHA and PARAM. -/
def boot (base : Nat) : List Event :=
  [.write (base + 0x0C) 4 1, .read base 4, .read (base + 0x08) 4, .read (base + 0x04) 4]

end Sys2Proof.Machine.Driver
end

