-- ==== Sys2Proof/Tests/Slice0.lean ====
section
/-! SUPPORT. Tests of the model against 95_test_vectors.md and the rules' own examples, and a witness for the hypotheses of each statement. -/

namespace Sys2Proof.Tests

open Sys2Proof Sys2Proof.Machine Sys2Proof.Statements

/-- One view of the next state of an outcome. -/
def seen {α : Type} (f : State → α) : Host.Outcome State Fault Refusal → Option α
  | .next t => some (f t)
  | .fault _ => none
  | .refused _ => none

theorem seen_some {α : Type} {f : State → α} {o : Host.Outcome State Fault Refusal} {v : α} (h : seen f o = some v) :
    ∃ t, o = .next t ∧ f t = v := by
  cases o with
  | next t => exact ⟨t, rfl, Option.some.inj h⟩
  | fault r => cases h
  | refused r => cases h

/-- A state with one command word queued. -/
def withHead (s : State) (w : Word) : State := { s with cmdq := [w] }

/-- The state of vector H1: an empty histogram. -/
def h1 : State := { State.reset with count := emptyHistogram, histValid := true }

/-- A table of lengths from its entries that are not 0. -/
def lens (cells : List (Nat × BitVec 7)) : Table 65537 7 := { fill := .const 0, cells := cells }

/-- A state with valid lengths. -/
def loaded (cells : List (Nat × BitVec 7)) : State := { State.reset with len := lens cells, lenValid := true }

/-- The lengths of V1. -/
def v1Lens : State := loaded [(10, 2), (30, 2), (40, 2), (65536, 2)]

/-- The state of vector C1: the code table of V1, from host-written lengths. -/
def c1 : State :=
  { v1Lens with
    code := { fill := .const 0, cells := [(30, 1), (40, 2), (65536, 3)] }
    sorted := { fill := .free 3, cells := [(0, 10), (1, 30), (2, 40), (3, 65536)] }
    first := { fill := .const 0xFFFFFFFF, cells := [(2, 0)] }
    numCoded := 4, maxLen := 2, codesValid := true }

/-- C1 with a payload open. -/
def c1Enc : State := { c1 with encActive := true }

/-- C1 with a walk open. -/
def c1Dec : State := { c1 with decState := .run }

/-! ### Encoding (section 2) -/

/-- The words that section 2 calls ILLEGAL are not well formed: each check refuses one. -/
theorem test_ill_formed_words :
    (wellFormedWord 0x34000000#32 || wellFormedWord 0xFC000000#32 || wellFormedWord 0x00000001#32
      || wellFormedWord 0x06000000#32 || wellFormedWord 0x30000001#32 || wellFormedWord 0x15000000#32
      || wellFormedWord 0x2C000100#32) = false := by decide

/-- The decoder refuses them by name. -/
theorem test_illegal_by_name :
    decode 0x34000000#32 = .error (.reservedOpcode 0x0D#6) ∧ decode 0x00000001#32 = .error (.reservedBits .none)
      ∧ decode 0x15000000#32 = .error (.reservedBits .length) ∧ decode 0x2C000100#32 = .error (.reservedBits .byte)
      ∧ decodeBytes [0x00, 0x00, 0x00] = .error .tooShort := by decide

theorem test_decode_nop : decode 0x00000000#32 = .ok .nop := by decide
theorem test_decode_histClear : decode 0x04000000#32 = .ok .histClear := by decide
theorem test_decode_histSample : decode 0x0A00000A#32 = .ok (.histSample true 10#25) := by decide
theorem test_decode_histSample_masked : decode 0x08000014#32 = .ok (.histSample false 20#25) := by decide
theorem test_decode_buildTree : decode 0x0C000000#32 = .ok .buildTree := by decide
theorem test_decode_lenClear : decode 0x10000000#32 = .ok .lenClear := by decide
theorem test_decode_lenWrite : decode 0x14000502#32 = .ok (.lenWrite 10#17 2#7) := by decide
theorem test_decode_lenWrite_top : decode 0x14FFFFFF#32 = .ok (.lenWrite 131071#17 127#7) := by decide
theorem test_decode_buildCodes : decode 0x18000000#32 = .ok .buildCodes := by decide
theorem test_decode_encStart : decode 0x1C000000#32 = .ok .encStart := by decide
theorem test_decode_encSample : decode 0x2200000A#32 = .ok (.encSample true 10#25) := by decide
theorem test_decode_encSample_masked : decode 0x20000014#32 = .ok (.encSample false 20#25) := by decide
theorem test_decode_encFinish : decode 0x24000000#32 = .ok .encFinish := by decide
theorem test_decode_decStart : decode 0x28000000#32 = .ok .decStart := by decide
theorem test_decode_decByte : decode 0x2C00001B#32 = .ok (.decByte 0x1B#8) := by decide
theorem test_decode_decEnd : decode 0x30000000#32 = .ok .decEnd := by decide

/-- The encoder gives the words of section 2. -/
theorem test_encode :
    encode (.histSample true 10#25) = 0x0A00000A#32 ∧ encode (.lenWrite 65536#17 2#7) = 0x14800002#32
      ∧ encode (.encSample false 20#25) = 0x20000014#32 ∧ encode (.decByte 0x1B#8) = 0x2C00001B#32 := by decide

/-- R66: the bytes in lane order, lane 0 first. -/
theorem test_lanes : decodeBytes [0x02, 0x00, 0x80, 0x14, 0xAA] = .ok (.lenWrite 65536#17 2#7, [0xAA#8]) := by decide

theorem test_decodeTableWord : decodeTableWord 32 0x14000502 = some (.lenWrite 10#17 2#7) := by decide

/-- The placed word is the next one that runs. -/
theorem test_withFetchWord : seen (fun t => t.histValid) (step (State.reset.withFetchWord 32 0x04000000)) = some true := by
  decide

/-- R91: hexadecimal numbers, and an omitted mask bit. -/
theorem test_assembler :
    Asm.parseLine "HIST_SAMPLE 0x0A".toList = some (.histSample true 10#25)
      ∧ Asm.parseLine "LEN_WRITE 65536, 2".toList = some (.lenWrite 65536#17 2#7) := by decide

/-- R83: a negative sample and one that is too large are not wrapped. -/
theorem test_sample_operand :
    Driver.sampleOperand (-1) = 0x1FFFFFF#25 ∧ Driver.sampleOperand (2 ^ 25) = 0x1FFFFFF#25
      ∧ Driver.sampleOperand 65535 = 65535#25 := by decide

/-! ### Control, the window and errors (sections 4 and 11) -/

/-- N1 and N2. -/
theorem test_nop :
    seen (fun t => (t.cmdq, t.pIdle, t.status)) (step (withHead { State.reset with irqEn := 2 } 0)) =
      some ([], true, 0x01000000#32) := by decide

/-- N3, its last event. -/
theorem test_cmdq_overflow :
    seen (fun t => (t.errCode, t.errCmd, t.errArg, t.cmdq, t.status))
        (step { State.reset with cmdq := List.replicate 16 0, agenda := [.write 0x28 4 0x04000000] }) =
      some (0x0A#8, 0x04000000#32, 0#32, [], 0x00000002#32) := by decide

/-- R-3: ERR_CLEAR and OUT_FLUSH in one write. -/
theorem test_clear_and_flush :
    seen (fun t => (t.halt, t.errCode, t.outq, t.pErr, t.histValid))
        (step { h1 with halt := true, errCode := 3, pErr := true, outq := [1], agenda := [.write 0x0C 4 6] }) =
      some (false, 0#8, [], true, true) := by decide

/-- R-4: SOFT_RESET alone acts. -/
theorem test_soft_reset :
    seen (fun t => (t.status, t.pErr, t.numCoded)) (step { c1 with pErr := true, agenda := [.write 0x0C 4 7] }) =
      some (0#32, false, 0#17) := by decide

/-- E12: the hold with nine free slots. -/
theorem test_hold :
    seen (fun t => (t.cmdq.length, t.encBits))
        (step { c1Enc with cmdq := [0x2200000A, 0x2200000A], outq := List.replicate 7 0x40000000, encBits := 56 }) =
      some (2, 56#64) := by decide

/-- E1 on the table of C1. -/
theorem test_illegal_word :
    seen (fun t => (t.errCode, t.errCmd, t.errArg, t.status)) (step (withHead c1 0x34000000)) =
      some (0x01#8, 0x34000000#32, 0#32, 0x0000001A#32) := by decide

/-- ILLEGAL_CMD comes before SEQUENCE (R140). -/
theorem test_illegal_first :
    seen (fun t => t.errCode) (step (withHead State.reset 0x0C000001)) = some 0x01#8 := by decide

/-- The window reads of P1's table at index 65536, and the range of SORTED_RD. -/
theorem test_window :
    seen (fun t => t.busData) (step { c1 with tblIndex := 65536, agenda := [.read 0x3C 4] }) = some 3#32
      ∧ seen (fun t => t.busData) (step { c1 with tblIndex := 2, agenda := [.read 0x44 4] }) = some 40#32
      ∧ seen (fun t => t.busData) (step { c1 with tblIndex := 4, agenda := [.read 0x44 4] }) = some 0xFFFFFFFF#32
      ∧ seen (fun t => t.busData) (step { c1 with tblIndex := 65537, agenda := [.read 0x38 4] }) = some 0#32 := by decide

/-- PARAM, and an OUT read of an empty and of a filled OUTQ. -/
theorem test_registers :
    seen (fun t => t.busData) (step { State.reset with agenda := [.read 0x04 4] }) = some 0x0A101040#32
      ∧ seen (fun t => t.busData) (step { State.reset with agenda := [.read 0x2C 4] }) = some 0#32
      ∧ seen (fun t => (t.busData, t.outq)) (step { State.reset with outq := [5, 6], agenda := [.read 0x2C 4] }) =
          some (5#32, [6#32]) := by decide

/-- R67: a half-word access is refused. -/
theorem test_refused_access :
    seen (fun t => t.busData) (step { State.reset with agenda := [.read 0x2C 2] }) = none := by decide

/-- R98: the end of N1, the end of N3, and no end while a CMD write is still to come. -/
theorem test_run_ends :
    (∃ t, (withHead State.reset 0).runEndsWell t)
      ∧ { State.reset with halt := true, errCode := 0x0A }.endsWithFault
      ∧ ¬ { State.reset with agenda := [.write 0x28 4 0] }.ended := by
  refine ⟨?_, ⟨⟨.inl rfl, fun e he => nomatch he⟩, rfl⟩, fun h => ?_⟩
  · obtain ⟨t, ht, hv⟩ := seen_some (f := fun t => (t.halt, t.cmdq, t.agenda)) (o := core.run 1 (withHead State.reset 0))
      (v := (false, [], [])) (by decide)
    simp only [Prod.mk.injEq] at hv
    exact ⟨t, ⟨1, ht⟩, ⟨.inr hv.2.1, fun e he => by simp [hv.2.2] at he⟩, hv.1⟩
  · have := h.2 (.write 0x28 4 0) List.mem_cons_self
    cases this

/-! ### The histogram (section 5) -/

/-- H1. -/
theorem test_hist_clear :
    seen (fun t => (t.count.get 0, t.count.get 65536, t.histTotal, t.status)) (step (withHead State.reset 0x04000000)) =
      some (0#32, 1#32, 0#32, 0x00000004#32) := by decide

/-- H2 and H4. -/
theorem test_hist_sample :
    seen (fun t => (t.count.get 10, t.histTotal)) (step (withHead h1 0x0A00000A)) = some (1#32, 1#32)
      ∧ seen (fun t => (t.errCode, t.errArg, t.status)) (step (withHead h1 0x0A010000)) =
          some (0x03#8, 65536#32, 0x00000006#32) := by decide

/-- H6, H7 and H9. -/
theorem test_hist_sample_checks :
    seen (fun t => t.halt) (step (withHead h1 0x08010000)) = some false
      ∧ seen (fun t => (t.errCode, t.errArg, t.histTotal)) (step (withHead { h1 with histTotal := 0xFFFFFFFE } 0x0A000003)) =
          some (0x06#8, 3#32, 0xFFFFFFFE#32)
      ∧ seen (fun t => t.errCode) (step (withHead State.reset 0x0A010000)) = some 0x02#8 := by decide

/-! ### The tree (section 6) -/

/-- A histogram from its sample counts. -/
def hist (cells : List (Nat × BitVec 32)) (total : BitVec 32) : State :=
  { State.reset with count := { fill := .const 0, cells := cells ++ [(65536, 1)] }, histTotal := total, histValid := true }

/-- The lengths of V11, in whose merges the height decides twice. -/
theorem test_build_tree :
    seen (fun t => (t.len.cells, t.status))
        (step (withHead (hist [(0, 1), (1, 1), (2, 2), (3, 3), (4, 5), (5, 8)] 20) 0x0C000000)) =
      some ([(0, 4#7), (1, 4#7), (2, 3#7), (3, 3#7), (4, 2#7), (5, 2#7), (65536, 3#7)], 0x0000000C#32) := by decide

/-- T3, and V6 with its tie. -/
theorem test_build_tree_small :
    seen (fun t => t.len.cells) (step (withHead h1 0x0C000000)) = some [(65536, 1#7)]
      ∧ seen (fun t => t.len.cells) (step (withHead (hist [(5, 1), (6, 1)] 2) 0x0C000000)) =
          some [(5, 2#7), (6, 2#7), (65536, 1#7)] := by decide

/-! ### The codes (section 7) -/

theorem test_len_clear :
    seen (fun t => (t.len.get 10, t.status)) (step (withHead c1 0x10000000)) = some (0#7, 0x00000008#32) := by decide

/-- C2, C3, C4 and C6. -/
theorem test_len_write_checks :
    seen (fun t => (t.errCode, t.errArg)) (step (withHead v1Lens 0x14800081)) = some (0x04#8, 65537#32)
      ∧ seen (fun t => (t.errCode, t.errArg)) (step (withHead v1Lens 0x14000541)) = some (0x04#8, 10#32)
      ∧ seen (fun t => (t.errCode, t.errArg)) (step (withHead v1Lens 0x14FFFFFF)) = some (0x04#8, 131071#32)
      ∧ seen (fun t => t.errCode) (step (withHead State.reset 0x14000502)) = some 0x02#8 := by decide

/-- C5, with the flag that it clears; a length of 0 removes the code. -/
theorem test_len_write :
    seen (fun t => (t.len.get 65536, t.codesValid)) (step (withHead c1 0x14800040)) = some (64#7, false)
      ∧ seen (fun t => t.len.cells) (step (withHead c1 0x14000500)) = some [(30, 2#7), (40, 2#7), (65536, 2#7)] := by decide

/-- C12. -/
theorem test_build_codes :
    seen (fun t => t.code.cells) (step (withHead (loaded [(0, 64), (1, 64), (2, 63), (65536, 62)]) 0x18000000)) =
      some [(1, 1#64), (2, 1#64), (65536, 1#64)]
      ∧ seen (fun t => t.sorted.cells) (step (withHead (loaded [(0, 64), (1, 64), (2, 63), (65536, 62)]) 0x18000000)) =
          some [(0, 65536#17), (1, 2#17), (2, 0#17), (3, 1#17)]
      ∧ seen (fun t => t.first.cells) (step (withHead (loaded [(0, 64), (1, 64), (2, 63), (65536, 62)]) 0x18000000)) =
          some [(62, 0#32), (63, 1#32), (64, 2#32)] := by decide +kernel

/-- C8 and C9. -/
theorem test_build_codes_fails :
    seen (fun t => (t.errCode, t.errArg, t.numCoded, t.codesValid))
        (step (withHead (loaded [(0, 1), (1, 1), (2, 1)]) 0x18000000)) = some (0x08#8, 2#32, 3#17, false)
      ∧ seen (fun t => (t.errCode, t.errArg)) (step (withHead (loaded [(0, 2), (1, 1)]) 0x18000000)) =
          some (0x08#8, 1#32) := by decide +kernel

/-! ### The encoder (section 8) -/

theorem test_enc_start :
    seen (fun t => (t.encPendWord, t.encBits, t.status)) (step (withHead { c1 with encAcc := 0x80, encNacc := 1 } 0x1C000000)) =
      some (0#32, 0#64, 0x00000038#32) := by decide

/-- V1's third sample, and E3's. -/
theorem test_enc_sample :
    seen (fun t => (t.encPendWord, t.encBits, t.outq))
        (step (withHead { c1Enc with encAcc := 0x10, encNacc := 4, encBits := 4 } 0x22000028)) =
      some (0x1806#32, 6#64, [])
      ∧ seen (fun t => (t.errCode, t.errArg, t.encActive, t.encPendWord))
          (step (withHead { c1Enc with encNacc := 2, encBits := 2 } 0x22000014)) = some (0x05#8, 20#32, false, 2#32) := by
  decide

/-- V1's finish, and E6's second one. -/
theorem test_enc_finish :
    seen (fun t => (t.outq, t.encBits, t.encBytes, t.pEncDone))
        (step (withHead { c1Enc with encAcc := 0x18, encNacc := 6, encBits := 6 } 0x24000000)) =
      some ([0x4000001B#32, 0xC0000000#32], 8#64, 1#64, true)
      ∧ seen (fun t => t.errCode) (step (withHead c1 0x24000000)) = some 0x02#8 := by decide

/-! ### The decoder (section 9) -/

theorem test_dec_start :
    seen (fun t => (t.decRl, t.status)) (step (withHead { c1 with decRl := 1 } 0x28000000)) = some (0#7, 0x00000058#32) := by
  decide

/-- V1's byte. -/
theorem test_dec_byte :
    seen (fun t => (t.outq, t.decState, t.decRc, t.decSyms, t.decBits)) (step (withHead c1Dec 0x2C00001B)) =
      some ([0x8000000A#32, 0x8000001E#32, 0x80000028#32, 0xC0000001#32], .done, 3#64, 3#32, 8#64) := by decide

/-- D11: no code at all. -/
theorem test_dec_byte_no_match :
    seen (fun t => (t.decState, t.decBits, t.status))
        (step (withHead
          { loaded [] with
            codesValid := true, decState := .run, code := .const 65537 64 0, first := .const 65 32 0xFFFFFFFF } 0x2C000000)) =
      some (.noMatch, 1#64, 0x00000098#32) := by decide

/-- D4's end, and D5's. -/
theorem test_dec_end :
    seen (fun t => (t.errCode, t.errArg, t.decState)) (step (withHead { c1Dec with decSyms := 4 } 0x30000000)) =
      some (0x09#8, 4#32, .idle)
      ∧ seen (fun t => (t.halt, t.decState)) (step (withHead { c1 with decState := .done } 0x30000000)) =
          some (false, .idle) := by decide

/-! ### Witnesses: states and operands that meet the hypotheses of the statements

One theorem for each statement with hypotheses, and for each of its clauses. -/

theorem get_le {w : Nat} {n : Nat} {t : Table n w} {b : Nat} (hf : t.fill = .const 0) (hc : ∀ c ∈ t.cells, c.2.toNat ≤ b)
    (i : Nat) : (t.get i).toNat ≤ b := by
  unfold Table.get
  cases h : lookupCell t.cells i with
  | none => simp [hf, Fill.at]
  | some v => exact hc _ (mem_of_lookupCell h)

/-- An entry that is not 0 is listed. -/
theorem mem_of_get {w : Nat} {n : Nat} {t : Table n w} (hf : t.fill = .const 0) {i : Nat} (h : t.get i ≠ 0) :
    (i, t.get i) ∈ t.cells := by
  unfold Table.get at h ⊢
  cases hl : lookupCell t.cells i with
  | none => simp [hl, hf, Fill.at] at h
  | some v => exact mem_of_lookupCell hl

theorem v1_le (i : Nat) : (v1Lens.len.get i).toNat ≤ 64 := get_le rfl (by decide) i

theorem c1_lengthsSound : c1.lengthsSound := ⟨fun _ => ⟨rfl, v1_le⟩, by decide, fun _ => rfl⟩

theorem c1_codesSound : c1.codesSound := by
  intro _
  refine ⟨by decide +kernel, by decide +kernel, ?_, by decide +kernel, by decide +kernel⟩
  intro i hi
  have : i < 4 := hi
  interval_cases i <;> decide +kernel

theorem h1_histogramSound : h1.histogramSound := by
  refine fun _ => ⟨rfl, by decide, ?_, by decide⟩
  refine Finset.sum_eq_zero fun sym hs => ?_
  have : sym ≠ 65536 := by simp at hs; omega
  simp [h1, emptyHistogram, Table.get_set, Config.eos, this]

theorem witness_EveryWordCommandOrIllegal :
    wellFormedWord 0x0BFFFFFF#32 = true ∧ wellFormedWord 0x34000000#32 = false
      ∧ (withHead State.reset 0x34000000).agenda = [] ∧ (withHead State.reset 0x34000000).halt = false
      ∧ (withHead State.reset 0x34000000).cmdq = [0x34000000] := by decide

theorem witness_IllegalHeadHalts :
    ∃ (s : State) (w : Word) (q : List Word),
      s.agenda = [] ∧ s.halt = false ∧ s.cmdq = w :: q ∧ wellFormedWord w = false :=
  ⟨withHead State.reset 0xFC000000, 0xFC000000, [], by decide⟩

/-- A command that may push, with ten free slots exactly. -/
theorem witness_StepRunsHeadCommand :
    ∃ (s : State) (i : Instr) (w : Word) (q : List Word),
      s.halt = false ∧ s.cmdq = w :: q ∧ decode w = .ok i ∧ i.wellFormed = true ∧ i.mayPush = true
        ∧ s.outq.length + 10 = s.params.outqDepth.toNat ∧ s.agenda = [.core] :=
  ⟨{ withHead c1Enc 0x24000000 with outq := List.replicate 6 0, agenda := [.core] }, .encFinish, 0x24000000, [], by decide⟩

/-- A core that holds with nine free slots. -/
def held : State := { withHead c1Enc 0x2200000A with outq := List.replicate 7 0x40000000 }

theorem held_holding (agenda : List Event) : holding { held with agenda := agenda } :=
  ⟨rfl, .encSample true 10, 0x2200000A, [], rfl, by decide, rfl, (by decide : 16 < 17)⟩

/-- R98: with nothing but a poll of STATUS to come, the hold of E12 is a hang; with a read of OUT to come it is none. -/
theorem test_hang :
    { held with agenda := [.read 0x10 4] }.hangs ∧ ¬ { held with agenda := [.read 0x2C 4] }.hangs := by
  refine ⟨⟨⟨rfl, .encSample true 10, 0x2200000A, [], rfl, by decide, by decide⟩, by decide⟩, fun h => ?_⟩
  have := h.2 (.read 0x2C 4) List.mem_cons_self
  revert this
  decide

theorem enabled_nop (s : State) (h : s.halt = false) (hc : s.cmdq = [0]) : enabled s := by
  refine ⟨h, 0, [], hc, fun i hi hm => ?_⟩
  rw [show decode 0 = .ok .nop by decide] at hi
  cases hi
  cases hm

theorem witness_CoreTakesStepWhenEnabled :
    enabled (withHead State.reset 0) ∧ holding held ∧ State.reset.quiescent :=
  ⟨enabled_nop _ rfl rfl, held_holding [], .inr rfl⟩

/-- A read of OUT ends the hold. -/
theorem witness_hold_ends_by_read :
    ∃ s t : State, holding s ∧ step s = .next t ∧ enabled t := by
  obtain ⟨t, ht, hv⟩ := seen_some (f := fun t => (t.halt, t.cmdq, t.outq.length + 10, t.params.outqDepth.toNat))
    (o := step { held with agenda := [.read 0x2C 4] }) (v := (false, [0x2200000A], 16, 16)) (by decide)
  simp only [Prod.mk.injEq] at hv
  exact ⟨_, t, held_holding _, ht, hv.1, _, _, hv.2.1, fun _ _ _ => by omega⟩

/-- OUT_FLUSH ends the hold. -/
theorem witness_hold_ends_by_flush :
    ∃ s t : State, holding s ∧ step s = .next t ∧ enabled t := by
  obtain ⟨t, ht, hv⟩ := seen_some (f := fun t => (t.halt, t.cmdq, t.outq.length + 10, t.params.outqDepth.toNat))
    (o := step { held with agenda := [.write 0x0C 4 4] }) (v := (false, [0x2200000A], 10, 16)) (by decide)
  simp only [Prod.mk.injEq] at hv
  exact ⟨_, t, held_holding _, ht, hv.1, _, _, hv.2.1, fun _ _ _ => by omega⟩

/-- A CMD write wakes an empty core; ERR_CLEAR one that is halted. -/
theorem witness_quiescence_ends :
    (∃ s t : State, s.quiescent ∧ step s = .next t ∧ enabled t)
      ∧ ∃ s t : State, s.halt = true ∧ s.quiescent ∧ step s = .next t ∧ enabled t := by
  constructor
  · obtain ⟨t, ht, hv⟩ := seen_some (f := fun t => (t.halt, t.cmdq))
      (o := step { State.reset with agenda := [.write 0x28 4 0] }) (v := (false, [0])) (by decide)
    simp only [Prod.mk.injEq] at hv
    exact ⟨_, t, .inr rfl, ht, enabled_nop t hv.1 hv.2⟩
  · obtain ⟨t, ht, hv⟩ := seen_some (f := fun t => (t.halt, t.cmdq))
      (o := step { State.reset with halt := true, cmdq := [0], agenda := [.write 0x0C 4 2] }) (v := (false, [0])) (by decide)
    simp only [Prod.mk.injEq] at hv
    exact ⟨_, t, rfl, .inl rfl, ht, enabled_nop t hv.1 hv.2⟩

theorem witness_HoldEndsWithRead :
    ∃ (s : State) (i : Instr) (w v : Word) (q o : List Word),
      s.halt = false ∧ s.cmdq = w :: q ∧ decode w = .ok i ∧ i.mayPush = true ∧ s.outq = v :: o
        ∧ o.length + 10 = s.params.outqDepth.toNat :=
  ⟨held, .encSample true 10, 0x2200000A, 0x40000000, [], List.replicate 6 0x40000000, by decide⟩

/-- After reset every precondition of R134 is false. -/
theorem witness_SequencePreconditions :
    ∃ (s : State) (w : Word) (q : List Word), s.cmdq = w :: q ∧ s.histValid = false ∧ s.lenValid = false
      ∧ s.codesValid = false ∧ s.encActive = false ∧ s.decState = .idle :=
  ⟨withHead State.reset 0x0C000000, 0x0C000000, [], by decide⟩

theorem witness_NopRule :
    (withHead State.reset 0).cmdq = [0] ∧ (∃ s : State, s.halt = true ∧ s.agenda = [])
      ∧ ∃ s : State, s.halt = false ∧ s.cmdq.length = s.params.cmdqDepth.toNat :=
  ⟨rfl, ⟨{ State.reset with halt := true }, by decide⟩, { State.reset with cmdq := List.replicate 16 0 }, by decide⟩

/-- A queued command, as HIST_CLEAR and LEN_CLEAR need it, in a state with no valid table. -/
theorem witness_HistClearRule_LenClearRule :
    (withHead State.reset 0x04000000).cmdq = [0x04000000] ∧ (withHead State.reset 0x10000000).cmdq = [0x10000000] :=
  ⟨rfl, rfl⟩

theorem witness_HistSampleRule :
    (withHead h1 0x0A00FFFF).cmdq = [0x0A00FFFF] ∧ (withHead h1 0x0A00FFFF).histValid = true
      ∧ (65535#25).toNat ≤ 65535 ∧ h1.histTotal ≠ 0xFFFFFFFE#32 ∧ 65535 < (65536#25).toNat
      ∧ { h1 with histTotal := 0xFFFFFFFE }.histTotal = 0xFFFFFFFE#32 ∧ State.reset.histValid = false := by decide

theorem witness_BuildTreeIsHuffman_BuildTreeSucceeds :
    ∃ (s : State) (w : Word) (q : List Word),
      s.cmdq = w :: q ∧ s.histValid = true ∧ s.histogramSound ∧ s.count.wf = true :=
  ⟨withHead h1 0x0C000000, 0x0C000000, [], rfl, rfl, h1_histogramSound, by decide⟩

/-- One counted sample, of the largest value. -/
def oneSample : State := withHead (hist [(65535, 1)] 1) 0x0C000000

theorem oneSample_only (sym : Nat) (h : sym < 65536) (hv : sym ≠ 65535) : oneSample.count.get sym = 0 := by
  have : sym ≠ 65536 := by omega
  simp [oneSample, withHead, hist, Table.get, lookupCell, hv, this, Fill.at]

theorem h1_no_sample (sym : Nat) (h : sym < 65536) : h1.count.get sym = 0 := by
  have : sym ≠ 65536 := by omega
  simp [h1, emptyHistogram, Table.get_set, Config.eos, this]

theorem witness_DegenerateTree :
    (∃ (s : State) (w : Word) (q : List Word), s.cmdq = w :: q ∧ s.histValid = true ∧ s.count.wf = true
        ∧ ∀ sym < 65536, s.count.get sym = 0)
      ∧ ∃ (s : State) (w : Word) (q : List Word) (v : Nat), s.cmdq = w :: q ∧ s.histValid = true ∧ s.count.wf = true
          ∧ v < 65536 ∧ s.count.get v ≠ 0 ∧ ∀ sym < 65536, sym ≠ v → s.count.get sym = 0 :=
  ⟨⟨withHead h1 0x0C000000, 0x0C000000, [], rfl, rfl, by decide, h1_no_sample⟩,
    oneSample, 0x0C000000, [], 65535, rfl, rfl, by decide, by decide, by decide, oneSample_only⟩

theorem witness_TreeKraftEquality :
    (∃ s t : State, s.histValid = true ∧ s.count.wf = true ∧ exec .buildTree s = .next t ∧ t.lenValid = true
        ∧ ∃ sym < 65536, s.count.get sym ≠ 0)
      ∧ ∃ s t : State, s.histValid = true ∧ s.count.wf = true ∧ exec .buildTree s = .next t ∧ t.lenValid = true
          ∧ ∀ sym < 65536, s.count.get sym = 0 := by
  constructor
  · obtain ⟨t, ht, hv⟩ := seen_some (f := fun t => t.lenValid) (o := exec .buildTree oneSample) (v := true) (by decide)
    exact ⟨oneSample, t, rfl, by decide, ht, hv, 65535, by decide, by decide⟩
  · obtain ⟨t, ht, hv⟩ := seen_some (f := fun t => t.lenValid) (o := exec .buildTree (withHead h1 0x0C000000)) (v := true)
      (by decide)
    exact ⟨_, t, rfl, by decide, ht, hv, h1_no_sample⟩

/-- LEN_WRITE's clauses at the limits of its operands, and the illegal words of its opcode. -/
theorem witness_LenWriteRule :
    (withHead v1Lens 0x14800040).cmdq = [0x14800040] ∧ v1Lens.lenValid = true ∧ State.reset.lenValid = false
      ∧ (65536#17).toNat ≤ 65536 ∧ (64#7).toNat ≤ 64 ∧ 65536 < (65537#17).toNat ∧ 64 < (65#7).toNat
      ∧ opcodeField 0x15000000#32 = 0x05 ∧ (0x15000000#32).extractLsb' 24 2 ≠ 0 := by decide

theorem witness_SortedTablesRule :
    ∃ (s : State) (w : Word) (q : List Word), s.cmdq = w :: q ∧ s.lenValid = true ∧ s.len.wf = true :=
  ⟨withHead v1Lens 0x18000000, 0x18000000, [], by decide⟩

/-- A lone code of length 1, for EOS. -/
def lone : State := withHead (loaded [(65536, 1)]) 0x18000000

theorem lone_get (sym : Nat) (h : sym ≠ 65536) : lone.len.get sym = 0 := by
  simp [lone, withHead, loaded, lens, Table.get, lookupCell, h, Fill.at]

theorem lone_before : kraftBefore lone.len 65536 = 0 := by
  refine Finset.sum_eq_zero fun x hx => ?_
  by_cases h : x = 65536
  · subst h
    decide
  · rw [if_neg]
    simp [lone_get x h]

theorem lone_assignable (sym : Nat) (h : lone.len.get sym ≠ 0) : assignable lone.len sym := by
  have : sym = 65536 := by
    by_contra hne
    exact h (lone_get sym hne)
  subst this
  exact ⟨by rw [lone_before]; exact dvd_zero _, by rw [lone_before]; decide⟩

/-- The lengths of C9: symbol 1 cannot be given its code. -/
def c9 : State := withHead (loaded [(0, 2), (1, 1)]) 0x18000000

theorem c9_get (sym : Nat) (h0 : sym ≠ 0) (h1 : sym ≠ 1) : c9.len.get sym = 0 := by
  simp [c9, withHead, loaded, lens, Table.get, lookupCell, h0, h1, Fill.at]

theorem c9_before_zero : kraftBefore c9.len 0 = 0 := by
  refine Finset.sum_eq_zero fun x hx => ?_
  by_cases h0 : x = 0
  · subst h0
    decide
  · by_cases h1 : x = 1
    · subst h1
      decide
    · rw [if_neg]
      simp [c9_get x h0 h1]

theorem c9_before_one : kraftBefore c9.len 1 = 2 ^ 62 := by
  unfold kraftBefore
  rw [Finset.sum_eq_single 0]
  · decide
  · intro x hx h0
    by_cases h1 : x = 1
    · subst h1
      decide
    · rw [if_neg]
      simp [c9_get x h0 h1]
  · simp

theorem witness_CodeAssignExactly :
    (∃ (s : State) (w : Word) (q : List Word), s.cmdq = w :: q ∧ s.lenValid = true ∧ s.len.wf = true
        ∧ (∀ sym < 65537, (s.len.get sym).toNat ≤ 64)
        ∧ (∃ sym < 65537, s.len.get sym ≠ 0) ∧ ∀ sym < 65537, s.len.get sym ≠ 0 → assignable s.len sym)
      ∧ ∃ (s : State) (w : Word) (q : List Word) (sym : Nat), s.cmdq = w :: q ∧ s.lenValid = true ∧ s.len.wf = true
        ∧ (∀ sym < 65537, (s.len.get sym).toNat ≤ 64)
        ∧ sym < 65537 ∧ s.len.get sym ≠ 0 ∧ ¬ assignable s.len sym
        ∧ ∀ x < 65537, s.len.get x ≠ 0 →
            ((s.len.get sym).toNat < (s.len.get x).toNat ∨ (s.len.get x = s.len.get sym ∧ x < sym)) →
              assignable s.len x := by
  constructor
  · exact ⟨lone, 0x18000000, [], rfl, rfl, by decide, fun sym _ => get_le rfl (by decide) sym, ⟨65536, by decide, by decide⟩,
      fun sym _ h => lone_assignable sym h⟩
  · refine ⟨c9, 0x18000000, [], 1, rfl, rfl, by decide, fun sym _ => get_le rfl (by decide) sym, by decide, by decide, ?_, ?_⟩
    · rintro ⟨h, -⟩
      rw [c9_before_one] at h
      revert h
      decide
    · intro x _ hx hb
      have h0 : x = 0 := by
        by_contra h0
        by_cases h1 : x = 1
        · subst h1
          revert hb
          decide
        · exact hx (c9_get x h0 h1)
      subst h0
      exact ⟨by rw [c9_before_zero]; exact dvd_zero _, by rw [c9_before_zero]; decide⟩

/-- The lengths of V6. -/
def v6 : State := withHead (loaded [(5, 2), (6, 2), (65536, 1)]) 0x18000000

/-- Two symbols of one length, and two of different lengths. -/
theorem witness_CodesPrefixFree :
    ∃ s t : State, s.lenValid = true ∧ s.len.wf = true ∧ (∀ sym < 65537, (s.len.get sym).toNat ≤ 64)
      ∧ exec .buildCodes s = .next t ∧ t.codesValid = true
      ∧ t.len.get 5 ≠ 0 ∧ t.len.get 6 ≠ 0 ∧ t.len.get 65536 ≠ 0 ∧ t.len.get 5 = t.len.get 6
      ∧ (t.len.get 65536).toNat < (t.len.get 5).toNat := by
  obtain ⟨t, ht, hv⟩ := seen_some
    (f := fun t => (t.codesValid, t.len.get 5, t.len.get 6, t.len.get 65536)) (o := exec .buildCodes v6)
    (v := (true, 2, 2, 1)) (by decide +kernel)
  simp only [Prod.mk.injEq] at hv
  obtain ⟨h0, h5, h6, he⟩ := hv
  exact ⟨v6, t, rfl, by decide, fun sym _ => get_le rfl (by decide) sym, ht, h0, by rw [h5]; decide, by rw [h6]; decide,
    by rw [he]; decide, by rw [h5, h6], by rw [h5, he]; decide⟩

/-- Two states with the same lengths and different code tables. -/
theorem witness_CodesDependOnLengthsAlone :
    ∃ s s' t t' : State, s.len = s'.len ∧ s.len.wf = true ∧ s.lenValid = true ∧ s'.lenValid = true
      ∧ exec .buildCodes s = .next t ∧ exec .buildCodes s' = .next t' ∧ s.sorted ≠ s'.sorted ∧ t.codesValid = true := by
  obtain ⟨t, ht, hv⟩ := seen_some (f := fun t => t.codesValid) (o := exec .buildCodes v6) (v := true) (by decide +kernel)
  obtain ⟨t', ht', -⟩ := seen_some (f := fun t => t.codesValid)
    (o := exec .buildCodes { v6 with sorted := .const 65537 17 7 }) (v := true) (by decide +kernel)
  exact ⟨v6, { v6 with sorted := .const 65537 17 7 }, t, t', rfl, by decide, rfl, rfl, ht, ht', by decide, hv⟩

/-- Two codes of length 1: the Kraft equality. -/
def pair : State := withHead (loaded [(7, 1), (65536, 1)]) 0x18000000

theorem pair_kraft : kraft pair.len = 2 ^ 64 := by
  unfold kraft
  rw [← Finset.sum_subset (s₁ := {7, 65536}) (by intro x hx; simp at hx ⊢; omega)]
  · decide
  · intro x _ hx
    simp only [Finset.mem_insert, Finset.mem_singleton, not_or] at hx
    rw [if_pos]
    simp [pair, withHead, loaded, lens, Table.get, lookupCell, hx.1, hx.2, Fill.at]

theorem witness_FullCodeBuilds :
    (∃ (s : State) (w : Word) (q : List Word), s.cmdq = w :: q ∧ s.lenValid = true ∧ s.len.wf = true
        ∧ (∀ sym < 65537, (s.len.get sym).toNat ≤ 64) ∧ kraft s.len = 2 ^ 64)
      ∧ ∃ (s : State) (w : Word) (q : List Word), s.cmdq = w :: q ∧ s.lenValid = true ∧ s.len.wf = true
        ∧ (∀ sym < 65537, (s.len.get sym).toNat ≤ 64)
        ∧ ∃ sym < 65537, s.len.get sym = 1 ∧ ∀ x < 65537, x ≠ sym → s.len.get x = 0 :=
  ⟨⟨pair, 0x18000000, [], rfl, rfl, by decide, fun sym _ => get_le rfl (by decide) sym, pair_kraft⟩,
    lone, 0x18000000, [], rfl, rfl, by decide, fun sym _ => get_le rfl (by decide) sym, 65536, by decide, by decide,
    fun x _ h => lone_get x h⟩

theorem witness_TotalBitsRule :
    (∃ s t : State, s.lenValid = true ∧ s.len.wf = true ∧ exec .buildCodes s = .next t ∧ t.codesValid = true
        ∧ s.histValid = true)
      ∧ ∃ s t : State, s.lenValid = true ∧ s.len.wf = true ∧ exec .buildCodes s = .next t ∧ t.codesValid = true
        ∧ s.histValid = false := by
  obtain ⟨t, ht, hv⟩ := seen_some (f := fun t => t.codesValid) (o := exec .buildCodes { pair with count := emptyHistogram, histValid := true })
    (v := true) (by decide +kernel)
  obtain ⟨t', ht', hv'⟩ := seen_some (f := fun t => t.codesValid) (o := exec .buildCodes pair) (v := true) (by decide +kernel)
  exact ⟨⟨_, t, rfl, by decide, ht, hv, rfl⟩, pair, t', rfl, by decide, ht', hv', rfl⟩

theorem witness_EncStartRule_DecStartRule :
    (withHead c1 0x1C000000).cmdq = [0x1C000000] ∧ c1.codesValid = true ∧ State.reset.codesValid = false := ⟨rfl, rfl, rfl⟩

/-- The clauses of ENC_SAMPLE: a coded value, one without a code, the largest value, and EOS. -/
theorem witness_EncSampleRule :
    (withHead c1Enc 0x2200000A).cmdq = [0x2200000A] ∧ c1Enc.codesValid = true ∧ c1Enc.encActive = true
      ∧ c1.encActive = false ∧ c1Enc.len.get (10#25).toNat ≠ 0 ∧ c1Enc.len.get (65535#25).toNat = 0
      ∧ (65535#25).toNat ≤ 65535 ∧ 65535 < (65536#25).toNat := by decide

theorem pending_six : ({ c1Enc with encAcc := 0x18, encNacc := 6 } : State).pendingSound := by
  intro j hj
  have : j < 2 := by
    have : j + 6 ≤ 7 := hj
    omega
  interval_cases j <;> decide

/-- The clauses of ENC_FINISH: six pending bits and an EOS code, and no EOS code. -/
theorem witness_EncFinishRule :
    (∃ (s : State) (w : Word) (q : List Word), s.cmdq = w :: q ∧ s.codesValid = true ∧ s.encActive = true
        ∧ s.len.get 65536 ≠ 0 ∧ s.pendingSound)
      ∧ (∃ (s : State) (w : Word) (q : List Word), s.cmdq = w :: q ∧ s.codesValid = true ∧ s.encActive = true
        ∧ s.len.get 65536 = 0)
      ∧ ∃ (s : State) (w : Word) (q : List Word), s.cmdq = w :: q ∧ s.encActive = false :=
  ⟨⟨withHead { c1Enc with encAcc := 0x18, encNacc := 6 } 0x24000000, 0x24000000, [], rfl, rfl, rfl, by decide, pending_six⟩,
    ⟨withHead { c1Enc with len := lens [] } 0x24000000, 0x24000000, [], rfl, rfl, rfl, rfl⟩,
    withHead c1 0x24000000, 0x24000000, [], rfl, rfl⟩

/-- Two samples of V1. -/
theorem witness_PayloadIsPacked :
    ∃ (s : State) (samples : List (BitVec 25)), s.codesValid = true ∧ samples ≠ []
      ∧ (∀ v ∈ samples, v.toNat < 65536 ∧ s.len.get v.toNat ≠ 0) ∧ s.len.get 65536 ≠ 0 :=
  ⟨c1, [10, 30], rfl, by decide, List.forall_mem_cons.2 ⟨⟨by decide, by decide⟩, List.forall_mem_cons.2
    ⟨⟨by decide, by decide⟩, fun _ h => nomatch h⟩⟩, by decide⟩

/-- One bit before the end of 10's code, a bit that ends it; and a first bit, which ends no code. -/
theorem witness_DecBitFindsCode :
    (∃ (s : State) (b : Bool) (sym : Nat), s.decState = .run ∧ s.codesValid = true ∧ s.lengthsSound ∧ s.codesSound
        ∧ s.len.wf = true ∧ s.walkSound ∧ sym < 65537 ∧ (s.len.get sym).toNat = s.decRl.toNat + 1
        ∧ (s.code.get sym).toNat = 2 * s.decRc.toNat + b.toNat)
      ∧ (∃ (s : State) (b : Bool), s.decState = .run ∧ s.codesValid = true ∧ s.lengthsSound ∧ s.codesSound
        ∧ s.len.wf = true ∧ s.walkSound
        ∧ ∀ sym < 65537, (s.len.get sym).toNat = s.decRl.toNat + 1 →
            (s.code.get sym).toNat ≠ 2 * s.decRc.toNat + b.toNat)
      ∧ ∃ s : State, s.decState ≠ .run := by
  refine ⟨⟨{ c1Dec with decRl := 1 }, true, 30, rfl, rfl, c1_lengthsSound, c1_codesSound, by decide, ?_, by decide, by decide,
    by decide⟩, ⟨c1Dec, true, rfl, rfl, c1_lengthsSound, c1_codesSound, by decide, ?_, ?_⟩, State.reset, by decide⟩
  · exact ⟨by decide, fun _ => by decide, by decide⟩
  · exact ⟨by decide, fun _ => by decide, by decide⟩
  · intro sym _ h
    have h1 : (c1Dec.len.get sym).toNat = 1 := h
    have hm := mem_of_get (t := c1Dec.len) rfl (i := sym) (by intro h0; rw [h0] at h1; exact absurd h1 (by decide))
    have : ∀ c ∈ c1Dec.len.cells, c.2.toNat ≠ 1 := by decide
    exact absurd h1 (this _ hm)

/-- The clauses of DEC_BYTE: an open walk, a finished one, none, and the illegal words of its opcode. -/
theorem witness_DecByteRule :
    (withHead c1Dec 0x2C00001B).cmdq = [0x2C00001B] ∧ c1Dec.codesValid = true ∧ c1Dec.decState ≠ .idle
      ∧ c1.decState = .idle ∧ { c1 with decState := .done }.decState = .done
      ∧ { c1 with decState := .noMatch }.decState = .noMatch
      ∧ opcodeField 0x2C000100#32 = 0x0B ∧ (0x2C000100#32).extractLsb' 8 18 ≠ 0 := by decide

theorem witness_DecEndRule :
    (withHead c1Dec 0x30000000).cmdq = [0x30000000] ∧ c1Dec.decState = .run ∧ c1.decState = .idle
      ∧ { c1 with decState := .done }.decState = .done ∧ { c1 with decState := .noMatch }.decState = .noMatch := by decide

/-- The walk of V1. -/
theorem witness_PayloadDecodes :
    ∃ (s : State) (syms : List Nat), s.codesValid = true ∧ s.lengthsSound ∧ s.codesSound ∧ s.len.wf = true
      ∧ s.decState = .run ∧ s.decRl = 0 ∧ s.decRc = 0 ∧ syms ≠ [] ∧ (∀ x ∈ syms, x < 65536 ∧ s.len.get x ≠ 0)
      ∧ s.len.get 65536 ≠ 0 :=
  ⟨c1Dec, [10, 30, 40], rfl, c1_lengthsSound, c1_codesSound, by decide, rfl, rfl, rfl, by decide, by decide, by decide⟩

/-- The clauses of a CMD write: halted, one slot free, full. -/
theorem witness_CommandWrites :
    (∃ s : State, s.halt = true)
      ∧ (∃ s : State, s.halt = false ∧ s.cmdq.length + 1 = s.params.cmdqDepth.toNat)
      ∧ ∃ s : State, s.halt = false ∧ s.cmdq.length = s.params.cmdqDepth.toNat :=
  ⟨⟨{ State.reset with halt := true }, rfl⟩, ⟨{ State.reset with cmdq := List.replicate 15 0 }, by decide⟩,
    { State.reset with cmdq := List.replicate 16 0 }, by decide⟩

theorem witness_ControlWrites_ResetFromAnywhere :
    (0x00000006#32).getLsbD 0 = false ∧ (0x00000007#32).getLsbD 0 = true := by decide

theorem witness_OutReads :
    State.reset.outq = [] ∧ { State.reset with outq := [1, 2] }.outq = [1#32, 2#32] := ⟨rfl, rfl⟩

theorem witness_RegisterSideEffects : 0xFC < 256 ∧ 0xFC % 4 = 0 ∧ 0xFC ≠ 0x2C ∧ 0xFC ∉ [0x0C, 0x20, 0x24, 0x28, 0x30] := by
  decide

/-- A half-word read, and a state without a host access. -/
theorem witness_StepStopsOnlyOnBadAccess :
    (∃ (s : State) (addr bytes : Nat) (rest : List Event), s.agenda = .read addr bytes :: rest
        ∧ ¬ (s.params.base ≤ addr ∧ addr < s.params.base + 256 ∧ bytes = 4 ∧ (addr - s.params.base) % 4 = 0))
      ∧ ∃ s : State, s.agenda = [] :=
  ⟨⟨{ State.reset with agenda := [.read 0x2C 2] }, 0x2C, 2, [], rfl, by decide⟩, State.reset, rfl⟩

/-- The clauses of the window reads at the ends of their ranges. -/
theorem witness_WindowReads :
    (∃ s : State, s.tblIndex.toNat = 65536 ∧ s.cmdq = [] ∧ s.lenValid = true ∧ s.codesValid = true)
      ∧ (∃ s : State, s.tblIndex.toNat = 65536 ∧ s.cmdq = [] ∧ s.histValid = true)
      ∧ (∃ s : State, s.tblIndex.toNat + 1 = s.numCoded.toNat ∧ s.cmdq = [] ∧ s.codesValid = true)
      ∧ (∃ s : State, s.tblIndex.toNat = 64 ∧ s.cmdq = [] ∧ s.codesValid = true)
      ∧ (∃ s : State, s.tblIndex.toNat = 65537) ∧ (∃ s : State, s.numCoded.toNat = s.tblIndex.toNat)
      ∧ ∃ s : State, s.tblIndex.toNat = 65 :=
  ⟨⟨{ c1 with tblIndex := 65536 }, by decide⟩, ⟨{ h1 with tblIndex := 65536 }, by decide⟩,
    ⟨{ c1 with tblIndex := 3 }, by decide⟩, ⟨{ c1 with tblIndex := 64 }, by decide⟩,
    ⟨{ c1 with tblIndex := 65537 }, by decide⟩, ⟨{ c1 with tblIndex := 4 }, by decide⟩, { c1 with tblIndex := 65 }, by decide⟩

theorem witness_RegisterViews :
    (∃ (s : State) (bytes : BitVec 64), s.totalBits ≠ 0 ∧ bytes.toNat = (s.totalBits.toNat + 7) / 8)
      ∧ 0x94 ≤ 0xFC ∧ 0xFC ≤ 0xFC ∧ 0xFC % 4 = 0 :=
  ⟨⟨{ State.reset with totalBits := 9 }, 2, by decide⟩, by decide⟩

theorem witness_StatusFields : ∃ s : State, s.cmdq.length ≤ 255 ∧ s.outq.length ≤ 255 ∧ s.cmdq ≠ [] :=
  ⟨withHead State.reset 0, by decide⟩

/-! Steps that meet the premises of the invariants: each runs a command that writes what the invariant is about. -/

/-- BUILD_CODES on V1's lengths. -/
theorem witness_TablesStayCanonical_CodesStayCanonical :
    ∃ s t : State, s.tablesWf ∧ s.codesSound ∧ step s = .next t ∧ t.codesValid = true := by
  obtain ⟨t, ht, hv⟩ := seen_some (f := fun t => t.codesValid) (o := step (withHead v1Lens 0x18000000)) (v := true)
    (by decide +kernel)
  exact ⟨withHead v1Lens 0x18000000, t, by decide, fun h => (by cases h), ht, hv⟩

/-- DEC_BYTE with six words waiting, which is as many as R93 lets wait. -/
theorem witness_FifosStayBounded_LengthsStaySound_RunningCodeStaysBounded :
    ∃ s t : State, s.lengthsSound ∧ s.fifosFit ∧ s.walkSound ∧ step s = .next t ∧ t.outq.length = 10 := by
  obtain ⟨t, ht, hv⟩ := seen_some (f := fun t => t.outq.length)
    (o := step { withHead c1Dec 0x2C00001B with outq := List.replicate 6 0x40000000 }) (v := 10) (by decide)
  exact ⟨{ withHead c1Dec 0x2C00001B with outq := List.replicate 6 0x40000000 }, t, c1_lengthsSound, by decide,
    ⟨by decide, fun _ => by decide, by decide⟩, ht, hv⟩

/-- An error entry. -/
theorem witness_ErrorRegistersStaySound : ∃ s t : State, s.errorSound ∧ step s = .next t ∧ t.halt = true := by
  obtain ⟨t, ht, hv⟩ := seen_some (f := fun t => t.halt) (o := step (withHead State.reset 0x0C000000)) (v := true) (by decide)
  exact ⟨withHead State.reset 0x0C000000, t, by decide, ht, hv⟩

/-- HIST_SAMPLE on an empty histogram. -/
theorem witness_HistogramStaysSound :
    ∃ s t : State, s.histValid = true ∧ s.histogramSound ∧ step s = .next t ∧ t.histTotal = 1 := by
  obtain ⟨t, ht, hv⟩ := seen_some (f := fun t => t.histTotal) (o := step (withHead h1 0x0A00000A)) (v := 1) (by decide)
  exact ⟨withHead h1 0x0A00000A, t, rfl, h1_histogramSound, ht, hv⟩

/-- ENC_SAMPLE with six bits pending. -/
theorem witness_PendingBitsStayJustified : ∃ s t : State, s.pendingSound ∧ step s = .next t ∧ t.encNacc = 0 := by
  obtain ⟨t, ht, hv⟩ := seen_some (f := fun t => t.encNacc)
    (o := step (withHead { c1Enc with encAcc := 0x18, encNacc := 6 } 0x2200000A)) (v := 0) (by decide)
  exact ⟨withHead { c1Enc with encAcc := 0x18, encNacc := 6 } 0x2200000A, t, pending_six, ht, hv⟩

/-! Steps for each clause of the whole-machine rules. -/

/-- Each validity flag set and cleared by a step. -/
theorem witness_ValidityFlagEvents :
    seen (fun t => t.histValid) (step (withHead State.reset 0x04000000)) = some true
      ∧ seen (fun t => t.histValid) (step { h1 with agenda := [.resetInput] }) = some false
      ∧ seen (fun t => t.lenValid) (step (withHead State.reset 0x10000000)) = some true
      ∧ seen (fun t => t.lenValid) (step { c1 with agenda := [.write 0x0C 4 1] }) = some false
      ∧ seen (fun t => t.codesValid) (step (withHead v1Lens 0x18000000)) = some true
      ∧ seen (fun t => t.codesValid) (step (withHead c1 0x1400050A)) = some false := by decide +kernel

/-- Steps that write the tables: the histogram, COUNT[EOS], the lengths and the code tables. -/
theorem witness_TableWriters :
    seen (fun t => (t.count.get 10, t.histTotal)) (step (withHead h1 0x0A00000A)) = some (1#32, 1#32)
      ∧ seen (fun t => t.count.get 65536) (step (withHead { h1 with count := .const 65537 32 0 } 0x04000000)) = some 1#32
      ∧ seen (fun t => t.len.get 10) (step (withHead v1Lens 0x14000503)) = some 3#7
      ∧ seen (fun t => t.numCoded) (step (withHead v1Lens 0x18000000)) = some 4#17 := by decide +kernel

/-- Steps that move the encoder, the decoder, IRQ_EN and TBL_INDEX. -/
theorem witness_UnitsAreSeparate :
    seen (fun t => t.encNacc) (step (withHead c1Enc 0x2200000A)) = some 2#3
      ∧ seen (fun t => t.decSyms) (step (withHead c1Dec 0x2C000000)) = some 4#32
      ∧ seen (fun t => t.irqEn) (step { State.reset with agenda := [.write 0x20 4 0xFFFFFFFF] }) = some 0x1F#5
      ∧ seen (fun t => t.tblIndex) (step { State.reset with agenda := [.write 0x30 4 0xFFFFFFFF] }) = some 0x1FFFF#17 := by
  decide

/-- Steps that set the sticky bits and HALT, and steps that clear them. -/
theorem witness_StickyBitsAndHalt :
    seen (fun t => (t.pErr, t.halt)) (step (withHead State.reset 0x0C000000)) = some (true, true)
      ∧ seen (fun t => t.pIdle) (step (withHead State.reset 0)) = some true
      ∧ seen (fun t => t.pEncDone) (step (withHead c1Enc 0x24000000)) = some true
      ∧ seen (fun t => t.pDecDone) (step (withHead c1Dec 0x2C00001B)) = some true
      ∧ seen (fun t => (t.pErr, t.pIdle, t.pEncDone, t.pDecDone))
          (step { State.reset with
            pErr := true, pIdle := true, pEncDone := true, pDecDone := true, agenda := [.write 0x24 4 0x1B] }) =
        some (false, false, false, false)
      ∧ seen (fun t => t.halt) (step { State.reset with halt := true, errCode := 2, agenda := [.write 0x0C 4 2] }) =
        some false := by decide

theorem witness_OutputKeepsOrder :
    seen (fun t => t.outq) (step { withHead c1Dec 0x2C000000 with outq := [7] }) =
      some [7#32, 0x8000000A#32, 0x8000000A#32, 0x8000000A#32, 0x8000000A#32] := by decide

/-- State.reset with another histogram, which is invalid. -/
def otherCounts : State := { State.reset with count := .const 65537 32 9 }

theorem otherCounts_agree : agree State.reset otherCounts :=
  ⟨rfl, (nofun : false = true → _), fun _ => rfl, fun _ => ⟨rfl, rfl, fun _ _ => rfl⟩⟩

theorem witness_NoCommandReadsInvalidTable :
    ∃ (i : Instr) (s s' t t' : State), agree s s' ∧ s ≠ s' ∧ s.tablesWf ∧ s'.tablesWf
      ∧ (s.codesValid = true → s.lenValid = true) ∧ exec i s = .next t ∧ exec i s' = .next t' :=
  ⟨.histClear, State.reset, otherCounts, _, _, otherCounts_agree, by decide, by decide, by decide,
    (nofun : false = true → _), rfl, rfl⟩

/-- V1's DEC_BYTE. -/
theorem witness_PushBound :
    ∃ (i : Instr) (s t : State), (∀ sym : Nat, (s.len.get sym).toNat ≤ 64) ∧ exec i s = .next t ∧ t.outq.length = 4 := by
  obtain ⟨t, ht, hv⟩ := seen_some (f := fun t => t.outq.length) (o := exec (.decByte 0x1B) (withHead c1Dec 0x2C00001B))
    (v := 4) (by decide)
  exact ⟨.decByte 0x1B, withHead c1Dec 0x2C00001B, t, v1_le, ht, hv⟩

end Sys2Proof.Tests
end

section
/-! What a command has done when it comes to its end, and what one step has done to the units and to the host's fields. -/

namespace Sys2Proof.Machine

open Sys2Proof.Statements (nextRuns nextIsReset nextIsWrite)

/-! ### Commands -/

/-- How a command ends from the state `u` that its own work left: it retires (R95), or it enters an error (R136). -/
def State.endsIn (u t : State) : Prop := t = u.retire ∨ ∃ k arg, t = u.raiseError k arg

/-- `u` is a state that the work of command `i` can leave, before its retirement or error entry. -/
def State.worksTo (s : State) (i : Instr) (u : State) : Prop :=
  match i with
  | .nop => u = s
  | .histClear => u = s.startHistogram
  | .histSample _ v =>
    u = s ∨ (s.histValid = true ∧ v.toNat ≤ Config.sampleMax ∧ s.histTotal ≠ Config.totalMax ∧ u = s.countSample v)
  | .buildTree =>
    u = s ∨ u = { s.dropLengths with len := .unspecified 65537 7 s.draws, draws := s.draws + 1 }
      ∨ ∃ root : Node, firstOverlong (treeLengths root.tree) = none
        ∧ u = { s.dropLengths with len := lengthTable (treeLengths root.tree), lenValid := true }
  | .lenClear => u = s.clearLengths
  | .lenWrite sym l =>
    u = s ∨ (s.lenValid = true ∧ sym.toNat ≤ Config.eos ∧ l.toNat ≤ Config.lmax ∧ u = s.writeLength sym l)
  | .buildCodes =>
    u = s ∨ s.lenValid = true
      ∧ (u = { s.sortLengths with code := .unspecified 65537 64 s.draws, draws := s.draws + 1 }
        ∨ ∃ codes, canonicalCodes s.len = .ok codes
          ∧ u = { s.sortLengths.measurePayload with code := codes, codesValid := true })
  | .encStart => u = s ∨ u = s.startPayload
  | .encSample _ v =>
    u = s ∨ u = { s with encActive := false }
      ∨ (s.codesValid = true ∧ u = s.emit (s.code.get v.toNat) (s.len.get v.toNat))
  | .encFinish =>
    u = { s with encActive := false }
      ∨ (s.codesValid = true ∧ u = (s.emit (s.code.get Config.eos) (s.len.get Config.eos)).padPayload.closePayload)
  | .decStart => u = s ∨ u = s.startWalk
  | .decByte b => u = { s with decState := .idle } ∨ (s.codesValid = true ∧ u = s.decBitList (byteBits b))
  | .decEnd => u = s ∨ u = { s with decState := .idle }

theorem State.endsIn_retire (u : State) : u.endsIn u.retire := .inl rfl

theorem State.endsIn_raiseError (u : State) (k : ErrKind) (arg : Word) : u.endsIn (u.raiseError k arg) := .inr ⟨k, arg, rfl⟩

theorem execHistSample_next {s t : State} {m : Bool} {v : BitVec 25} (h : execHistSample m v s = .next t) :
    ∃ u, s.worksTo (.histSample m v) u ∧ u.endsIn t := by
  unfold execHistSample at h
  split at h
  · cases h; exact ⟨s, .inl rfl, s.endsIn_raiseError _ _⟩
  split at h
  · cases h; exact ⟨s, .inl rfl, s.endsIn_retire⟩
  split at h
  · cases h; exact ⟨s, .inl rfl, s.endsIn_raiseError _ _⟩
  split at h
  · cases h; exact ⟨s, .inl rfl, s.endsIn_raiseError _ _⟩
  next hv _ hr ht =>
    cases h
    exact ⟨_, .inr ⟨by simpa [State.histReady] using hv, by simpa [sampleTooLarge] using hr, ht, rfl⟩,
      State.endsIn_retire _⟩

theorem execBuildTree_next {s t : State} (h : execBuildTree s = .next t) :
    ∃ u, s.worksTo .buildTree u ∧ u.endsIn t := by
  unfold execBuildTree at h
  split at h
  · cases h; exact ⟨s, .inl rfl, s.endsIn_raiseError _ _⟩
  split at h
  · cases h; exact ⟨_, .inr (.inl rfl), State.endsIn_raiseError _ _ _⟩
  next root _ =>
    split at h
    · cases h; exact ⟨_, .inr (.inl rfl), State.endsIn_raiseError _ _ _⟩
    next ho => cases h; exact ⟨_, .inr (.inr ⟨root, ho, rfl⟩), State.endsIn_retire _⟩

theorem execLenWrite_next {s t : State} {sym : BitVec 17} {l : BitVec 7} (h : execLenWrite sym l s = .next t) :
    ∃ u, s.worksTo (.lenWrite sym l) u ∧ u.endsIn t := by
  unfold execLenWrite at h
  split at h
  · cases h; exact ⟨s, .inl rfl, s.endsIn_raiseError _ _⟩
  split at h
  · cases h; exact ⟨s, .inl rfl, s.endsIn_raiseError _ _⟩
  split at h
  · cases h; exact ⟨s, .inl rfl, s.endsIn_raiseError _ _⟩
  next hv hs hl =>
    cases h
    exact ⟨_, .inr ⟨by simpa [State.lenReady] using hv, by simpa [symbolTooLarge] using hs,
      by simpa [lengthTooLarge] using hl, rfl⟩, State.endsIn_retire _⟩

theorem execBuildCodes_next {s t : State} (h : execBuildCodes s = .next t) :
    ∃ u, s.worksTo .buildCodes u ∧ u.endsIn t := by
  unfold execBuildCodes at h
  split at h
  · cases h; exact ⟨s, .inl rfl, s.endsIn_raiseError _ _⟩
  next hv =>
    have hv : s.lenValid = true := by simpa [State.lenReady] using hv
    split at h
    · cases h; exact ⟨_, .inr ⟨hv, .inl rfl⟩, State.endsIn_raiseError _ _ _⟩
    next codes hc => cases h; exact ⟨_, .inr ⟨hv, .inr ⟨codes, hc, rfl⟩⟩, State.endsIn_retire _⟩

theorem execEncStart_next {s t : State} (h : execEncStart s = .next t) :
    ∃ u, s.worksTo .encStart u ∧ u.endsIn t := by
  unfold execEncStart at h
  split at h
  · cases h; exact ⟨s, .inl rfl, s.endsIn_raiseError _ _⟩
  · cases h; exact ⟨_, .inr rfl, State.endsIn_retire _⟩

theorem execEncSample_next {s t : State} {m : Bool} {v : BitVec 25} (h : execEncSample m v s = .next t) :
    ∃ u, s.worksTo (.encSample m v) u ∧ u.endsIn t := by
  unfold execEncSample at h
  split at h
  · cases h; exact ⟨_, .inr (.inl rfl), State.endsIn_raiseError _ _ _⟩
  next hr =>
    have hr : s.codesValid = true ∧ s.encActive = true := by simpa [State.encReady] using hr
    split at h
    · cases h; exact ⟨s, .inl rfl, s.endsIn_retire⟩
    split at h
    · cases h; exact ⟨_, .inr (.inl rfl), State.endsIn_raiseError _ _ _⟩
    split at h
    · cases h; exact ⟨_, .inr (.inl rfl), State.endsIn_raiseError _ _ _⟩
    · cases h; exact ⟨_, .inr (.inr ⟨hr.1, rfl⟩), State.endsIn_retire _⟩

theorem execEncFinish_next {s t : State} (h : execEncFinish s = .next t) :
    ∃ u, s.worksTo .encFinish u ∧ u.endsIn t := by
  unfold execEncFinish at h
  split at h
  · cases h; exact ⟨_, .inl rfl, State.endsIn_raiseError _ _ _⟩
  next hr =>
    have hr : s.codesValid = true ∧ s.encActive = true := by simpa [State.encReady] using hr
    split at h
    · cases h; exact ⟨_, .inl rfl, State.endsIn_raiseError _ _ _⟩
    · cases h; exact ⟨_, .inr ⟨hr.1, rfl⟩, State.endsIn_retire _⟩

theorem execDecStart_next {s t : State} (h : execDecStart s = .next t) :
    ∃ u, s.worksTo .decStart u ∧ u.endsIn t := by
  unfold execDecStart at h
  split at h
  · cases h; exact ⟨s, .inl rfl, s.endsIn_raiseError _ _⟩
  · cases h; exact ⟨_, .inr rfl, State.endsIn_retire _⟩

theorem execDecByte_next {s t : State} {b : Byte} (h : execDecByte b s = .next t) :
    ∃ u, s.worksTo (.decByte b) u ∧ u.endsIn t := by
  unfold execDecByte at h
  split at h
  · cases h; exact ⟨_, .inl rfl, State.endsIn_raiseError _ _ _⟩
  next hr =>
    have hr : s.codesValid = true ∧ s.walkOpen = true := by simpa [State.decReady] using hr
    exact ⟨_, .inr ⟨hr.1, rfl⟩, .inl (Host.Outcome.next.inj h).symm⟩

theorem execDecEnd_next {s t : State} (h : execDecEnd s = .next t) :
    ∃ u, s.worksTo .decEnd u ∧ u.endsIn t := by
  unfold execDecEnd at h
  split at h
  · cases h; exact ⟨s, .inl rfl, s.endsIn_raiseError _ _⟩
  split at h
  · cases h; exact ⟨_, .inr rfl, State.endsIn_retire _⟩
  · cases h; exact ⟨_, .inr rfl, State.endsIn_raiseError _ _ _⟩

/-- Every command does its work and then ends. -/
theorem exec_next {i : Instr} {s t : State} (h : exec i s = .next t) : ∃ u, s.worksTo i u ∧ u.endsIn t := by
  cases i with
  | nop => cases h; exact ⟨s, rfl, s.endsIn_retire⟩
  | histClear => cases h; exact ⟨_, rfl, State.endsIn_retire _⟩
  | histSample m v => exact execHistSample_next h
  | buildTree => exact execBuildTree_next h
  | lenClear => cases h; exact ⟨_, rfl, State.endsIn_retire _⟩
  | lenWrite sym l => exact execLenWrite_next h
  | buildCodes => exact execBuildCodes_next h
  | encStart => exact execEncStart_next h
  | encSample m v => exact execEncSample_next h
  | encFinish => exact execEncFinish_next h
  | decStart => exact execDecStart_next h
  | decByte b => exact execDecByte_next h
  | decEnd => exact execDecEnd_next h

/-! ### Events -/

/-- The register map, read backwards. -/
theorem regAt_writable {offset : Nat} {r : Reg} (h : regAt offset = some r) :
    (r = .ctrl → offset = 0x0C) ∧ (r = .irqEn → offset = 0x20) ∧ (r = .irqPend → offset = 0x24)
      ∧ (r = .cmd → offset = 0x28) ∧ (r = .tblIndex → offset = 0x30) := by
  unfold regAt at h
  split at h <;> cases h <;> simp

/-- What a step from `s` has done: `StepEffect s u t`, where `u` is `s` without the event that the step took. -/
inductive StepEffect (s u : State) : State → Prop where
  /-- Nothing: the core waits (R93), or the register ignores the write (R53). -/
  | none : StepEffect s u u
  /-- The head word is no command (R86, R136). -/
  | illegal (running : u.halt = false) : StepEffect s u (u.raiseError .illegalCmd 0)
  /-- The head command has run (R93, R95). -/
  | command (i : Instr) (v t : State) (next : nextRuns s i) (running : u.halt = false) (room : u.holds i = false)
      (work : u.worksTo i v) (ends : v.endsIn t) : StepEffect s u t
  /-- A reset by its input or by SOFT_RESET (R152). -/
  | reset (next : nextIsReset s) : StepEffect s u u.resetAll
  /-- A read of another register than OUT (R53). -/
  | read (d : Nat) (v : Word) : StepEffect s u { u with draws := d, busData := v }
  /-- A read of OUT (R57). -/
  | readOut (rest : List Event) (d : Nat) (v : Word) (next : s.agenda = .read (s.params.base + 0x2C) 4 :: rest) :
      StepEffect s u { u with outq := u.outq.tail, draws := d, busData := v }
  /-- A write of CTRL without SOFT_RESET (R50). -/
  | control (v : Word) (next : nextIsWrite s 0x0C v) (noReset : v.getLsbD 0 = false) : StepEffect s u (u.writeCtrl v)
  /-- A write of IRQ_EN (R54). -/
  | irqEnable (v : Word) (next : nextIsWrite s 0x20 v) : StepEffect s u { u with irqEn := v.extractLsb' 0 5 }
  /-- A write of IRQ_PEND (R55). -/
  | acknowledge (v : Word) (next : nextIsWrite s 0x24 v) : StepEffect s u (u.clearPending v)
  /-- A write of CMD (R56). -/
  | queue (v : Word) (next : nextIsWrite s 0x28 v) : StepEffect s u (u.pushCommand v)
  /-- A write of TBL_INDEX (R58). -/
  | index (v : Word) (next : nextIsWrite s 0x30 v) : StepEffect s u { u with tblIndex := v.extractLsb' 0 17 }

/-- An accepted host write does what its register's rule says. -/
theorem hostWrite_effect {s u t : State} {addr bytes : Nat} {v : Word} {rest : List Event} (hp : u.params = s.params)
    (ha : s.agenda = .write addr bytes v :: rest) (h : hostWrite addr bytes v u = .next t) : StepEffect s u t := by
  obtain ⟨hok, rfl⟩ := hostWrite_next h
  obtain ⟨hbase, -, rfl, -⟩ := State.accessRefusal_none_iff.1 hok
  unfold State.writeOffset
  cases hr : regAt (addr - u.params.base) with
  | none => exact .none
  | some r =>
    have next : ∀ off, addr - u.params.base = off → nextIsWrite s off v := by
      rintro off rfl
      exact ⟨rest, by rw [ha, ← hp, Nat.add_sub_cancel' hbase]⟩
    obtain ⟨hctrl, hen, hpend, hcmd, hidx⟩ := regAt_writable hr
    cases r
    case ctrl =>
      by_cases h0 : v.getLsbD 0 = true
      · have hw : u.writeReg .ctrl v = u.resetAll := by simp [State.writeReg, State.writeCtrl, h0]
        simp only [hw]
        exact .reset (.inr ⟨v, next _ (hctrl rfl), h0⟩)
      · exact .control v (next _ (hctrl rfl)) (by simpa using h0)
    case irqEn => exact .irqEnable v (next _ (hen rfl))
    case irqPend => exact .acknowledge v (next _ (hpend rfl))
    case cmd => exact .queue v (next _ (hcmd rfl))
    case tblIndex => exact .index v (next _ (hidx rfl))
    all_goals exact .none

/-- An accepted host read changes OUTQ at the offset of OUT only. -/
theorem hostRead_effect {s u t : State} {addr bytes : Nat} {rest : List Event} (hp : u.params = s.params)
    (ha : s.agenda = .read addr bytes :: rest) (h : hostRead addr bytes u = .next t) : StepEffect s u t := by
  obtain ⟨hok, rfl⟩ := hostRead_next h
  obtain ⟨hbase, -, rfl, -⟩ := State.accessRefusal_none_iff.1 hok
  by_cases hout : addr = u.params.base + 0x2C
  · have hread : u.readOffset (addr - u.params.base) = u.popOut := by
      rw [hout, Nat.add_sub_cancel_left]
      rfl
    rw [hread, u.popOut_frame]
    exact .readOut rest u.draws _ (by rw [ha, hout, hp])
  · obtain ⟨d, o, hd, ho⟩ := u.readOffset_frame (addr - u.params.base)
    rw [hd, ho (by omega)]
    exact .read d _

/-- What one step that answers a next state has done (R72). -/
theorem step_effect {s t : State} (h : step s = .next t) : ∃ a, StepEffect s { s with agenda := a } t := by
  obtain ⟨u, hu, ht⟩ := step_next_cases h
  have hu : u = { s with agenda := u.agenda } := by
    rcases hu with ⟨-, rfl⟩ | ⟨-, -, hu⟩
    · rfl
    · exact hu
  have hp : u.params = s.params := by rw [hu]
  refine ⟨u.agenda, hu ▸ ?_⟩
  rcases ht with ⟨rfl, -⟩ | ⟨rfl, hh, -⟩ | ⟨i, hn, he, hh, hroom, -⟩ | ⟨rfl, ha⟩ | ⟨addr, bytes, ha, hr⟩
    | ⟨addr, bytes, v, ha, hw⟩
  · exact .none
  · exact .illegal hh
  · obtain ⟨v, hv, hend⟩ := exec_next he
    exact .command i v t ⟨u, hn⟩ hh hroom hv hend
  · exact .reset (.inl ⟨_, ha⟩)
  · exact hostRead_effect hp ha hr
  · exact hostWrite_effect hp ha hw

end Sys2Proof.Machine
end

section
/-! The units of the machine: which command may write which of them, and what a step does to them. -/

namespace Sys2Proof.Machine

open Sys2Proof.Statements (nextRuns nextIsReset nextIsWrite)

/-- Who owns a group of fields: the commands of one family alone write it (R23, R26 to R31, R33, R36). -/
inductive Owner where
  | nobody | histogram | lengths | codes | encoder | decoder
  deriving DecidableEq

/-- The group of fields that a command may write, besides those of its retirement or error entry. -/
def ownerOf : Instr → Owner
  | .nop => .nobody
  | .histClear => .histogram
  | .histSample _ _ => .histogram
  | .buildTree => .lengths
  | .lenClear => .lengths
  | .lenWrite _ _ => .lengths
  | .buildCodes => .codes
  | .encStart => .encoder
  | .encSample _ _ => .encoder
  | .encFinish => .encoder
  | .decStart => .decoder
  | .decByte _ => .decoder
  | .decEnd => .decoder

/-- `s` with the group of fields of `o` taken from `u`. -/
def State.takeFrom (s : State) (o : Owner) (u : State) : State :=
  match o with
  | .nobody => s
  | .histogram => { s with count := u.count, histTotal := u.histTotal, histValid := u.histValid }
  | .lengths => { s with len := u.len, lenValid := u.lenValid, codesValid := u.codesValid, draws := u.draws }
  | .codes =>
    { s with
      code := u.code, sorted := u.sorted, first := u.first, numCoded := u.numCoded, maxLen := u.maxLen
      totalBits := u.totalBits, codesValid := u.codesValid, draws := u.draws }
  | .encoder =>
    { s with
      encActive := u.encActive, encAcc := u.encAcc, encNacc := u.encNacc, encBits := u.encBits, encBytes := u.encBytes
      outq := u.outq, pEncDone := u.pEncDone }
  | .decoder =>
    { s with
      decState := u.decState, decRc := u.decRc, decRl := u.decRl, decSyms := u.decSyms, decBits := u.decBits
      outq := u.outq, pDecDone := u.pDecDone }

theorem State.emit_frame (s : State) (c : BitVec 64) (l : BitVec 7) : s.emit c l = s.takeFrom .encoder (s.emit c l) := by
  rw [State.emit, State.emitBits_frame]
  rfl

theorem State.padPayload_frame (s : State) : s.padPayload = s.takeFrom .encoder s.padPayload := by
  unfold State.padPayload
  split <;> rfl

theorem State.takeFrom_encoder_trans {s u v : State} (hu : u = s.takeFrom .encoder u) (hv : v = u.takeFrom .encoder v) :
    v = s.takeFrom .encoder v := by
  rw [hu] at hv
  exact hv

/-- The work of a command writes only the fields of its owner's group. -/
theorem State.worksTo_frame {s u : State} {i : Instr} (h : s.worksTo i u) : u = s.takeFrom (ownerOf i) u := by
  cases i with
  | nop => exact h
  | histClear => rw [show u = s.startHistogram from h]; rfl
  | histSample m v => obtain rfl | ⟨-, -, -, rfl⟩ := h <;> rfl
  | buildTree => obtain rfl | rfl | ⟨root, -, rfl⟩ := h <;> rfl
  | lenClear => rw [show u = s.clearLengths from h]; rfl
  | lenWrite sym l => obtain rfl | ⟨-, -, -, rfl⟩ := h <;> rfl
  | buildCodes => obtain rfl | ⟨-, rfl | ⟨codes, -, rfl⟩⟩ := h <;> rfl
  | encStart => obtain rfl | rfl := h <;> rfl
  | encSample m v =>
    obtain rfl | rfl | ⟨-, rfl⟩ := h
    · rfl
    · rfl
    · exact s.emit_frame _ _
  | encFinish =>
    obtain rfl | ⟨-, rfl⟩ := h
    · rfl
    · exact State.takeFrom_encoder_trans (State.takeFrom_encoder_trans (s.emit_frame _ _) (State.padPayload_frame _)) rfl
  | decStart => obtain rfl | rfl := h <;> rfl
  | decByte b =>
    obtain rfl | ⟨-, h⟩ := h
    · rfl
    · rw [h]
      exact s.decBitList_frame _
  | decEnd => obtain rfl | rfl := h <;> rfl

/-! ### The groups -/

/-- COUNT, HIST_TOTAL and HIST_VALID. -/
def State.histogram (s : State) := (s.count, s.histTotal, s.histValid)

/-- LEN and LEN_VALID. -/
def State.lengths (s : State) := (s.len, s.lenValid)

/-- CODE, SORTED, FIRST, NUM_CODED, MAX_LEN and TOTAL_BITS. -/
def State.codeTables (s : State) := (s.code, s.sorted, s.first, s.numCoded, s.maxLen, s.totalBits)

/-- The encoder's state (R33, R34, R35). -/
def State.encoder (s : State) := (s.encActive, s.encAcc, s.encNacc, s.encBits, s.encBytes)

/-- The decoder's state (R36, R37, R38). -/
def State.decoder (s : State) := (s.decState, s.decRc, s.decRl, s.decSyms, s.decBits)

/-- What no command's work writes: CMDQ, HALT and the error registers, the host's registers, and the parameters. -/
def State.control (s : State) :=
  (s.params, s.cmdq, s.halt, s.errCode, s.errCmd, s.errArg, s.irqEn, s.pErr, s.pIdle, s.tblIndex, s.agenda, s.busData)

/-! ### What a command leaves to the other owners -/

theorem State.takeFrom_control (s u : State) (o : Owner) : (s.takeFrom o u).control = s.control := by
  cases o <;> rfl

theorem State.takeFrom_histogram (s u : State) {o : Owner} (ho : o ≠ .histogram) : (s.takeFrom o u).histogram = s.histogram := by
  cases o with
  | histogram => exact absurd rfl ho
  | _ => rfl

theorem State.takeFrom_lengths (s u : State) {o : Owner} (ho : o ≠ .lengths) : (s.takeFrom o u).lengths = s.lengths := by
  cases o with
  | lengths => exact absurd rfl ho
  | _ => rfl

theorem State.takeFrom_codeTables (s u : State) {o : Owner} (ho : o ≠ .codes) : (s.takeFrom o u).codeTables = s.codeTables := by
  cases o with
  | codes => exact absurd rfl ho
  | _ => rfl

theorem State.takeFrom_encoder (s u : State) {o : Owner} (ho : o ≠ .encoder) : (s.takeFrom o u).encoder = s.encoder := by
  cases o with
  | encoder => exact absurd rfl ho
  | _ => rfl

theorem State.takeFrom_decoder (s u : State) {o : Owner} (ho : o ≠ .decoder) : (s.takeFrom o u).decoder = s.decoder := by
  cases o with
  | decoder => exact absurd rfl ho
  | _ => rfl

theorem State.takeFrom_codesValid (s u : State) {o : Owner} (hl : o ≠ .lengths) (hc : o ≠ .codes) :
    (s.takeFrom o u).codesValid = s.codesValid := by
  cases o with
  | lengths => exact absurd rfl hl
  | codes => exact absurd rfl hc
  | _ => rfl

section
variable {s u : State} {i : Instr} (h : s.worksTo i u)
include h

theorem State.worksTo_control : u.control = s.control :=
  (congrArg State.control (State.worksTo_frame h)).trans (s.takeFrom_control u _)

theorem State.worksTo_histogram (ho : ownerOf i ≠ .histogram) : u.histogram = s.histogram :=
  (congrArg State.histogram (State.worksTo_frame h)).trans (s.takeFrom_histogram u ho)

theorem State.worksTo_lengths (ho : ownerOf i ≠ .lengths) : u.lengths = s.lengths :=
  (congrArg State.lengths (State.worksTo_frame h)).trans (s.takeFrom_lengths u ho)

theorem State.worksTo_codeTables (ho : ownerOf i ≠ .codes) : u.codeTables = s.codeTables :=
  (congrArg State.codeTables (State.worksTo_frame h)).trans (s.takeFrom_codeTables u ho)

theorem State.worksTo_encoder (ho : ownerOf i ≠ .encoder) : u.encoder = s.encoder :=
  (congrArg State.encoder (State.worksTo_frame h)).trans (s.takeFrom_encoder u ho)

theorem State.worksTo_decoder (ho : ownerOf i ≠ .decoder) : u.decoder = s.decoder :=
  (congrArg State.decoder (State.worksTo_frame h)).trans (s.takeFrom_decoder u ho)

theorem State.worksTo_codesValid (hl : ownerOf i ≠ .lengths) (hc : ownerOf i ≠ .codes) : u.codesValid = s.codesValid :=
  (congrArg State.codesValid (State.worksTo_frame h)).trans (s.takeFrom_codesValid u hl hc)

end

/-! ### The host's writes -/

/-- The return leaves the error or finds none (R139). -/
theorem State.clearError_cases (s : State) :
    s.clearError = s ∨ s.clearError = { s with halt := false, errCode := 0, errCmd := 0, errArg := 0 } := by
  cases h : s.halt with
  | false => exact .inl (State.clearError_of_running h)
  | true => exact .inr (State.clearError_of_halted h)

/-- A write of CTRL without SOFT_RESET keeps what ERR_CLEAR and OUT_FLUSH keep (R50). -/
theorem State.writeCtrl_keeps {s : State} {v : Word} (P : State → Prop) (hs : P s) (noReset : v.getLsbD 0 = false)
    (hclear : ∀ u : State, P u → P u.clearError) (hflush : ∀ u : State, P u → P u.flushOut) : P (s.writeCtrl v) := by
  have hcleared : P (if v.getLsbD 1 then s.clearError else s) := by
    split
    · exact hclear s hs
    · exact hs
  simp only [State.writeCtrl, noReset, Bool.false_eq_true, if_false]
  split
  · exact hflush _ hcleared
  · exact hcleared

/-- A write of CMD is discarded, or queued where there is room, or raises CMDQ_OVERFLOW (R56). -/
theorem State.pushCommand_cases (s : State) (w : Word) :
    s.pushCommand w = s
      ∨ (s.halt = false ∧ s.cmdq.length < s.params.cmdqDepth.toNat
          ∧ s.pushCommand w = { s with cmdq := s.cmdq ++ [w] })
      ∨ s.pushCommand w = s.recordError .cmdqOverflow w 0 := by
  unfold State.pushCommand
  split
  · exact .inl rfl
  next hrun =>
    split
    next hroom => exact .inr (.inl ⟨by simpa using hrun, hroom, rfl⟩)
    · exact .inr (.inr rfl)

/-! ### The units in a step -/

/-- The tables, the encoder and the decoder, with every other field but the parameters at a fixed value. -/
def State.units (s : State) : State :=
  { s with
    cmdq := [], outq := [], halt := false, errCode := 0, errCmd := 0, errArg := 0, irqEn := 0, pErr := false, pIdle := false
    pEncDone := false, pDecDone := false, tblIndex := 0, draws := 0, agenda := [], busData := 0 }

/-- States with the same units agree in every view of the units. -/
theorem State.view_eq {α : Type} (f : State → α) (hunits : ∀ u, f u.units = f u) {u v : State} (h : u.units = v.units) :
    f u = f v := by
  rw [← hunits u, h, hunits]

theorem State.endsIn_units {u t : State} (h : u.endsIn t) : t.units = u.units := by
  obtain rfl | ⟨k, arg, rfl⟩ := h <;> rfl

theorem State.clearError_units (s : State) : s.clearError.units = s.units := by
  rcases s.clearError_cases with h | h <;> exact (congrArg State.units h).trans rfl

theorem State.writeCtrl_units {s : State} {v : Word} (noReset : v.getLsbD 0 = false) :
    (s.writeCtrl v).units = s.units :=
  State.writeCtrl_keeps (fun u => u.units = s.units) rfl noReset (fun u hu => u.clearError_units.trans hu) fun _ hu => hu

theorem State.pushCommand_units (s : State) (w : Word) : (s.pushCommand w).units = s.units := by
  rcases s.pushCommand_cases w with h | ⟨-, -, h⟩ | h <;> exact (congrArg State.units h).trans rfl

/-- A step leaves the units as they are, or resets them, or does a command's work on them. -/
theorem step_units {s t : State} (h : step s = .next t) :
    t.units = s.units
      ∨ (nextIsReset s ∧ ∃ u : State, u.params = s.params ∧ t = u.resetAll)
      ∨ ∃ (i : Instr) (u v : State), nextRuns s i ∧ u.units = s.units ∧ u.worksTo i v ∧ t.units = v.units := by
  obtain ⟨a, he⟩ := step_effect h
  cases he with
  | none => exact .inl rfl
  | illegal => exact .inl rfl
  | command i v t next running room work ends =>
    exact .inr (.inr ⟨i, { s with agenda := a }, v, next, rfl, work, State.endsIn_units ends⟩)
  | reset next => exact .inr (.inl ⟨next, { s with agenda := a }, rfl, rfl⟩)
  | read => exact .inl rfl
  | readOut => exact .inl rfl
  | control v next noReset => exact .inl (State.writeCtrl_units noReset)
  | irqEnable => exact .inl rfl
  | acknowledge => exact .inl rfl
  | queue v => exact .inl (State.pushCommand_units _ v)
  | index => exact .inl rfl

/-- A property of the units is kept by every step if it holds after a reset and every command's work keeps it. -/
theorem step_keeps_units {s t : State} (P : State → Prop) (hunits : ∀ u, P u.units ↔ P u) (h : step s = .next t) (hs : P s)
    (hreset : ∀ u : State, P u.resetAll) (hwork : ∀ i u v, u.units = s.units → P u → u.worksTo i v → P v) : P t := by
  rcases step_units h with ht | ⟨-, u, -, rfl⟩ | ⟨i, u, v, -, hu, hw, ht⟩
  · rwa [← hunits, ht, hunits]
  · exact hreset u
  · have hPu : P u := by rwa [← hunits, hu, hunits]
    rw [← hunits, ht, hunits]
    exact hwork i u v hu hPu hw

end Sys2Proof.Machine
end

section
/-! Who writes what (O54, O55, O56): the validity flags, the tables, the encoder, the decoder and the host's registers. -/

namespace Sys2Proof.Machine

/-! ### The owners -/

theorem ownerOf_histogram {i : Instr} (h : ownerOf i = .histogram) : i = .histClear ∨ ∃ m v, i = .histSample m v := by
  cases i <;> simp_all [ownerOf]

theorem ownerOf_lengths {i : Instr} (h : ownerOf i = .lengths) :
    i = .buildTree ∨ i = .lenClear ∨ ∃ sym l, i = .lenWrite sym l := by
  cases i <;> simp_all [ownerOf]

theorem ownerOf_codes {i : Instr} (h : ownerOf i = .codes) : i = .buildCodes := by
  cases i <;> simp_all [ownerOf]

theorem ownerOf_encoder {i : Instr} (h : ownerOf i = .encoder) :
    i = .encStart ∨ (∃ m v, i = .encSample m v) ∨ i = .encFinish := by
  cases i <;> simp_all [ownerOf]

theorem ownerOf_decoder {i : Instr} (h : ownerOf i = .decoder) : i = .decStart ∨ (∃ b, i = .decByte b) ∨ i = .decEnd := by
  cases i <;> simp_all [ownerOf]

/-! ### The flags and COUNT[EOS] in a command's work -/

section
variable {s u : State} {i : Instr} (h : s.worksTo i u)
include h

/-- Only HIST_CLEAR writes HIST_VALID (R32). -/
theorem State.worksTo_histValid : u.histValid = s.histValid ∨ (i = .histClear ∧ u.histValid = true) := by
  by_cases ho : ownerOf i = .histogram
  · obtain rfl | ⟨m, v, rfl⟩ := ownerOf_histogram ho
    · exact .inr ⟨rfl, congrArg State.histValid (show u = s.startHistogram from h)⟩
    · obtain rfl | ⟨-, -, -, rfl⟩ := h <;> exact .inl rfl
  · exact .inl (congrArg (·.2.2) (State.worksTo_histogram h ho))

/-- Only BUILD_TREE and LEN_CLEAR write LEN_VALID, the second to set it (R32). -/
theorem State.worksTo_lenValid :
    u.lenValid = s.lenValid ∨ i = .buildTree ∨ (i = .lenClear ∧ u.lenValid = true) := by
  by_cases ho : ownerOf i = .lengths
  · obtain rfl | rfl | ⟨sym, l, rfl⟩ := ownerOf_lengths ho
    · exact .inr (.inl rfl)
    · exact .inr (.inr ⟨rfl, congrArg State.lenValid (show u = s.clearLengths from h)⟩)
    · obtain rfl | ⟨-, -, -, rfl⟩ := h <;> exact .inl rfl
  · exact .inl (congrArg (·.2) (State.worksTo_lengths h ho))

/-- The commands that write LEN clear CODES_VALID where they touch it; only BUILD_CODES sets it (R32). -/
theorem State.worksTo_codesValid_cases :
    u.codesValid = s.codesValid ∨ (ownerOf i = .lengths ∧ u.codesValid = false) ∨ i = .buildCodes := by
  by_cases hl : ownerOf i = .lengths
  · obtain rfl | rfl | ⟨sym, l, rfl⟩ := ownerOf_lengths hl
    · obtain rfl | rfl | ⟨root, -, rfl⟩ := h
      · exact .inl rfl
      · exact .inr (.inl ⟨rfl, rfl⟩)
      · exact .inr (.inl ⟨rfl, rfl⟩)
    · exact .inr (.inl ⟨rfl, congrArg State.codesValid (show u = s.clearLengths from h)⟩)
    · obtain rfl | ⟨-, -, -, rfl⟩ := h
      · exact .inl rfl
      · exact .inr (.inl ⟨rfl, rfl⟩)
  · by_cases hc : ownerOf i = .codes
    · exact .inr (.inr (ownerOf_codes hc))
    · exact .inl (State.worksTo_codesValid h hl hc)

/-- No sample is counted at EOS, so only HIST_CLEAR writes COUNT[EOS] (R23, R101). -/
theorem State.worksTo_count_eos : u.count.get 65536 = s.count.get 65536 ∨ i = .histClear := by
  by_cases ho : ownerOf i = .histogram
  · obtain rfl | ⟨m, v, rfl⟩ := ownerOf_histogram ho
    · exact .inr rfl
    · obtain rfl | ⟨-, hv, -, rfl⟩ := h
      · exact .inl rfl
      · have hne : (65536 : Nat) ≠ v.toNat := by
          have : v.toNat ≤ 65535 := hv
          omega
        exact .inl (s.count.get_set_other _ hne)
  · exact .inl (congrArg (·.1.get 65536) (State.worksTo_histogram h ho))

end

/-! ### The host's registers in a step -/

open Sys2Proof.Statements (nextRuns nextIsReset nextIsWrite)

/-- A command leaves the host's registers and the parameters alone (R48, R54, R58). -/
theorem State.worksTo_endsIn_host {s v t : State} {i : Instr} (hw : s.worksTo i v) (he : v.endsIn t) :
    t.params = s.params ∧ t.irqEn = s.irqEn ∧ t.tblIndex = s.tblIndex := by
  have hc := State.worksTo_control hw
  simp only [State.control, Prod.mk.injEq] at hc
  obtain ⟨hparams, -, -, -, -, -, hirq, -, -, hidx, -, -⟩ := hc
  obtain rfl | ⟨k, arg, rfl⟩ := he <;> exact ⟨hparams, hirq, hidx⟩

theorem State.clearError_host (s : State) : s.clearError.irqEn = s.irqEn ∧ s.clearError.tblIndex = s.tblIndex := by
  rcases s.clearError_cases with h | h <;> rw [h] <;> exact ⟨rfl, rfl⟩

theorem State.writeCtrl_host {s : State} {v : Word} (noReset : v.getLsbD 0 = false) :
    (s.writeCtrl v).irqEn = s.irqEn ∧ (s.writeCtrl v).tblIndex = s.tblIndex :=
  State.writeCtrl_keeps (fun u => u.irqEn = s.irqEn ∧ u.tblIndex = s.tblIndex) ⟨rfl, rfl⟩ noReset
    (fun u hu => ⟨u.clearError_host.1.trans hu.1, u.clearError_host.2.trans hu.2⟩) fun _ hu => hu

theorem State.pushCommand_host (s : State) (w : Word) :
    (s.pushCommand w).irqEn = s.irqEn ∧ (s.pushCommand w).tblIndex = s.tblIndex := by
  rcases s.pushCommand_cases w with h | ⟨-, -, h⟩ | h <;> rw [h] <;> exact ⟨rfl, rfl⟩

/-- IRQ_EN and TBL_INDEX change by a write of themselves or by a reset only (R54, R58, R153). -/
theorem step_host_registers {s t : State} (h : step s = .next t) :
    (t.irqEn = s.irqEn ∧ t.tblIndex = s.tblIndex) ∨ nextIsReset s
      ∨ (t.tblIndex = s.tblIndex ∧ ∃ v, nextIsWrite s 0x20 v) ∨ (t.irqEn = s.irqEn ∧ ∃ v, nextIsWrite s 0x30 v) := by
  obtain ⟨a, he⟩ := step_effect h
  cases he with
  | none => exact .inl ⟨rfl, rfl⟩
  | illegal => exact .inl ⟨rfl, rfl⟩
  | command i v t next running room work ends => exact .inl (State.worksTo_endsIn_host work ends).2
  | reset next => exact .inr (.inl next)
  | read => exact .inl ⟨rfl, rfl⟩
  | readOut => exact .inl ⟨rfl, rfl⟩
  | control v next noReset => exact .inl (State.writeCtrl_host noReset)
  | irqEnable v next => exact .inr (.inr (.inl ⟨rfl, v, next⟩))
  | acknowledge => exact .inl ⟨rfl, rfl⟩
  | queue v => exact .inl (State.pushCommand_host _ v)
  | index v next => exact .inr (.inr (.inr ⟨rfl, v, next⟩))

/-! ### A view of the units in a step -/

/-- A view of the units changes in a step by a reset or by a command that changes it. -/
theorem step_view {α : Type} {s t : State} (f : State → α) (hunits : ∀ u, f u.units = f u) (R : Instr → α → Prop)
    (hwork : ∀ {u v : State} {i : Instr}, u.worksTo i v → f v = f u ∨ R i (f v)) (h : step s = .next t) :
    f t = f s ∨ (nextIsReset s ∧ ∃ u : State, u.params = s.params ∧ t = u.resetAll)
      ∨ ∃ i, nextRuns s i ∧ R i (f t) := by
  rcases step_units h with ht | hr | ⟨i, u, v, hi, hu, hw, ht⟩
  · exact .inl (State.view_eq f hunits ht)
  · exact .inr (.inl hr)
  · rw [State.view_eq f hunits ht, ← State.view_eq f hunits hu]
    rcases hwork hw with hv | hv
    · exact .inl hv
    · exact .inr (.inr ⟨i, hi, hv⟩)

/-- A group of fields changes by its owner's commands and by resets only. -/
theorem step_owned {α : Type} {s t : State} (o : Owner) (f : State → α) (hunits : ∀ u, f u.units = f u)
    (hwork : ∀ {u v : State} {i : Instr}, u.worksTo i v → ownerOf i ≠ o → f v = f u) (h : step s = .next t) :
    f t = f s ∨ nextIsReset s ∨ ∃ i, nextRuns s i ∧ ownerOf i = o := by
  have hwork' : ∀ {u v : State} {i : Instr}, u.worksTo i v → f v = f u ∨ ownerOf i = o := fun {u v i} hw => by
    by_cases ho : ownerOf i = o
    · exact .inr ho
    · exact .inl (hwork hw ho)
  rcases step_view f hunits (fun i _ => ownerOf i = o) hwork' h with ht | ⟨hr, -⟩ | hi
  · exact .inl ht
  · exact .inr (.inl hr)
  · exact .inr (.inr hi)

/-- The parameters are hardwired (R48). -/
theorem step_params {s t : State} (h : step s = .next t) : t.params = s.params := by
  have hwork : ∀ {u v : State} {i : Instr}, u.worksTo i v → v.params = u.params ∨ False :=
    fun hw => .inl (congrArg (·.1) (State.worksTo_control hw))
  rcases step_view State.params (fun _ => rfl) (fun _ _ => False) hwork h with ht | ⟨-, u, hu, rfl⟩ | ⟨-, -, hf⟩
  · exact ht
  · exact hu
  · exact hf.elim

end Sys2Proof.Machine

namespace Sys2Proof.Proofs

open Sys2Proof Sys2Proof.Machine Sys2Proof.Statements

/-- Settles O54: what each command's work does to the flags, carried to the step by `step_view`. -/
theorem validityFlagEvents : Obligations.ValidityFlagEvents := by
  intro s t h
  have hhist := step_view State.histValid (fun _ => rfl) (fun i f => i = .histClear ∧ f = true)
    State.worksTo_histValid h
  have hlen := step_view State.lenValid (fun _ => rfl) (fun i f => i = .buildTree ∨ (i = .lenClear ∧ f = true))
    State.worksTo_lenValid h
  have hcodes := step_view State.codesValid (fun _ => rfl) (fun i f => (ownerOf i = .lengths ∧ f = false) ∨ i = .buildCodes)
    State.worksTo_codesValid_cases h
  refine ⟨fun h0 h1 => ?_, fun h1 h0 => ?_, fun h0 h1 => ?_, fun h1 h0 => ?_, fun h0 h1 => ?_, fun h1 h0 => ?_⟩
  · rcases hhist with heq | ⟨-, u, -, rfl⟩ | ⟨i, hi, rfl, -⟩
    · simp_all
    · simp at h1
    · exact hi
  · rcases hhist with heq | ⟨hr, -⟩ | ⟨i, -, -, hf⟩
    · simp_all
    · exact hr
    · simp_all
  · rcases hlen with heq | ⟨-, u, -, rfl⟩ | ⟨i, hi, rfl | ⟨rfl, -⟩⟩
    · simp_all
    · simp at h1
    · exact .inl hi
    · exact .inr hi
  · rcases hlen with heq | ⟨hr, -⟩ | ⟨i, hi, rfl | ⟨-, hf⟩⟩
    · simp_all
    · exact .inr hr
    · exact .inl hi
    · simp_all
  · rcases hcodes with heq | ⟨-, u, -, rfl⟩ | ⟨i, hi, ⟨-, hf⟩ | rfl⟩
    · simp_all
    · simp at h1
    · simp_all
    · exact hi
  · rcases hcodes with heq | ⟨hr, -⟩ | ⟨i, hi, ⟨ho, -⟩ | rfl⟩
    · simp_all
    · exact .inr (.inr (.inr (.inr hr)))
    · obtain rfl | rfl | ⟨sym, l, rfl⟩ := ownerOf_lengths ho
      · exact .inl hi
      · exact .inr (.inl hi)
      · exact .inr (.inr (.inl ⟨sym, l, hi⟩))
    · exact .inr (.inr (.inr (.inl hi)))

/-- Settles O55: each group of table fields has one owner; COUNT[EOS] is none of HIST_SAMPLE's. -/
theorem tableWriters : Obligations.TableWriters := by
  intro s t h
  refine ⟨fun hne => ?_, fun hne => ?_, fun hne => ?_, fun hne => ?_⟩
  · rcases step_owned .histogram State.histogram (fun _ => rfl) State.worksTo_histogram h with heq | hr | ⟨i, hi, ho⟩
    · simp_all [State.histogram]
    · exact .inr (.inr hr)
    · obtain rfl | ⟨m, v, rfl⟩ := ownerOf_histogram ho
      · exact .inl hi
      · exact .inr (.inl ⟨m, v, hi⟩)
  · rcases step_view (fun u => u.count.get 65536) (fun _ => rfl) (fun i _ => i = .histClear) State.worksTo_count_eos h
      with heq | ⟨hr, -⟩ | ⟨i, hi, rfl⟩
    · exact absurd heq hne
    · exact .inr hr
    · exact .inl hi
  · rcases step_owned .lengths State.lengths (fun _ => rfl) State.worksTo_lengths h with heq | hr | ⟨i, hi, ho⟩
    · exact absurd (congrArg (·.1) heq) hne
    · exact .inr (.inr (.inr hr))
    · obtain rfl | rfl | ⟨sym, l, rfl⟩ := ownerOf_lengths ho
      · exact .inl hi
      · exact .inr (.inl hi)
      · exact .inr (.inr (.inl ⟨sym, l, hi⟩))
  · rcases step_owned .codes State.codeTables (fun _ => rfl) State.worksTo_codeTables h with heq | hr | ⟨i, hi, ho⟩
    · simp_all [State.codeTables]
    · exact .inr hr
    · exact .inl (ownerOf_codes ho ▸ hi)

/-- Settles O56: the encoder's and the decoder's fields have one owner each, the host's registers their own writes. -/
theorem unitsAreSeparate : Obligations.UnitsAreSeparate := by
  intro s t h
  refine ⟨step_params h, fun hne => ?_, fun hne => ?_, fun hne => ?_, fun hne => ?_⟩
  · rcases step_owned .encoder State.encoder (fun _ => rfl) State.worksTo_encoder h with heq | hr | ⟨i, hi, ho⟩
    · simp_all [State.encoder]
    · exact .inr (.inr (.inr hr))
    · obtain rfl | ⟨m, v, rfl⟩ | rfl := ownerOf_encoder ho
      · exact .inl hi
      · exact .inr (.inl ⟨m, v, hi⟩)
      · exact .inr (.inr (.inl hi))
  · rcases step_owned .decoder State.decoder (fun _ => rfl) State.worksTo_decoder h with heq | hr | ⟨i, hi, ho⟩
    · simp_all [State.decoder]
    · exact .inr (.inr (.inr hr))
    · obtain rfl | ⟨b, rfl⟩ | rfl := ownerOf_decoder ho
      · exact .inl hi
      · exact .inr (.inl ⟨b, hi⟩)
      · exact .inr (.inr (.inl hi))
  · rcases step_host_registers h with ⟨heq, -⟩ | hr | ⟨-, hv⟩ | ⟨heq, -⟩
    · exact absurd heq hne
    · exact .inr hr
    · exact .inl hv
    · exact absurd heq hne
  · rcases step_host_registers h with ⟨-, heq⟩ | hr | ⟨heq, -⟩ | ⟨-, hv⟩
    · exact absurd heq hne
    · exact .inr hr
    · exact absurd heq hne
    · exact .inl hv

end Sys2Proof.Proofs
end

section
/-! The histogram and the lengths stay sound (O48, O49). -/

namespace Sys2Proof.Machine

/-! ### The histogram (R23, R25, R100, R101) -/

theorem State.histogramSound_congr {s t : State} (h : t.histogram = s.histogram) (hs : s.histogramSound) :
    t.histogramSound := by
  simp only [State.histogram, Prod.mk.injEq] at h
  obtain ⟨hcount, htotal, hvalid⟩ := h
  simpa only [State.histogramSound, hcount, htotal, hvalid] using hs

theorem sampleTotal_emptyHistogram : sampleTotal emptyHistogram = 0 := by
  refine Finset.sum_eq_zero fun sym hsym => ?_
  have hne : sym ≠ Config.eos := (Finset.mem_range.1 hsym).ne
  rw [emptyHistogram, Table.get_set_other _ _ hne, Table.get_const]
  rfl

theorem State.startHistogram_sound (s : State) : s.startHistogram.histogramSound := fun _ =>
  ⟨rfl, (Table.const 65537 32 0).get_set_self 1 (by decide), sampleTotal_emptyHistogram, Nat.zero_le _⟩

/-- One more sample counts one more in the total, as long as its own count does not wrap. -/
theorem sampleTotal_set_succ {count : Table 65537 32} {v : Nat} (hv : v < 65536) (hfit : (count.get v).toNat + 1 < 2 ^ 32) :
    sampleTotal (count.set v (count.get v + 1)) = sampleTotal count + 1 := by
  have hmem : v ∈ Finset.range 65536 := Finset.mem_range.2 hv
  have hself : ((count.set v (count.get v + 1)).get v).toNat = (count.get v).toNat + 1 := by
    rw [count.get_set_self _ (by omega), BitVec.toNat_add]
    exact Nat.mod_eq_of_lt hfit
  have hrest : ∀ sym ∈ (Finset.range 65536).erase v,
      ((count.set v (count.get v + 1)).get sym).toNat = (count.get sym).toNat := fun sym hsym => by
    rw [count.get_set_other _ (Finset.ne_of_mem_erase hsym)]
  unfold sampleTotal
  rw [← Finset.add_sum_erase _ _ hmem, ← Finset.add_sum_erase _ (fun sym => (count.get sym).toNat) hmem, hself,
    Finset.sum_congr rfl hrest]
  omega

theorem count_le_sampleTotal (count : Table 65537 32) {v : Nat} (hv : v < 65536) :
    (count.get v).toNat ≤ sampleTotal count :=
  Finset.single_le_sum (f := fun sym => (count.get sym).toNat) (fun _ _ => Nat.zero_le _) (Finset.mem_range.2 hv)

/-- A counted sample keeps the histogram one: HIST_TOTAL below TOTAL_MAX bounds every count, so nothing wraps (R101). -/
theorem State.countSample_sound {s : State} {v : BitVec 25} (hs : s.histogramSound) (hvalid : s.histValid = true)
    (hv : v.toNat ≤ Config.sampleMax) (hroom : s.histTotal ≠ Config.totalMax) : (s.countSample v).histogramSound := by
  obtain ⟨hfill, heos, htotal, hmax⟩ := hs hvalid
  have hlt : v.toNat < 65536 := Nat.lt_succ_of_le hv
  have hne : s.histTotal.toNat ≠ 2 ^ 32 - 2 := fun h => hroom (BitVec.eq_of_toNat_eq h)
  have hfit := count_le_sampleTotal s.count hlt
  have hsucc : (s.histTotal + 1).toNat = s.histTotal.toNat + 1 := by
    rw [BitVec.toNat_add]
    exact Nat.mod_eq_of_lt (by show s.histTotal.toNat + 1 < 2 ^ 32; omega)
  refine fun _ => ⟨?_, ?_, ?_, ?_⟩
  · exact (s.count.set_fill _ _).trans hfill
  · exact (s.count.get_set_other _ (by omega)).trans heos
  · show sampleTotal (s.count.set v.toNat (s.count.get v.toNat + 1)) = (s.histTotal + 1).toNat
    rw [sampleTotal_set_succ hlt (by omega), hsucc, htotal]
  · show (s.histTotal + 1).toNat ≤ 2 ^ 32 - 2
    omega

theorem State.worksTo_histogramSound {s u : State} {i : Instr} (h : s.worksTo i u) (hs : s.histogramSound) :
    u.histogramSound := by
  by_cases ho : ownerOf i = .histogram
  · obtain rfl | ⟨m, v, rfl⟩ := ownerOf_histogram ho
    · rw [show u = s.startHistogram from h]
      exact s.startHistogram_sound
    · obtain rfl | ⟨hvalid, hv, hroom, rfl⟩ := h
      · exact hs
      · exact State.countSample_sound hs hvalid hv hroom
  · exact State.histogramSound_congr (State.worksTo_histogram h ho) hs

/-! ### The lengths (R26, R30, R32) -/

theorem Table.get_set_or {n w : Nat} (t : Table n w) (i k : Nat) (v : BitVec w) :
    (t.set i v).get k = v ∨ (t.set i v).get k = t.get k := by
  by_cases hi : i < n
  · rw [t.get_set k v hi]
    split
    · exact .inl rfl
    · exact .inr rfl
  · exact .inr (by simp [Table.set, hi])

theorem Table.foldl_set_fill {n w : Nat} {α : Type} (index : α → Nat) (value : α → BitVec w) (l : List α)
    (t : Table n w) : (l.foldl (fun t c => t.set (index c) (value c)) t).fill = t.fill := by
  induction l generalizing t with
  | nil => rfl
  | cons c rest ih => exact (ih _).trans (t.set_fill _ _)

/-- An entry after a sequence of writes is one of the written values or the old one. -/
theorem Table.foldl_set_get {n w : Nat} {α : Type} (index : α → Nat) (value : α → BitVec w) (l : List α) (t : Table n w)
    (k : Nat) :
    (∃ c ∈ l, (l.foldl (fun t c => t.set (index c) (value c)) t).get k = value c)
      ∨ (l.foldl (fun t c => t.set (index c) (value c)) t).get k = t.get k := by
  induction l generalizing t with
  | nil => exact .inr rfl
  | cons a rest ih =>
    rcases ih (t.set (index a) (value a)) with ⟨c, hc, h⟩ | h
    · exact .inl ⟨c, List.mem_cons_of_mem _ hc, h⟩
    · rcases t.get_set_or (index a) k (value a) with h' | h'
      · exact .inl ⟨a, List.mem_cons_self, h.trans h'⟩
      · exact .inr (h.trans h')

theorem firstOverlong_eq_none {lengths : List (Nat × Nat)} (h : firstOverlong lengths = none) :
    ∀ c ∈ lengths, c.2 ≤ 64 := by
  simpa [firstOverlong, List.min?_eq_none_iff] using h

theorem lengthTable_fill (lengths : List (Nat × Nat)) : (lengthTable lengths).fill = .const 0 :=
  Table.foldl_set_fill (fun c : Nat × Nat => c.1) (fun c => BitVec.ofNat 7 c.2) lengths _

theorem lengthTable_le {lengths : List (Nat × Nat)} (h : ∀ c ∈ lengths, c.2 ≤ 64) (sym : Nat) :
    ((lengthTable lengths).get sym).toNat ≤ 64 := by
  rcases Table.foldl_set_get (fun c : Nat × Nat => c.1) (fun c => BitVec.ofNat 7 c.2) lengths (Table.const 65537 7 0) sym
    with ⟨c, hc, hget⟩ | hget
  · rw [lengthTable, hget, BitVec.toNat_ofNat]
    exact (Nat.mod_le _ _).trans (h c hc)
  · rw [lengthTable, hget]
    exact Nat.zero_le _

/-- MAX_LEN is some symbol's length, or 0 (R113). -/
theorem maxLength_le {len : Table 65537 7} (h : ∀ sym, (len.get sym).toNat ≤ 64) (syms : List Nat) :
    (maxLength len syms).toNat ≤ 64 := by
  unfold maxLength
  split
  · exact Nat.zero_le _
  · exact h _

theorem State.lengthsSound_congr {s t : State} (hl : t.lengths = s.lengths) (hm : t.maxLen = s.maxLen)
    (hc : t.codesValid = true → s.codesValid = true) (hs : s.lengthsSound) : t.lengthsSound := by
  simp only [State.lengths, Prod.mk.injEq] at hl
  obtain ⟨hlen, hvalid⟩ := hl
  obtain ⟨h1, h2, h3⟩ := hs
  exact ⟨by rwa [hlen, hvalid], by rwa [hm], by rw [hvalid]; exact h3 ∘ hc⟩

theorem State.writeLength_sound {s : State} {sym : BitVec 17} {l : BitVec 7} (hs : s.lengthsSound) (hl : l.toNat ≤ 64) :
    (s.writeLength sym l).lengthsSound := by
  obtain ⟨hlen, hmax, -⟩ := hs
  refine ⟨fun hvalid => ?_, hmax, nofun⟩
  obtain ⟨hfill, hle⟩ := hlen hvalid
  refine ⟨(s.len.set_fill _ _).trans hfill, fun x => ?_⟩
  show ((s.len.set sym.toNat l).get x).toNat ≤ 64
  rcases s.len.get_set_or sym.toNat x l with h | h <;> rw [h]
  · exact hl
  · exact hle x

theorem State.worksTo_lengthsSound {s u : State} {i : Instr} (h : s.worksTo i u) (hs : s.lengthsSound) :
    u.lengthsSound := by
  obtain ⟨hlen, hmax, hcodes⟩ := id hs
  by_cases hl : ownerOf i = .lengths
  · obtain rfl | rfl | ⟨sym, l, rfl⟩ := ownerOf_lengths hl
    · obtain rfl | rfl | ⟨root, hfit, rfl⟩ := h
      · exact hs
      · exact ⟨nofun, hmax, nofun⟩
      · exact ⟨fun _ => ⟨lengthTable_fill _, lengthTable_le (firstOverlong_eq_none hfit)⟩, hmax, nofun⟩
    · rw [show u = s.clearLengths from h]
      exact ⟨fun _ => ⟨rfl, fun _ => Nat.zero_le _⟩, hmax, nofun⟩
    · obtain rfl | ⟨-, -, hle, rfl⟩ := h
      · exact hs
      · exact State.writeLength_sound hs hle
  · by_cases hc : ownerOf i = .codes
    · obtain rfl := ownerOf_codes hc
      obtain rfl | ⟨hvalid, rfl | ⟨codes, -, rfl⟩⟩ := h
      · exact hs
      · exact ⟨hlen, maxLength_le (hlen hvalid).2 _, nofun⟩
      · exact ⟨hlen, maxLength_le (hlen hvalid).2 _, fun _ => hvalid⟩
    · refine State.lengthsSound_congr (State.worksTo_lengths h hl) ?_ ?_ hs
      · exact congrArg (·.2.2.2.2.1) (State.worksTo_codeTables h hc)
      · exact fun ht => (State.worksTo_codesValid h hl hc).symm.trans ht

end Sys2Proof.Machine

namespace Sys2Proof.Proofs

open Sys2Proof Sys2Proof.Machine Sys2Proof.Statements

/-- Settles O48: a reset leaves no valid histogram, and the work of every command keeps one. -/
theorem histogramStaysSound : Obligations.HistogramStaysSound := fun _ _ hs h =>
  step_keeps_units State.histogramSound (fun _ => Iff.rfl) h hs (fun _ => nofun)
    fun _ _ _ _ hu hw => State.worksTo_histogramSound hw hu

/-- Settles O49: a reset leaves no valid lengths and MAX_LEN 0, and the work of every command keeps the bounds. -/
theorem lengthsStaySound : Obligations.LengthsStaySound := fun _ _ hs h =>
  step_keeps_units State.lengthsSound (fun _ => Iff.rfl) h hs (fun _ => ⟨nofun, Nat.zero_le _, nofun⟩)
    fun _ _ _ _ hu hw => State.worksTo_lengthsSound hw hu

end Sys2Proof.Proofs
end

section
/-! The code tables stay those of LEN (O50). -/

namespace Sys2Proof.Machine

/-! ### The sorted symbols (R113) -/

theorem lengthOf_lt (len : Table 65537 7) (sym : Nat) : lengthOf len sym < 128 := (len.get sym).isLt

theorem mem_lengthsSorted {len : Table 65537 7} {sym : Nat} : sym ∈ lengthsSorted len ↔ sym ∈ len.support := by
  simp [lengthsSorted, lengthValues, symbolsOfLength, lengthOf_lt]

theorem mem_lengthsSorted_lt {len : Table 65537 7} (h : len.wf = true) {sym : Nat} (hs : sym ∈ lengthsSorted len) :
    sym < 65537 :=
  ((Table.mem_support h sym).1 (mem_lengthsSorted.1 hs)).1

theorem lengthsSorted_nodup {len : Table 65537 7} (h : len.wf = true) : (lengthsSorted len).Nodup := by
  refine List.nodup_flatMap.2 ⟨fun l _ => (Table.support_nodup h).filter _, ?_⟩
  refine List.nodup_range.imp fun {a b} hab sym ha hb => hab ?_
  simp only [symbolsOfLength, List.mem_filter, beq_iff_eq] at ha hb
  exact ha.2.symm.trans hb.2

/-- There are no more coded symbols than symbols. -/
theorem lengthsSorted_length_le {len : Table 65537 7} (h : len.wf = true) : (lengthsSorted len).length ≤ 65537 := by
  have hsub : lengthsSorted len ⊆ List.range 65537 := fun sym hs => List.mem_range.2 (mem_lengthsSorted_lt h hs)
  simpa using ((lengthsSorted_nodup h).subperm hsub).length_le

/-! ### SORTED as BUILD_CODES writes it (R113) -/

/-- Writes from index `k` on leave the entries before `k` alone and put the list's symbols in place. -/
theorem foldl_set_zipIdx_get (syms : List Nat) (t : Table 65537 17) (k i : Nat) (hfit : k + syms.length ≤ 65537) :
    ((syms.zipIdx k).foldl (fun t c => t.set c.2 (BitVec.ofNat 17 c.1)) t).get i =
      if h : k ≤ i ∧ i < k + syms.length then BitVec.ofNat 17 (syms[i - k]'(by omega)) else t.get i := by
  induction syms generalizing t k with
  | nil => simp
  | cons a rest ih =>
    rw [List.length_cons] at hfit
    rw [List.zipIdx_cons, List.foldl_cons, ih _ _ (by omega)]
    rcases Nat.lt_trichotomy i k with hlt | rfl | hgt
    · rw [dif_neg (by omega), dif_neg (by omega), t.get_set_other _ (by omega)]
    · rw [dif_neg (by omega), dif_pos (by simp)]
      simp [t.get_set_self _ (show i < 65537 by omega)]
    · have hidx : i - k = (i - (k + 1)) + 1 := by omega
      by_cases hin : i < k + 1 + rest.length
      · rw [dif_pos (by omega), dif_pos (by simp; omega)]
        simp [hidx]
      · rw [dif_neg (by omega), dif_neg (by simp; omega), t.get_set_other _ (by omega)]

theorem writeSorted_get {t : Table 65537 17} {syms : List Nat} (hfit : syms.length ≤ 65537) {i : Nat}
    (hi : i < syms.length) : (writeSorted t syms).get i = BitVec.ofNat 17 syms[i] := by
  have h := foldl_set_zipIdx_get syms t 0 i (by omega)
  rw [dif_pos (by omega)] at h
  exact h

/-- SORTED's first entries are the sorted symbols. -/
theorem sorted_getElem? {len : Table 65537 7} (t : Table 65537 17) (h : len.wf = true) {i : Nat}
    (hi : i < (lengthsSorted len).length) :
    (lengthsSorted len)[i]? = some ((writeSorted t (lengthsSorted len)).get i).toNat := by
  have hlt : (lengthsSorted len)[i] < 65537 := mem_lengthsSorted_lt h (List.getElem_mem hi)
  rw [writeSorted_get (lengthsSorted_length_le h) hi, BitVec.toNat_ofNat, Nat.mod_eq_of_lt (by omega),
    List.getElem?_eq_getElem hi]

theorem numCoded_toNat {len : Table 65537 7} (h : len.wf = true) :
    (BitVec.ofNat 17 (lengthsSorted len).length).toNat = (lengthsSorted len).length := by
  have hle := lengthsSorted_length_le h
  rw [BitVec.toNat_ofNat]
  exact Nat.mod_eq_of_lt (by omega)

/-! ### The code tables (R32, R112, R118) -/

theorem State.codesSound_congr {s t : State} (hlen : t.len = s.len) (hcodes : t.codeTables = s.codeTables)
    (hvalid : t.codesValid = true → s.codesValid = true) (hs : s.codesSound) : t.codesSound := by
  simp only [State.codeTables, Prod.mk.injEq] at hcodes
  obtain ⟨hcode, hsorted, hfirst, hnum, hmax, -⟩ := hcodes
  intro ht
  simpa only [hlen, hcode, hsorted, hfirst, hnum, hmax] using hs (hvalid ht)

/-- BUILD_CODES leaves the code tables of LEN (R112, R113, R114). -/
theorem State.buildCodes_sound {s : State} {codes : Table 65537 64} (hwf : s.len.wf = true)
    (hc : canonicalCodes s.len = .ok codes) :
    ({ s.sortLengths.measurePayload with code := codes, codesValid := true } : State).codesSound := by
  have hnum := numCoded_toNat hwf
  exact fun _ => ⟨hc, hnum, fun i hi => sorted_getElem? s.sorted hwf (lt_of_lt_of_eq hi hnum), rfl, rfl⟩

theorem State.worksTo_codesSound {s u : State} {i : Instr} (hwf : s.len.wf = true) (h : s.worksTo i u)
    (hs : s.codesSound) : u.codesSound := by
  have invalid : u.codesValid = false → u.codesSound := fun h0 h1 => absurd (h0.symm.trans h1) (by decide)
  by_cases hl : ownerOf i = .lengths
  · obtain rfl | rfl | ⟨sym, l, rfl⟩ := ownerOf_lengths hl
    · obtain rfl | rfl | ⟨root, -, rfl⟩ := h
      · exact hs
      · exact invalid rfl
      · exact invalid rfl
    · exact invalid (congrArg State.codesValid (show u = s.clearLengths from h))
    · obtain rfl | ⟨-, -, -, rfl⟩ := h
      · exact hs
      · exact invalid rfl
  · by_cases hc : ownerOf i = .codes
    · obtain rfl := ownerOf_codes hc
      obtain rfl | ⟨-, rfl | ⟨codes, hok, rfl⟩⟩ := h
      · exact hs
      · exact invalid rfl
      · exact State.buildCodes_sound hwf hok
    · exact State.codesSound_congr (congrArg (·.1) (State.worksTo_lengths h hl)) (State.worksTo_codeTables h hc)
        (fun ht => (State.worksTo_codesValid h hl hc).symm.trans ht) hs

end Sys2Proof.Machine

namespace Sys2Proof.Proofs

open Sys2Proof Sys2Proof.Machine Sys2Proof.Statements

/-- Settles O50: a reset leaves no valid codes, and every command either keeps LEN and the code tables, or clears
CODES_VALID, or is a BUILD_CODES that writes them from LEN. -/
theorem codesStayCanonical : Obligations.CodesStayCanonical := by
  intro s t ⟨_, hwf, _⟩ hs h
  refine step_keeps_units State.codesSound (fun _ => Iff.rfl) h hs (fun _ => nofun) fun i u v hu hP hw => ?_
  have hlen : u.len = s.len := State.view_eq State.len (fun _ => rfl) hu
  exact State.worksTo_codesSound (hlen ▸ hwf) hw hP

end Sys2Proof.Proofs
end

section
/-! The encoder's pending bits and the decoder's running code (O51, O52). -/

namespace Sys2Proof.Machine

/-! ### The pending bits (R34, R120) -/

theorem State.pendingSound_congr {s t : State} (h : t.encoder = s.encoder) (hs : s.pendingSound) : t.pendingSound := by
  simp only [State.encoder, Prod.mk.injEq] at h
  obtain ⟨-, hacc, hnacc, -, -⟩ := h
  simpa only [State.pendingSound, hacc, hnacc] using hs

/-- An empty accumulator has no bit set. -/
theorem State.pendingSound_of_empty {s : State} (h : s.encAcc = 0) : s.pendingSound := fun j _ => by
  rw [h]
  exact BitVec.getLsbD_zero

/-- The next pending bit is written at `7 - ENC_NACC`; the bits below it are left alone (R120). -/
theorem withPendingBit_getLsbD_below {acc : Byte} {nacc : BitVec 3} (b : Bool) {j : Nat} (h : j + nacc.toNat < 7) :
    (withPendingBit acc nacc b).getLsbD j = acc.getLsbD j := by
  have hmask : ((0x80 : Byte) >>> nacc.toNat).getLsbD j = false := by
    rw [BitVec.getLsbD_ushiftRight]
    have key : ∀ k < 7, (0x80 : Byte).getLsbD k = false := by decide
    exact key _ (by omega)
  have hj : j < 8 := by omega
  unfold withPendingBit
  split
  · rw [BitVec.getLsbD_or, hmask, Bool.or_false]
  · rw [BitVec.getLsbD_and, BitVec.getLsbD_not, hmask]
    simp [hj]

theorem State.emitBit_pendingSound {s : State} (b : Bool) (hs : s.pendingSound) : (s.emitBit b).pendingSound := by
  unfold State.emitBit
  split
  · exact State.pendingSound_of_empty rfl
  next hfull =>
    intro j hj
    have hlt : s.encNacc.toNat ≠ 7 := fun h => hfull (BitVec.eq_of_toNat_eq h)
    have hnext : (s.encNacc + 1).toNat = s.encNacc.toNat + 1 := by
      rw [BitVec.toNat_add]
      exact Nat.mod_eq_of_lt (by have := s.encNacc.isLt; show s.encNacc.toNat + 1 < 2 ^ 3; omega)
    have hj : j + (s.encNacc + 1).toNat ≤ 7 := hj
    show (withPendingBit s.encAcc s.encNacc b).getLsbD j = false
    rw [withPendingBit_getLsbD_below b (by omega)]
    exact hs j (by omega)

theorem State.emitBits_pendingSound {s : State} (bits : List Bool) (hs : s.pendingSound) :
    (s.emitBits bits).pendingSound := by
  induction bits generalizing s with
  | nil => exact hs
  | cons b rest ih => exact ih (State.emitBit_pendingSound b hs)

theorem State.padPayload_pendingSound {s : State} (hs : s.pendingSound) : s.padPayload.pendingSound := by
  unfold State.padPayload
  split
  · exact hs
  · exact State.pendingSound_of_empty rfl

theorem State.closePayload_pendingSound {s : State} (hs : s.pendingSound) : s.closePayload.pendingSound := hs

theorem State.worksTo_pendingSound {s u : State} {i : Instr} (h : s.worksTo i u) (hs : s.pendingSound) :
    u.pendingSound := by
  by_cases ho : ownerOf i = .encoder
  · obtain rfl | ⟨m, v, rfl⟩ | rfl := ownerOf_encoder ho
    · obtain rfl | rfl := h
      · exact hs
      · exact State.pendingSound_of_empty rfl
    · obtain rfl | rfl | ⟨-, rfl⟩ := h
      · exact hs
      · exact hs
      · exact State.emitBits_pendingSound _ hs
    · obtain rfl | ⟨-, h⟩ := h
      · exact hs
      · rw [h]
        exact State.closePayload_pendingSound (State.padPayload_pendingSound (State.emitBits_pendingSound _ hs))
  · exact State.pendingSound_congr (State.worksTo_encoder h ho) hs

/-! ### The running code (R36, R37, R126) -/

theorem State.walkSound_congr {s t : State} (h : t.decoder = s.decoder) (hs : s.walkSound) : t.walkSound := by
  simp only [State.decoder, Prod.mk.injEq] at h
  obtain ⟨hstate, hrc, hrl, -, -⟩ := h
  simpa only [State.walkSound, hstate, hrc, hrl] using hs

theorem State.appendBit_decRl_toNat {s : State} (b : Bool) (h : s.decRl.toNat ≤ 63) :
    (s.appendBit b).decRl.toNat = s.decRl.toNat + 1 := by
  show (s.decRl + 1).toNat = _
  rw [BitVec.toNat_add]
  exact Nat.mod_eq_of_lt (by show s.decRl.toNat + 1 < 2 ^ 7; omega)

/-- One more bit doubles the running code and adds the bit; below `2 ^ 63` nothing is shifted out (R126). -/
theorem State.appendBit_decRc_toNat {s : State} (b : Bool) (h : s.decRc.toNat < 2 ^ 63) :
    (s.appendBit b).decRc.toNat = 2 * s.decRc.toNat + b.toNat := by
  show ((s.decRc <<< 1) ||| (BitVec.ofBool b).setWidth 64).toNat = _
  have hshift : (s.decRc <<< 1).toNat = s.decRc.toNat <<< 1 := by
    rw [BitVec.toNat_shiftLeft]
    exact Nat.mod_eq_of_lt (by rw [Nat.shiftLeft_eq]; omega)
  have hbit : ((BitVec.ofBool b).setWidth 64).toNat = b.toNat := by cases b <;> rfl
  rw [BitVec.toNat_or, hshift, hbit, ← Nat.shiftLeft_add_eq_or_of_lt (by cases b <;> decide), Nat.shiftLeft_eq]
  omega

/-- The bounds of a running code that has just grown by a bit. -/
theorem State.appendBit_bounds {s : State} (b : Bool) (hs : s.walkSound) (hrun : s.decState = .run) :
    (s.appendBit b).decRl.toNat ≤ 64 ∧ (s.appendBit b).decRc.toNat < 2 ^ (s.appendBit b).decRl.toNat := by
  obtain ⟨-, hrl, hrc⟩ := hs
  have hrl := hrl hrun
  have hrc63 : s.decRc.toNat < 2 ^ 63 := hrc.trans_le (Nat.pow_le_pow_right (by decide) hrl)
  rw [State.appendBit_decRl_toNat b hrl, State.appendBit_decRc_toNat b hrc63, Nat.pow_succ]
  have hb := b.toNat_le
  omega

theorem State.decBit_walkSound {s : State} (b : Bool) (hmax : s.maxLen.toNat ≤ 64) (hs : s.walkSound) :
    (s.decBit b).walkSound := by
  rcases s.decBit_cases b with ⟨-, h⟩ | ⟨hrun, hstep⟩
  · rwa [h]
  obtain ⟨hrl, hrc⟩ := State.appendBit_bounds b hs hrun
  rcases hstep with ⟨sym, -, -, h⟩ | ⟨sym, -, -, h⟩ | ⟨-, h⟩ <;> rw [h]
  · exact ⟨hrl, nofun, hrc⟩
  · exact ⟨Nat.zero_le _, fun _ => Nat.zero_le _, Nat.one_pos⟩
  · unfold State.noMatchYet
    split
    · exact ⟨hrl, nofun, hrc⟩
    next hmore =>
      have hmax : (s.appendBit b).maxLen.toNat ≤ 64 := hmax
      exact ⟨hrl, fun _ => by omega, hrc⟩

theorem State.decBitList_walkSound {s : State} (bits : List Bool) (hmax : s.maxLen.toNat ≤ 64) (hs : s.walkSound) :
    (s.decBitList bits).walkSound := by
  induction bits generalizing s with
  | nil => exact hs
  | cons b rest ih =>
    refine ih ?_ (State.decBit_walkSound b hmax hs)
    rw [State.decBit_frame]
    exact hmax

theorem State.worksTo_walkSound {s u : State} {i : Instr} (hmax : s.maxLen.toNat ≤ 64) (h : s.worksTo i u)
    (hs : s.walkSound) : u.walkSound := by
  have closed : ({ s with decState := .idle } : State).walkSound := ⟨hs.1, nofun, hs.2.2⟩
  by_cases ho : ownerOf i = .decoder
  · obtain rfl | ⟨b, rfl⟩ | rfl := ownerOf_decoder ho
    · obtain rfl | rfl := h
      · exact hs
      · exact ⟨Nat.zero_le _, fun _ => Nat.zero_le _, Nat.one_pos⟩
    · obtain rfl | ⟨-, h⟩ := h
      · exact closed
      · rw [h]
        exact State.decBitList_walkSound _ hmax hs
    · obtain rfl | rfl := h
      · exact hs
      · exact closed
  · exact State.walkSound_congr (State.worksTo_decoder h ho) hs

end Sys2Proof.Machine

namespace Sys2Proof.Proofs

open Sys2Proof Sys2Proof.Machine Sys2Proof.Statements

/-- Settles O51: a reset empties the accumulator, and the encoder writes a bit only where the next one is pending. -/
theorem pendingBitsStayJustified : Obligations.PendingBitsStayJustified := fun _ _ hs h =>
  step_keeps_units State.pendingSound (fun _ => Iff.rfl) h hs (fun _ => State.pendingSound_of_empty rfl)
    fun _ _ _ _ hu hw => State.worksTo_pendingSound hw hu

/-- Settles O52: a reset empties the running code, and a walk goes on only below MAX_LEN. -/
theorem runningCodeStaysBounded : Obligations.RunningCodeStaysBounded := by
  intro s t ⟨_, hmax, _⟩ hs h
  refine step_keeps_units State.walkSound (fun _ => Iff.rfl) h hs ?_ fun i u v hu hP hw => ?_
  · exact fun _ => ⟨Nat.zero_le _, nofun, Nat.one_pos⟩
  · have hlen : u.maxLen = s.maxLen := State.view_eq State.maxLen (fun _ => rfl) hu
    exact State.worksTo_walkSound (hlen ▸ hmax) hw hP

end Sys2Proof.Proofs
end

section
/-! The queues and the error registers (O46, O47, O58). -/

namespace Sys2Proof.Machine

open Sys2Proof.Statements (nextRuns nextIsReset nextIsWrite)

/-! ### What the bit operations push -/

@[simp] theorem codeBits_length (c : BitVec 64) (l : Nat) : (codeBits c l).length = l := by
  induction l with
  | zero => rfl
  | succ l ih => rw [codeBits, List.length_cons, ih]

/-- Emitted bits push bytes, and every bit is in a pushed byte or pending (R34, R120). -/
theorem State.emitBit_outq (s : State) (b : Bool) :
    ∃ bytes : List Byte, (s.emitBit b).outq = s.outq ++ bytes.map byteWord
      ∧ 8 * bytes.length + (s.emitBit b).encNacc.toNat = s.encNacc.toNat + 1 := by
  unfold State.emitBit
  split
  next hfull => exact ⟨[withPendingBit s.encAcc s.encNacc b], rfl, by rw [hfull]; rfl⟩
  next hroom =>
    refine ⟨[], (List.append_nil _).symm, ?_⟩
    have hne : s.encNacc.toNat ≠ 7 := fun h => hroom (BitVec.eq_of_toNat_eq h)
    have hlt := s.encNacc.isLt
    show 0 + (s.encNacc + 1).toNat = _
    rw [BitVec.toNat_add, Nat.zero_add]
    exact Nat.mod_eq_of_lt (by show s.encNacc.toNat + 1 < 2 ^ 3; omega)

theorem State.emitBits_outq (s : State) (bits : List Bool) :
    ∃ bytes : List Byte, (s.emitBits bits).outq = s.outq ++ bytes.map byteWord
      ∧ 8 * bytes.length + (s.emitBits bits).encNacc.toNat = s.encNacc.toNat + bits.length := by
  induction bits generalizing s with
  | nil => exact ⟨[], by simp, by simp⟩
  | cons b rest ih =>
    obtain ⟨first, hfirst, hn⟩ := s.emitBit_outq b
    obtain ⟨bytes, hbytes, hm⟩ := ih (s.emitBit b)
    refine ⟨first ++ bytes, ?_, ?_⟩
    · rw [State.emitBits_cons, hbytes, hfirst, List.map_append, List.append_assoc]
    · rw [State.emitBits_cons, List.length_append, List.length_cons]
      omega

/-- A code of at most 64 bits completes at most eight bytes (R90). -/
theorem State.emit_outq (s : State) (c : BitVec 64) (l : BitVec 7) :
    ∃ bytes : List Byte, (s.emit c l).outq = s.outq ++ bytes.map byteWord ∧ (l.toNat ≤ 64 → bytes.length ≤ 8) := by
  obtain ⟨bytes, hout, hlen⟩ := s.emitBits_outq (codeBits c l.toNat)
  rw [codeBits_length] at hlen
  have hlt := s.encNacc.isLt
  exact ⟨bytes, hout, fun _ => by omega⟩

/-- Byte rounding pushes at most one byte (R123). -/
theorem State.padPayload_outq (s : State) :
    ∃ bytes : List Byte, s.padPayload.outq = s.outq ++ bytes.map byteWord ∧ bytes.length ≤ 1 := by
  unfold State.padPayload
  split
  · exact ⟨[], (List.append_nil _).symm, Nat.zero_le _⟩
  · exact ⟨[s.encAcc], rfl, Nat.le_refl _⟩

/-- ENC_FINISH's bytes and END are at most PUSH_MAX words (R90). -/
theorem State.finish_outq (s : State) (c : BitVec 64) (l : BitVec 7) :
    ∃ words, (s.emit c l).padPayload.closePayload.outq = s.outq ++ words ∧ (l.toNat ≤ 64 → words.length ≤ 10) := by
  obtain ⟨bytes, hbytes, hlen⟩ := s.emit_outq c l
  obtain ⟨pad, hpad, hone⟩ := (s.emit c l).padPayload_outq
  refine ⟨bytes.map byteWord ++ pad.map byteWord ++ [endEncWord], ?_, fun hl => ?_⟩
  · show (s.emit c l).padPayload.outq ++ [endEncWord] = _
    rw [hpad, hbytes, List.append_assoc, List.append_assoc, List.append_assoc]
  · have hlen := hlen hl
    simp only [List.length_append, List.length_map, List.length_singleton]
    omega

/-- A payload bit pushes at most one word (R126). -/
theorem State.decBit_outq (s : State) (b : Bool) :
    ∃ words, (s.decBit b).outq = s.outq ++ words ∧ words.length ≤ 1 := by
  rcases s.decBit_cases b with ⟨-, h⟩ | ⟨-, ⟨sym, -, -, h⟩ | ⟨sym, -, -, h⟩ | ⟨-, h⟩⟩ <;> rw [h]
  · exact ⟨[], (List.append_nil _).symm, Nat.zero_le _⟩
  · exact ⟨[endDecWord], rfl, Nat.le_refl _⟩
  · exact ⟨[symWord sym], rfl, Nat.le_refl _⟩
  · refine ⟨[], ?_, Nat.zero_le _⟩
    unfold State.noMatchYet
    split <;> exact (List.append_nil _).symm

theorem State.decBitList_outq (s : State) (bits : List Bool) :
    ∃ words, (s.decBitList bits).outq = s.outq ++ words ∧ words.length ≤ bits.length := by
  induction bits generalizing s with
  | nil => exact ⟨[], by simp, Nat.le_refl _⟩
  | cons b rest ih =>
    obtain ⟨first, hfirst, hn⟩ := s.decBit_outq b
    obtain ⟨words, hwords, hm⟩ := ih (s.decBit b)
    refine ⟨first ++ words, ?_, ?_⟩
    · rw [State.decBitList_cons, hwords, hfirst, List.append_assoc]
    · rw [List.length_append, List.length_cons]
      omega

/-- The work of a command appends to OUTQ: nothing unless it may push, and at most PUSH_MAX words (R90). -/
theorem State.worksTo_outq {s u : State} {i : Instr} (h : s.worksTo i u) :
    ∃ words, u.outq = s.outq ++ words ∧ (i.mayPush = false → words = [])
      ∧ ((s.codesValid = true → ∀ sym : Nat, (s.len.get sym).toNat ≤ 64) → words.length ≤ 10) := by
  have silent : ∀ v : State, v.outq = s.outq → ∃ words, v.outq = s.outq ++ words ∧ (i.mayPush = false → words = [])
      ∧ ((s.codesValid = true → ∀ sym : Nat, (s.len.get sym).toNat ≤ 64) → words.length ≤ 10) :=
    fun v hv => ⟨[], by simp [hv], fun _ => rfl, fun _ => Nat.zero_le _⟩
  cases i with
  | nop => exact silent u (congrArg State.outq h)
  | histClear => exact silent u (by rw [show u = s.startHistogram from h]; rfl)
  | histSample m v => obtain rfl | ⟨-, -, -, rfl⟩ := h <;> exact silent _ rfl
  | buildTree => obtain rfl | rfl | ⟨root, -, rfl⟩ := h <;> exact silent _ rfl
  | lenClear => exact silent u (by rw [show u = s.clearLengths from h]; rfl)
  | lenWrite sym l => obtain rfl | ⟨-, -, -, rfl⟩ := h <;> exact silent _ rfl
  | buildCodes => obtain rfl | ⟨-, rfl | ⟨codes, -, rfl⟩⟩ := h <;> exact silent _ rfl
  | encStart => obtain rfl | rfl := h <;> exact silent _ rfl
  | encSample m v =>
    obtain rfl | rfl | ⟨hvalid, h⟩ := h
    · exact silent _ rfl
    · exact silent _ rfl
    · obtain ⟨bytes, hout, hlen⟩ := s.emit_outq (s.code.get v.toNat) (s.len.get v.toNat)
      refine ⟨bytes.map byteWord, h ▸ hout, nofun, fun hle => ?_⟩
      have := hlen (hle hvalid _)
      rw [List.length_map]
      omega
  | encFinish =>
    obtain rfl | ⟨hvalid, h⟩ := h
    · exact silent _ rfl
    · obtain ⟨words, hout, hlen⟩ := s.finish_outq (s.code.get Config.eos) (s.len.get Config.eos)
      exact ⟨words, h ▸ hout, nofun, fun hle => hlen (hle hvalid _)⟩
  | decStart => obtain rfl | rfl := h <;> exact silent _ rfl
  | decByte b =>
    obtain rfl | ⟨-, h⟩ := h
    · exact silent _ rfl
    · obtain ⟨words, hout, hlen⟩ := s.decBitList_outq (byteBits b)
      exact ⟨words, h ▸ hout, nofun, fun _ => hlen.trans (by decide : 8 ≤ 10)⟩
  | decEnd => obtain rfl | rfl := h <;> exact silent _ rfl

/-! ### How a command ends, and what the host's writes do to the queues -/

theorem State.endsIn_outq {u t : State} (h : u.endsIn t) : t.outq = u.outq := by
  obtain rfl | ⟨k, arg, rfl⟩ := h <;> rfl

/-- A command leaves CMDQ, or an error entry empties it (R95, R136). -/
theorem State.endsIn_cmdq_length {u t : State} (h : u.endsIn t) : t.cmdq.length ≤ u.cmdq.length := by
  obtain rfl | ⟨k, arg, rfl⟩ := h
  · rw [State.retire_cmdq, List.length_tail]
    exact Nat.sub_le _ _
  · exact Nat.zero_le _

theorem State.worksTo_cmdq {s u : State} {i : Instr} (h : s.worksTo i u) : u.cmdq = s.cmdq :=
  congrArg (·.2.1) (State.worksTo_control h)

theorem State.clearError_queues (s : State) : s.clearError.cmdq = s.cmdq ∧ s.clearError.outq = s.outq := by
  rcases s.clearError_cases with h | h <;> rw [h] <;> exact ⟨rfl, rfl⟩

theorem State.writeCtrl_cmdq {s : State} {v : Word} (noReset : v.getLsbD 0 = false) : (s.writeCtrl v).cmdq = s.cmdq :=
  State.writeCtrl_keeps (fun u => u.cmdq = s.cmdq) rfl noReset (fun u hu => u.clearError_queues.1.trans hu) fun _ hu => hu

/-- OUT_FLUSH alone touches OUTQ (R50). -/
theorem State.writeCtrl_outq {s : State} {v : Word} (noReset : v.getLsbD 0 = false) :
    (s.writeCtrl v).outq = if v.getLsbD 2 then [] else s.outq := by
  have hcleared : (if v.getLsbD 1 then s.clearError else s).outq = s.outq := by
    split
    · exact s.clearError_queues.2
    · rfl
  simp only [State.writeCtrl, noReset, Bool.false_eq_true, if_false]
  split
  · rfl
  · exact hcleared

theorem State.pushCommand_outq (s : State) (w : Word) : (s.pushCommand w).outq = s.outq := by
  rcases s.pushCommand_cases w with h | ⟨-, -, h⟩ | h <;> exact (congrArg State.outq h).trans rfl

/-- A write of CMD queues its word only where CMDQ has room (R56). -/
theorem State.pushCommand_cmdq_length {s : State} (w : Word) (h : s.cmdq.length ≤ s.params.cmdqDepth.toNat) :
    (s.pushCommand w).cmdq.length ≤ s.params.cmdqDepth.toNat := by
  rcases s.pushCommand_cases w with hp | ⟨-, hroom, hp⟩ | hp <;> rw [hp]
  · exact h
  · rw [List.length_append]
    exact hroom
  · exact Nat.zero_le _

/-! ### Bounded queues -/

/-- A command that runs finds room for all that it may push (R90, R93). -/
theorem State.worksTo_outq_fits {s u : State} {i : Instr} (h : s.worksTo i u) (hroom : s.holds i = false)
    (hl : s.lengthsSound) (hfit : s.outq.length ≤ s.params.outqDepth.toNat) :
    u.outq.length ≤ s.params.outqDepth.toNat := by
  obtain ⟨words, hout, hquiet, hmax⟩ := State.worksTo_outq h
  obtain ⟨hlen, -, hcodes⟩ := hl
  rw [hout, List.length_append]
  cases hp : i.mayPush with
  | false =>
    rw [hquiet hp]
    exact hfit
  | true =>
    have hten := hmax fun hvalid => (hlen (hcodes hvalid)).2
    have hfree : s.outq.length + 10 ≤ s.params.outqDepth.toNat := by simpa [State.holds, hp, State.outRoom] using hroom
    omega

/-! ### The error registers -/

theorem ErrKind.code_bounds (k : ErrKind) : 1 ≤ k.code.toNat ∧ k.code.toNat ≤ 10 := by
  cases k <;> decide

theorem State.recordError_errorSound (s : State) (k : ErrKind) (w arg : Word) : (s.recordError k w arg).errorSound :=
  ⟨nofun, fun _ => ⟨rfl, k.code_bounds⟩⟩

/-- A command that runs finds no error recorded, and ends with none or with one of its own (R95, R136). -/
theorem State.worksTo_endsIn_errorSound {s v t : State} {i : Instr} (hw : s.worksTo i v) (he : v.endsIn t)
    (hrun : s.halt = false) (hs : s.errorSound) : t.errorSound := by
  have hc := State.worksTo_control hw
  simp only [State.control, Prod.mk.injEq] at hc
  obtain ⟨-, -, hhalt, hcode, hcmd, harg, -⟩ := hc
  obtain rfl | ⟨k, arg, rfl⟩ := he
  · have hzero := hs.1 hrun
    exact ⟨fun _ => by simpa [hcode, hcmd, harg] using hzero, fun h => by simp [hhalt, hrun] at h⟩
  · exact State.recordError_errorSound _ _ _ _

theorem State.clearError_errorSound {s : State} (hs : s.errorSound) : s.clearError.errorSound := by
  rcases s.clearError_cases with h | h <;> rw [h]
  · exact hs
  · exact ⟨fun _ => ⟨rfl, rfl, rfl⟩, nofun⟩

theorem State.writeCtrl_errorSound {s : State} {v : Word} (noReset : v.getLsbD 0 = false) (hs : s.errorSound) :
    (s.writeCtrl v).errorSound :=
  State.writeCtrl_keeps State.errorSound hs noReset (fun _ => State.clearError_errorSound) fun _ hu => hu

theorem State.pushCommand_errorSound {s : State} (w : Word) (hs : s.errorSound) : (s.pushCommand w).errorSound := by
  rcases s.pushCommand_cases w with h | ⟨hrun, -, h⟩ | h <;> rw [h]
  · exact hs
  · exact ⟨hs.1, fun hhalt => absurd (hrun.symm.trans hhalt) (by decide)⟩
  · exact State.recordError_errorSound _ _ _ _

end Sys2Proof.Machine

namespace Sys2Proof.Proofs

open Sys2Proof Sys2Proof.Machine Sys2Proof.Statements

/-- Settles O46: a command that may push runs only with PUSH_MAX free slots and pushes at most as many words; CMDQ grows
only by a write of CMD that finds room. -/
theorem fifosStayBounded : Obligations.FifosStayBounded := by
  intro s t hl ⟨hc, ho⟩ h
  unfold State.fifosFit
  rw [step_params h]
  obtain ⟨a, he⟩ := step_effect h
  cases he with
  | none => exact ⟨hc, ho⟩
  | illegal => exact ⟨Nat.zero_le _, ho⟩
  | command i v t next running room work ends =>
    refine ⟨(State.endsIn_cmdq_length ends).trans ?_, ?_⟩
    · rw [State.worksTo_cmdq work]
      exact hc
    · rw [State.endsIn_outq ends]
      exact State.worksTo_outq_fits (s := { s with agenda := a }) work room hl ho
  | reset => exact ⟨Nat.zero_le _, Nat.zero_le _⟩
  | read => exact ⟨hc, ho⟩
  | readOut =>
    refine ⟨hc, ?_⟩
    rw [List.length_tail]
    exact (Nat.sub_le _ _).trans ho
  | control v next noReset =>
    rw [State.writeCtrl_cmdq noReset, State.writeCtrl_outq noReset]
    refine ⟨hc, ?_⟩
    split
    · exact Nat.zero_le _
    · exact ho
  | irqEnable => exact ⟨hc, ho⟩
  | acknowledge => exact ⟨hc, ho⟩
  | queue v =>
    refine ⟨State.pushCommand_cmdq_length (s := { s with agenda := a }) v hc, ?_⟩
    rw [State.pushCommand_outq]
    exact ho
  | index => exact ⟨hc, ho⟩

/-- Settles O47: an error entry empties CMDQ and records one of the ten codes, and only the return and a reset leave it. -/
theorem errorRegistersStaySound : Obligations.ErrorRegistersStaySound := by
  intro s t hs h
  obtain ⟨a, he⟩ := step_effect h
  cases he with
  | none => exact hs
  | illegal => exact State.recordError_errorSound _ _ _ _
  | command i v t next running room work ends => exact State.worksTo_endsIn_errorSound work ends running hs
  | reset => exact ⟨fun _ => ⟨rfl, rfl, rfl⟩, nofun⟩
  | read => exact hs
  | readOut => exact hs
  | control v next noReset => exact State.writeCtrl_errorSound noReset hs
  | irqEnable => exact hs
  | acknowledge => exact hs
  | queue v => exact State.pushCommand_errorSound v hs
  | index => exact hs

/-- Settles O58: a command that may push appends, and of the host's accesses only a read of OUT and a flush touch OUTQ. -/
theorem outputKeepsOrder : Obligations.OutputKeepsOrder := by
  intro s t h
  obtain ⟨a, he⟩ := step_effect h
  cases he with
  | none => exact .inl rfl
  | illegal => exact .inl rfl
  | command i v t next running room work ends =>
    obtain ⟨words, hout, hquiet, -⟩ := State.worksTo_outq work
    rw [State.endsIn_outq ends]
    cases hp : i.mayPush with
    | false => exact .inl (by rw [hout, hquiet hp, List.append_nil])
    | true => exact .inr (.inl ⟨i, words, next, hp, hout⟩)
  | reset next => exact .inr (.inr (.inr ⟨rfl, .inl next⟩))
  | read => exact .inl rfl
  | readOut rest d v next => exact .inr (.inr (.inl ⟨rest, next, rfl⟩))
  | control v next noReset =>
    have houtq := State.writeCtrl_outq (s := { s with agenda := a }) noReset
    cases hf : v.getLsbD 2 with
    | false => exact .inl (by rw [houtq, hf]; rfl)
    | true => exact .inr (.inr (.inr ⟨by rw [houtq, hf]; rfl, .inr ⟨v, next, hf⟩⟩))
  | irqEnable => exact .inl rfl
  | acknowledge => exact .inl rfl
  | queue v => exact .inl (State.pushCommand_outq _ v)
  | index => exact .inl rfl

end Sys2Proof.Proofs
end

section
/-! No command reads a table whose flag is 0 (O59): two runs on states that differ in such tables only. -/

namespace Sys2Proof.Machine

open Sys2Proof.Statements (agree)

/-! ### A state with other tables -/

/-- The contents of the five tables. -/
structure Tables where
  count : Table 65537 32
  len : Table 65537 7
  code : Table 65537 64
  sorted : Table 65537 17
  first : Table 65 32

def State.withTables (s : State) (T : Tables) : State :=
  { s with count := T.count, len := T.len, code := T.code, sorted := T.sorted, first := T.first }

/-- `T` has what `s` has wherever a flag of `s` is set, but for the entries of SORTED from NUM_CODED on (R28, R32). -/
def State.validIn (s : State) (T : Tables) : Prop :=
  (s.histValid = true → T.count = s.count)
    ∧ (s.lenValid = true → T.len = s.len)
    ∧ (s.codesValid = true → T.code = s.code ∧ T.first = s.first
        ∧ ∀ i < s.numCoded.toNat, T.sorted.get i = s.sorted.get i)

theorem State.agree_withTables {s : State} {T : Tables} (h : s.validIn T) : agree s (s.withTables T) := ⟨rfl, h⟩

theorem State.agree_iff {s s' : State} : agree s s' ↔ ∃ T : Tables, s' = s.withTables T ∧ s.validIn T := by
  constructor
  · rintro ⟨hs, h⟩
    exact ⟨⟨s'.count, s'.len, s'.code, s'.sorted, s'.first⟩, hs, h⟩
  · rintro ⟨T, rfl, h⟩
    exact State.agree_withTables h

/-- Two outcomes agree: where both are next states, these do. -/
def outcomesAgree (o o' : Host.Outcome State Fault Refusal) : Prop :=
  ∀ t t' : State, o = .next t → o' = .next t' → agree t t'

theorem outcomesAgree_next {u u' : State} (h : agree u u') : outcomesAgree (.next u) (.next u') := by
  rintro t t' ht ht'
  cases ht
  cases ht'
  exact h

theorem outcomesAgree_ite {c : Prop} [Decidable c] {a a' b b' : Host.Outcome State Fault Refusal}
    (hpos : c → outcomesAgree a a') (hneg : ¬ c → outcomesAgree b b') :
    outcomesAgree (if c then a else b) (if c then a' else b') := by
  split
  next h => exact hpos h
  next h => exact hneg h

theorem outcomesAgree_retire {u : State} {T : Tables} (h : u.validIn T) :
    outcomesAgree (.next u.retire) (.next (u.withTables T).retire) :=
  outcomesAgree_next (State.agree_withTables (s := u.retire) h)

theorem outcomesAgree_raiseError {u : State} {T : Tables} (k : ErrKind) (arg : Word) (h : u.validIn T) :
    outcomesAgree (.next (u.raiseError k arg)) (.next ((u.withTables T).raiseError k arg)) :=
  outcomesAgree_next (State.agree_withTables (s := u.raiseError k arg) h)

/-! ### The histogram and the lengths -/

section
variable {s : State} {T : Tables} (h : s.validIn T)
include h

theorem execHistClear_agree : outcomesAgree (execHistClear s) (execHistClear (s.withTables T)) :=
  outcomesAgree_retire (u := s.startHistogram) (T := { T with count := emptyHistogram }) ⟨fun _ => rfl, h.2⟩

theorem execHistSample_agree (m : Bool) (v : BitVec 25) :
    outcomesAgree (execHistSample m v s) (execHistSample m v (s.withTables T)) := by
  refine outcomesAgree_ite (fun _ => outcomesAgree_raiseError _ _ h) fun hready => ?_
  refine outcomesAgree_ite (fun _ => outcomesAgree_retire h) fun _ => ?_
  refine outcomesAgree_ite (fun _ => outcomesAgree_raiseError _ _ h) fun _ => ?_
  refine outcomesAgree_ite (fun _ => outcomesAgree_raiseError _ _ h) fun _ => ?_
  have hcount : T.count = s.count := h.1 (by simpa [State.histReady] using hready)
  exact outcomesAgree_retire (u := s.countSample v)
    (T := { T with count := T.count.set v.toNat (T.count.get v.toNat + 1) }) ⟨fun _ => by rw [hcount]; rfl, h.2⟩

theorem execBuildTree_agree : outcomesAgree (execBuildTree s) (execBuildTree (s.withTables T)) := by
  refine outcomesAgree_ite (fun _ => outcomesAgree_raiseError _ _ h) fun hready => ?_
  obtain ⟨hhist, -⟩ := h
  have hcount : T.count = s.count := hhist (by simpa [State.histReady] using hready)
  have hroot : huffmanRoot (s.withTables T).count = huffmanRoot s.count := congrArg huffmanRoot hcount
  have failed : ∀ arg, outcomesAgree (.next (s.dropLengths.buildFail arg))
      (.next ((s.withTables T).dropLengths.buildFail arg)) := fun arg => outcomesAgree_raiseError .buildFail arg
      (u := { s.dropLengths with len := .unspecified 65537 7 s.draws, draws := s.draws + 1 })
      (T := { T with len := .unspecified 65537 7 s.draws }) ⟨hhist, nofun, nofun⟩
  rw [hroot]
  cases huffmanRoot s.count with
  | none => exact failed 0
  | some root =>
    dsimp only
    cases firstOverlong (treeLengths root.tree) with
    | some sym => exact failed (symbolArg sym)
    | none =>
      exact outcomesAgree_retire
        (u := { s.dropLengths with len := lengthTable (treeLengths root.tree), lenValid := true })
        (T := { T with len := lengthTable (treeLengths root.tree) }) ⟨hhist, fun _ => rfl, nofun⟩

theorem execLenClear_agree : outcomesAgree (execLenClear s) (execLenClear (s.withTables T)) :=
  outcomesAgree_retire (u := s.clearLengths) (T := { T with len := Table.const 65537 7 0 }) ⟨h.1, fun _ => rfl, nofun⟩

theorem execLenWrite_agree (sym : BitVec 17) (l : BitVec 7) :
    outcomesAgree (execLenWrite sym l s) (execLenWrite sym l (s.withTables T)) := by
  refine outcomesAgree_ite (fun _ => outcomesAgree_raiseError _ _ h) fun hready => ?_
  refine outcomesAgree_ite (fun _ => outcomesAgree_raiseError _ _ h) fun _ => ?_
  refine outcomesAgree_ite (fun _ => outcomesAgree_raiseError _ _ h) fun _ => ?_
  have hlen : T.len = s.len := h.2.1 (by simpa [State.lenReady] using hready)
  exact outcomesAgree_retire (u := s.writeLength sym l) (T := { T with len := T.len.set sym.toNat l })
    ⟨h.1, fun _ => by rw [hlen]; rfl, nofun⟩

end

/-! ### The code tables -/

/-- BUILD_CODES writes the same entries of SORTED below NUM_CODED over any old contents (R113). -/
theorem writeSorted_get_eq {len : Table 65537 7} (hwf : len.wf = true) (t t' : Table 65537 17) {i : Nat}
    (hi : i < (BitVec.ofNat 17 (lengthsSorted len).length).toNat) :
    (writeSorted t (lengthsSorted len)).get i = (writeSorted t' (lengthsSorted len)).get i := by
  have hi : i < (lengthsSorted len).length := lt_of_lt_of_eq hi (numCoded_toNat hwf)
  have hfit := lengthsSorted_length_le hwf
  rw [writeSorted_get hfit hi, writeSorted_get hfit hi]

/-- TOTAL_BITS reads COUNT only with a valid histogram (R117). -/
theorem State.measurePayload_withTables {s : State} {T : Tables} (h : s.validIn T) (hlen : T.len = s.len) :
    (s.withTables T).measurePayload = s.measurePayload.withTables T := by
  cases hv : s.histValid with
  | false => simp [State.measurePayload, State.withTables, hv]
  | true => simp [State.measurePayload, State.withTables, hv, hlen, h.1 hv]

/-- The tables after BUILD_CODES step 1 on lengths `len` (R113). -/
def Tables.sortLengths (T : Tables) (len : Table 65537 7) : Tables :=
  { T with sorted := writeSorted T.sorted (lengthsSorted len), first := firstIndex len (lengthsSorted len) }

theorem State.sortLengths_withTables {s : State} {T : Tables} (hlen : T.len = s.len) :
    (s.withTables T).sortLengths = s.sortLengths.withTables (T.sortLengths s.len) := by
  simp only [State.sortLengths, State.withTables, Tables.sortLengths, hlen]

theorem execBuildCodes_agree {s : State} {T : Tables} (hwf : s.len.wf = true) (h : s.validIn T) :
    outcomesAgree (execBuildCodes s) (execBuildCodes (s.withTables T)) := by
  refine outcomesAgree_ite (fun _ => outcomesAgree_raiseError _ _ h) fun hready => ?_
  obtain ⟨hhist, hlens, -⟩ := h
  have hlen : T.len = s.len := hlens (by simpa [State.lenReady] using hready)
  have hcodes : canonicalCodes (s.withTables T).len = canonicalCodes s.len := congrArg canonicalCodes hlen
  rw [hcodes, State.sortLengths_withTables hlen]
  cases canonicalCodes s.len with
  | error sym =>
    exact outcomesAgree_raiseError .codeAssign (symbolArg sym)
      (u := { s.sortLengths with code := .unspecified 65537 64 s.draws, draws := s.draws + 1 })
      (T := { T.sortLengths s.len with code := .unspecified 65537 64 s.draws }) ⟨hhist, hlens, nofun⟩
  | ok codes =>
    dsimp only
    rw [State.measurePayload_withTables (s := s.sortLengths) (T := T.sortLengths s.len) ⟨hhist, hlens, nofun⟩ hlen]
    exact outcomesAgree_retire (u := { s.sortLengths.measurePayload with code := codes, codesValid := true })
      (T := { T.sortLengths s.len with code := codes })
      ⟨hhist, hlens, fun _ => ⟨rfl, rfl, fun i hi => writeSorted_get_eq hwf T.sorted s.sorted hi⟩⟩

/-! ### The encoder and the decoder -/

theorem State.emitBit_withTables (s : State) (T : Tables) (b : Bool) :
    (s.withTables T).emitBit b = (s.emitBit b).withTables T := by
  unfold State.emitBit
  by_cases hfull : s.encNacc = 7
  · rw [if_pos hfull, if_pos (show (s.withTables T).encNacc = 7 from hfull)]
    rfl
  · rw [if_neg hfull, if_neg (show (s.withTables T).encNacc ≠ 7 from hfull)]
    rfl

theorem State.emitBits_withTables (s : State) (T : Tables) (bits : List Bool) :
    (s.withTables T).emitBits bits = (s.emitBits bits).withTables T := by
  induction bits generalizing s with
  | nil => rfl
  | cons b rest ih => rw [State.emitBits_cons, State.emitBit_withTables, ih, State.emitBits_cons]

theorem State.emit_withTables (s : State) (T : Tables) (c : BitVec 64) (l : BitVec 7) :
    (s.withTables T).emit c l = (s.emit c l).withTables T :=
  s.emitBits_withTables T _

theorem State.closePayload_withTables (s : State) (T : Tables) :
    (s.withTables T).closePayload = s.closePayload.withTables T := rfl

theorem State.padPayload_withTables (s : State) (T : Tables) :
    (s.withTables T).padPayload = s.padPayload.withTables T := by
  unfold State.padPayload
  by_cases hnone : s.encNacc = 0
  · rw [if_pos hnone, if_pos (show (s.withTables T).encNacc = 0 from hnone)]
  · rw [if_neg hnone, if_neg (show (s.withTables T).encNacc ≠ 0 from hnone)]
    rfl

/-- The scan reads entries of SORTED, and LEN and CODE where these lead (R126). -/
theorem State.scanEntries_withTables {s : State} {T : Tables} (hlen : T.len = s.len) (hcode : T.code = s.code) (n i : Nat)
    (hsorted : ∀ j, i ≤ j → j < i + n → T.sorted.get j = s.sorted.get j) :
    (s.withTables T).scanEntries n i = s.scanEntries n i := by
  induction n generalizing i with
  | zero => rfl
  | succ n ih =>
    have hi : T.sorted.get i = s.sorted.get i := hsorted i (Nat.le_refl _) (by omega)
    have hrest := ih (i + 1) fun j h1 h2 => hsorted j (by omega) (by omega)
    unfold State.scanEntries
    rw [hrest]
    simp only [State.withTables, hlen, hcode, hi]

theorem State.matchedSymbol_withTables {s : State} {T : Tables} (h : s.validIn T) (hcodes : s.codesValid = true)
    (hlens : s.lenValid = true) : (s.withTables T).matchedSymbol = s.matchedSymbol := by
  obtain ⟨-, hlen, htables⟩ := h
  obtain ⟨hcode, hfirst, hsorted⟩ := htables hcodes
  unfold State.matchedSymbol
  have hscan := State.scanEntries_withTables (hlen hlens) hcode
    (s.numCoded.toNat - (s.first.get s.decRl.toNat).toNat) (s.first.get s.decRl.toNat).toNat
    fun j h1 h2 => hsorted j (by omega)
  simp only [State.withTables, hfirst] at hscan ⊢
  rw [hscan]

theorem State.noMatchYet_withTables (s : State) (T : Tables) :
    (s.withTables T).noMatchYet = s.noMatchYet.withTables T := by
  unfold State.noMatchYet
  by_cases hlast : s.maxLen.toNat ≤ s.decRl.toNat
  · rw [if_pos hlast, if_pos (show (s.withTables T).maxLen.toNat ≤ (s.withTables T).decRl.toNat from hlast)]
    rfl
  · rw [if_neg hlast, if_neg (show ¬ (s.withTables T).maxLen.toNat ≤ (s.withTables T).decRl.toNat from hlast)]

theorem State.decBit_withTables {s : State} {T : Tables} (b : Bool) (h : s.validIn T) (hcodes : s.codesValid = true)
    (hlens : s.lenValid = true) : (s.withTables T).decBit b = (s.decBit b).withTables T := by
  have hmatch : ((s.withTables T).appendBit b).matchedSymbol = (s.appendBit b).matchedSymbol :=
    State.matchedSymbol_withTables (s := s.appendBit b) h hcodes hlens
  unfold State.decBit
  rw [hmatch]
  by_cases hrun : s.decState = .run
  · rw [if_pos hrun, if_pos (show (s.withTables T).decState = .run from hrun)]
    cases (s.appendBit b).matchedSymbol with
    | none => exact (s.appendBit b).noMatchYet_withTables T
    | some sym =>
      dsimp only
      split <;> rfl
  · rw [if_neg hrun, if_neg (show (s.withTables T).decState ≠ .run from hrun)]

theorem State.decBitList_withTables {s : State} {T : Tables} (bits : List Bool) (h : s.validIn T)
    (hcodes : s.codesValid = true) (hlens : s.lenValid = true) :
    (s.withTables T).decBitList bits = (s.decBitList bits).withTables T := by
  induction bits generalizing s with
  | nil => rfl
  | cons b rest ih =>
    rw [State.decBitList_cons, State.decBitList_cons, State.decBit_withTables b h hcodes hlens]
    apply ih <;> rw [State.decBit_frame]
    · exact h
    · exact hcodes
    · exact hlens

section
variable {s : State} {T : Tables} (h : s.validIn T)
include h

theorem State.emit_validIn (c : BitVec 64) (l : BitVec 7) : (s.emit c l).validIn T := by
  rw [State.emit_frame]
  exact h

theorem State.padPayload_validIn : s.padPayload.validIn T := by
  rw [State.padPayload_frame]
  exact h

theorem State.closePayload_validIn : s.closePayload.validIn T := h

theorem State.decBitList_validIn (bits : List Bool) : (s.decBitList bits).validIn T := by
  rw [State.decBitList_frame]
  exact h

theorem encFail_agree (k : ErrKind) (arg : Word) :
    outcomesAgree (.next (s.encFail k arg)) (.next ((s.withTables T).encFail k arg)) :=
  outcomesAgree_raiseError k arg (u := { s with encActive := false }) h

theorem decFail_agree (k : ErrKind) (arg : Word) :
    outcomesAgree (.next (s.decFail k arg)) (.next ((s.withTables T).decFail k arg)) :=
  outcomesAgree_raiseError k arg (u := { s with decState := .idle }) h

theorem execEncStart_agree : outcomesAgree (execEncStart s) (execEncStart (s.withTables T)) :=
  outcomesAgree_ite (fun _ => outcomesAgree_raiseError _ _ h) fun _ => outcomesAgree_retire (u := s.startPayload) h

theorem execDecStart_agree : outcomesAgree (execDecStart s) (execDecStart (s.withTables T)) :=
  outcomesAgree_ite (fun _ => outcomesAgree_raiseError _ _ h) fun _ => outcomesAgree_retire (u := s.startWalk) h

theorem execDecEnd_agree : outcomesAgree (execDecEnd s) (execDecEnd (s.withTables T)) :=
  outcomesAgree_ite (fun _ => outcomesAgree_raiseError _ _ h) fun _ =>
    outcomesAgree_ite (fun _ => outcomesAgree_retire (u := { s with decState := .idle }) h) fun _ => decFail_agree h _ _

variable (hlens : s.codesValid = true → s.lenValid = true)
include hlens

/-- With valid codes, and so valid lengths, `T` has the lengths and the codes of `s`. -/
theorem State.validIn_codes (hcodes : s.codesValid = true) :
    (s.withTables T).len = s.len ∧ (s.withTables T).code = s.code :=
  ⟨h.2.1 (hlens hcodes), (h.2.2 hcodes).1⟩

theorem execEncSample_agree (m : Bool) (v : BitVec 25) :
    outcomesAgree (execEncSample m v s) (execEncSample m v (s.withTables T)) := by
  refine outcomesAgree_ite (fun _ => encFail_agree h _ _) fun hready => ?_
  have hready : s.codesValid = true ∧ s.encActive = true := by simpa [State.encReady] using hready
  obtain ⟨hlen, hcode⟩ := State.validIn_codes h hlens hready.1
  rw [hlen, hcode]
  refine outcomesAgree_ite (fun _ => outcomesAgree_retire h) fun _ => ?_
  refine outcomesAgree_ite (fun _ => encFail_agree h _ _) fun _ => ?_
  refine outcomesAgree_ite (fun _ => encFail_agree h _ _) fun _ => ?_
  rw [State.emit_withTables]
  exact outcomesAgree_retire (State.emit_validIn h _ _)

theorem execEncFinish_agree : outcomesAgree (execEncFinish s) (execEncFinish (s.withTables T)) := by
  refine outcomesAgree_ite (fun _ => encFail_agree h _ _) fun hready => ?_
  have hready : s.codesValid = true ∧ s.encActive = true := by simpa [State.encReady] using hready
  obtain ⟨hlen, hcode⟩ := State.validIn_codes h hlens hready.1
  rw [hlen, hcode]
  refine outcomesAgree_ite (fun _ => encFail_agree h _ _) fun _ => ?_
  rw [State.emit_withTables, State.padPayload_withTables, State.closePayload_withTables]
  exact outcomesAgree_retire (State.closePayload_validIn (State.padPayload_validIn (State.emit_validIn h _ _)))

theorem execDecByte_agree (b : Byte) : outcomesAgree (execDecByte b s) (execDecByte b (s.withTables T)) := by
  refine outcomesAgree_ite (fun _ => decFail_agree h _ _) fun hready => ?_
  have hready : s.codesValid = true ∧ s.walkOpen = true := by simpa [State.decReady] using hready
  rw [State.decBitList_withTables _ h hready.1 (hlens hready.1)]
  exact outcomesAgree_retire (State.decBitList_validIn h _)

end

/-- The two runs of every command agree. -/
theorem exec_agree {s : State} {T : Tables} (i : Instr) (hwf : s.len.wf = true) (h : s.validIn T)
    (hlens : s.codesValid = true → s.lenValid = true) : outcomesAgree (exec i s) (exec i (s.withTables T)) := by
  cases i with
  | nop => exact outcomesAgree_retire h
  | histClear => exact execHistClear_agree h
  | histSample m v => exact execHistSample_agree h m v
  | buildTree => exact execBuildTree_agree h
  | lenClear => exact execLenClear_agree h
  | lenWrite sym l => exact execLenWrite_agree h sym l
  | buildCodes => exact execBuildCodes_agree hwf h
  | encStart => exact execEncStart_agree h
  | encSample m v => exact execEncSample_agree h hlens m v
  | encFinish => exact execEncFinish_agree h hlens
  | decStart => exact execDecStart_agree h
  | decByte b => exact execDecByte_agree h hlens b
  | decEnd => exact execDecEnd_agree h

end Sys2Proof.Machine

namespace Sys2Proof.Proofs

open Sys2Proof Sys2Proof.Machine Sys2Proof.Statements

/-- Settles O59: a state that agrees with `s` is `s` with other tables, and each command's two runs take the same branch. -/
theorem noCommandReadsInvalidTable : Obligations.NoCommandReadsInvalidTable := by
  intro i s s' t t' hagree ⟨_, hwf, _⟩ _ hlens ht ht'
  obtain ⟨T, rfl, h⟩ := State.agree_iff.1 hagree
  exact exec_agree i hwf h hlens t t' ht ht'

end Sys2Proof.Proofs
end

section
/-! The register window (O7, O34, O36, O37, O38, O40, O41, O44). -/

namespace Sys2Proof.Machine

open Sys2Proof.Statements

/-! ### OUT -/

theorem State.popOut_nil {s : State} (h : s.outq = []) : s.popOut = (0, s) := by
  unfold State.popOut
  rw [h]
  rfl

theorem State.popOut_cons {s : State} {w : Word} {o : List Word} (h : s.outq = w :: o) :
    s.popOut = (w, { s with outq := o }) := by
  unfold State.popOut
  rw [h]

/-! ### Reads and writes by register -/

/-- The registers stand at the aligned offsets up to 0x90 (R46). -/
theorem regAt_aligned {offset : Nat} {r : Reg} (h : regAt offset = some r) : offset ≤ 0x90 ∧ offset % 4 = 0 := by
  unfold regAt at h
  split at h <;> cases h <;> decide

theorem regAt_reserved {offset : Nat} (h : 0x94 ≤ offset) : regAt offset = none := by
  cases hr : regAt offset with
  | none => rfl
  | some r =>
    have hle := (regAt_aligned hr).1
    omega

/-- Reads do not look at the events to come. -/
theorem State.readReg_agenda (s : State) (a : List Event) (r : Reg) :
    ({ s with agenda := a } : State).readReg r = ((s.readReg r).1, { (s.readReg r).2 with agenda := a }) := by
  have window : ∀ inRange outside valid entry, ({ s with agenda := a } : State).windowRead inRange outside valid entry =
      ((s.windowRead inRange outside valid entry).1,
        { (s.windowRead inRange outside valid entry).2 with agenda := a }) := by
    intro inRange outside valid entry
    have hbusy : ({ s with agenda := a } : State).busy = s.busy := rfl
    unfold State.windowRead
    rw [hbusy]
    split
    · rfl
    · split <;> rfl
  cases r
  case out =>
    show ({ s with agenda := a } : State).popOut = (s.popOut.1, { s.popOut.2 with agenda := a })
    by_cases hout : s.outq = []
    · rw [State.popOut_nil hout, State.popOut_nil (s := { s with agenda := a }) hout]
    · obtain ⟨w, o, hout⟩ := List.exists_cons_of_ne_nil hout
      rw [State.popOut_cons hout, State.popOut_cons (s := { s with agenda := a }) hout]
  case countRd => exact window _ _ _ _
  case lenRd => exact window _ _ _ _
  case codeRdLo => exact window _ _ _ _
  case codeRdHi => exact window _ _ _ _
  case sortedRd => exact window _ _ _ _
  case firstRd => exact window _ _ _ _
  all_goals rfl

theorem State.clearError_agenda (s : State) (a : List Event) :
    ({ s with agenda := a } : State).clearError = { s.clearError with agenda := a } := by
  by_cases hh : s.halt = true
  · rw [State.clearError_of_halted hh, State.clearError_of_halted (s := { s with agenda := a }) hh]
  · rw [Bool.not_eq_true] at hh
    rw [State.clearError_of_running hh, State.clearError_of_running (s := { s with agenda := a }) hh]

/-- Writes do not look at the events to come. -/
theorem State.writeReg_agenda (s : State) (a : List Event) (r : Reg) (v : Word) :
    ({ s with agenda := a } : State).writeReg r v = { s.writeReg r v with agenda := a } := by
  cases r
  case ctrl =>
    simp only [State.writeReg, State.writeCtrl, State.clearError_agenda]
    split
    · rfl
    · split <;> split <;> rfl
  case cmd =>
    simp only [State.writeReg, State.pushCommand]
    split
    · rfl
    · split <;> rfl
  all_goals rfl

/-- A read of a register's offset is the read of the register (R68, R79). -/
theorem reads_of_regAt {s t : State} {offset : Nat} {r : Reg} {v : Word} (hr : regAt offset = some r)
    (h : s.readReg r = (v, t)) : reads s offset v t := by
  obtain ⟨hle, hal⟩ := regAt_aligned hr
  intro rest
  have hread : ({ s with agenda := rest } : State).readOffset offset = (v, { t with agenda := rest }) := by
    simp only [State.readOffset, hr, State.readReg_agenda, h]
  rw [step_read (by omega) hal, hread]

/-- A write at a register's offset is the write of the register (R68, R79). -/
theorem writes_of_regAt {s t : State} {offset : Nat} {r : Reg} {v : Word} (hr : regAt offset = some r)
    (h : s.writeReg r v = t) : writes s offset v t := by
  obtain ⟨hle, hal⟩ := regAt_aligned hr
  intro rest
  have hwrite : ({ s with agenda := rest } : State).writeOffset offset v = { t with agenda := rest } := by
    simp only [State.writeOffset, hr, State.writeReg_agenda, h]
  rw [step_write (by omega) hal, hwrite]

/-- A reserved offset reads 0 (R46). -/
theorem reads_of_reserved {s : State} {offset : Nat} (hr : regAt offset = none) (hlt : offset < 256) (hal : offset % 4 = 0) :
    reads s offset 0 s := by
  intro rest
  rw [step_read hlt hal]
  simp only [State.readOffset, hr]

/-- A reserved offset ignores writes (R46). -/
theorem writes_of_reserved {s : State} {offset : Nat} {v : Word} (hr : regAt offset = none) (hlt : offset < 256)
    (hal : offset % 4 = 0) : writes s offset v s := by
  intro rest
  rw [step_write hlt hal]
  simp only [State.writeOffset, hr]

/-- A write at any offset but those of CTRL, IRQ_EN, IRQ_PEND, CMD and TBL_INDEX is ignored (R53). -/
theorem writes_ignored {s : State} {offset : Nat} {v : Word} (hlt : offset < 256) (hal : offset % 4 = 0)
    (hne : offset ∉ [0x0C, 0x20, 0x24, 0x28, 0x30]) : writes s offset v s := by
  simp only [List.mem_cons, List.not_mem_nil, or_false, not_or] at hne
  obtain ⟨hctrl, hen, hpend, hcmd, hidx⟩ := hne
  cases hr : regAt offset with
  | none => exact writes_of_reserved hr hlt hal
  | some r =>
    obtain ⟨rctrl, ren, rpend, rcmd, ridx⟩ := regAt_writable hr
    refine writes_of_regAt hr ?_
    cases r
    case ctrl => exact absurd (rctrl rfl) hctrl
    case irqEn => exact absurd (ren rfl) hen
    case irqPend => exact absurd (rpend rfl) hpend
    case cmd => exact absurd (rcmd rfl) hcmd
    case tblIndex => exact absurd (ridx rfl) hidx
    all_goals rfl

/-! ### CMD -/

theorem State.pushCommand_of_halted {s : State} (w : Word) (h : s.halt = true) : s.pushCommand w = s := if_pos h

theorem State.pushCommand_of_room {s : State} (w : Word) (h : s.halt = false)
    (hroom : s.cmdq.length < s.params.cmdqDepth.toNat) : s.pushCommand w = { s with cmdq := s.cmdq ++ [w] } := by
  simp [State.pushCommand, h, hroom]

theorem State.pushCommand_of_full {s : State} (w : Word) (h : s.halt = false)
    (hfull : ¬ s.cmdq.length < s.params.cmdqDepth.toNat) : s.pushCommand w = failed s 0x0A w 0 := by
  rw [State.pushCommand, if_neg (by simp [h]), if_neg hfull]
  rfl

/-! ### The window registers (R59) -/

theorem State.windowRead_inside {s : State} {outside entry : Word} {inRange valid : Bool} (hin : inRange = true)
    (hvalid : valid = true) (hidle : s.cmdq = []) : s.windowRead inRange outside valid entry = (entry, s) := by
  simp [State.windowRead, State.busy, hin, hvalid, hidle]

theorem State.windowRead_outside {s : State} {outside entry : Word} {inRange valid : Bool} (hout : inRange = false) :
    s.windowRead inRange outside valid entry = (outside, s) := by
  simp [State.windowRead, hout]

/-! ### The layouts of the packed views (R48, R55, R61) -/

theorem append_toNat {m n : Nat} (x : BitVec m) (y : BitVec n) : (x ++ y).toNat = x.toNat * 2 ^ n + y.toNat := by
  rw [BitVec.toNat_append, ← Nat.shiftLeft_add_eq_or_of_lt y.isLt, Nat.shiftLeft_eq]

theorem State.paramWord_eq (s : State) :
    s.paramWord =
      BitVec.ofNat 32 (64 + 2 ^ 8 * s.params.cmdqDepth.toNat + 2 ^ 16 * s.params.outqDepth.toNat + 2 ^ 24 * 10) := by
  apply BitVec.eq_of_toNat_eq
  have hc := s.params.cmdqDepth.isLt
  have ho := s.params.outqDepth.isLt
  simp only [State.paramWord, append_toNat, BitVec.toNat_ofNat, Config.pushMax, Config.lmax]
  omega

theorem State.encPendWord_eq (s : State) :
    s.encPendWord = BitVec.ofNat 32 (256 * s.encAcc.toNat + s.encNacc.toNat) := by
  apply BitVec.eq_of_toNat_eq
  have hacc := s.encAcc.isLt
  have hnacc := s.encNacc.isLt
  simp only [State.encPendWord, append_toNat, BitVec.toNat_ofNat, BitVec.ofNat_eq_ofNat]
  omega

theorem State.irqPend_eq (s : State) :
    zext32 s.irqPend =
      BitVec.ofNat 32
        (s.pErr.toNat + 2 * s.pIdle.toNat + 4 * (!s.outq.isEmpty).toNat + 8 * s.pEncDone.toNat + 16 * s.pDecDone.toNat) := by
  have bits : ∀ a b c d e : Bool,
      zext32 (BitVec.ofBool e ++ BitVec.ofBool d ++ BitVec.ofBool c ++ BitVec.ofBool b ++ BitVec.ofBool a) =
        BitVec.ofNat 32 (a.toNat + 2 * b.toNat + 4 * c.toNat + 8 * d.toNat + 16 * e.toNat) := by decide
  exact bits _ _ _ _ _

theorem State.payloadBytes_eq {s : State} {bytes : BitVec 64} (h : bytes.toNat = (s.totalBits.toNat + 7) / 8) :
    s.payloadBytes = bytes := by
  rw [State.payloadBytes, ← h, BitVec.ofNat_toNat, BitVec.setWidth_eq]

/-! ### A hold (R93) -/

theorem State.holds_iff {s : State} {i : Instr} :
    s.holds i = true ↔ i.mayPush = true ∧ s.params.outqDepth.toNat < s.outq.length + 10 := by
  simp [State.holds, State.outRoom]

theorem coreMove_of_holds {s : State} {i : Instr} {w : Word} {q : List Word} (hrun : s.halt = false) (hc : s.cmdq = w :: q)
    (hd : decode w = .ok i) (hold : s.holds i = true) : coreMove s = .settled (.next s) := by
  simp [coreMove, hrun, hc, hd, hold]

end Sys2Proof.Machine

namespace Sys2Proof.Proofs

open Sys2Proof Sys2Proof.Machine Sys2Proof.Statements

/-- Settles O34, by the three cases of `State.pushCommand`. -/
theorem commandWrites : Obligations.CommandWrites := fun _ w =>
  ⟨fun hh => writes_of_regAt rfl (State.pushCommand_of_halted w hh),
    fun hrun hroom => writes_of_regAt rfl (State.pushCommand_of_room w hrun hroom),
    fun hrun hfull => writes_of_regAt rfl (State.pushCommand_of_full w hrun hfull.not_lt),
    reads_of_regAt rfl rfl⟩

/-- Settles O37: each is its register's read or write; IRQ_PEND is laid out by `State.irqPend_eq`. -/
theorem interruptAndIndexRegisters : Obligations.InterruptAndIndexRegisters := fun s _ =>
  ⟨writes_of_regAt (r := .irqEn) rfl rfl, reads_of_regAt (r := .irqEn) rfl rfl, writes_of_regAt (r := .irqPend) rfl rfl,
    s.irqPend_eq ▸ reads_of_regAt (r := .irqPend) rfl rfl, writes_of_regAt (r := .tblIndex) rfl rfl,
    reads_of_regAt (r := .tblIndex) rfl rfl⟩

/-- Settles O38, by the frame of a register read and the offsets of the writable registers. -/
theorem registerSideEffects : Obligations.RegisterSideEffects := by
  refine fun s offset hlt hal => ⟨fun hout => ?_, fun hne v => writes_ignored hlt hal hne⟩
  cases hr : regAt offset with
  | none => exact ⟨0, s.draws, reads_of_reserved hr hlt hal⟩
  | some r =>
    obtain ⟨d, o, hd, ho⟩ := s.readReg_frame r
    have ho : o = s.outq := ho fun h => hout (regAt_out (h ▸ hr))
    exact ⟨(s.readReg r).1, d, reads_of_regAt hr (by rw [← ho, ← hd])⟩

/-- Settles O40, by the two cases of a window read. -/
theorem windowReads : Obligations.WindowReads := by
  rintro s i rfl
  have symbol : s.tblIndex.toNat ≤ 65536 → s.indexIsSymbol = true := fun h => decide_eq_true h
  have noSymbol : 65536 < s.tblIndex.toNat → s.indexIsSymbol = false := fun h => decide_eq_false h.not_ge
  refine ⟨fun hidle hi => ⟨fun hv => ?_, fun hv => ?_, fun hv => ⟨?_, ?_⟩⟩, fun hidle hv hi => ?_, fun hidle hv hi => ?_,
    fun hi => ⟨?_, ?_, ?_, ?_⟩, fun hi => ?_, fun hi => ?_⟩
  · exact reads_of_regAt (r := .countRd) rfl (State.windowRead_inside (symbol hi) hv hidle)
  · exact reads_of_regAt (r := .lenRd) rfl (State.windowRead_inside (symbol hi) hv hidle)
  · exact reads_of_regAt (r := .codeRdLo) rfl (State.windowRead_inside (symbol hi) hv hidle)
  · exact reads_of_regAt (r := .codeRdHi) rfl (State.windowRead_inside (symbol hi) hv hidle)
  · exact reads_of_regAt (r := .sortedRd) rfl (State.windowRead_inside (decide_eq_true hi) hv hidle)
  · exact reads_of_regAt (r := .firstRd) rfl (State.windowRead_inside (decide_eq_true hi) hv hidle)
  · exact reads_of_regAt (r := .countRd) rfl (State.windowRead_outside (noSymbol hi))
  · exact reads_of_regAt (r := .lenRd) rfl (State.windowRead_outside (noSymbol hi))
  · exact reads_of_regAt (r := .codeRdLo) rfl (State.windowRead_outside (noSymbol hi))
  · exact reads_of_regAt (r := .codeRdHi) rfl (State.windowRead_outside (noSymbol hi))
  · exact reads_of_regAt (r := .sortedRd) rfl (State.windowRead_outside (decide_eq_false hi.not_gt))
  · exact reads_of_regAt (r := .firstRd) rfl (State.windowRead_outside (decide_eq_false hi.not_ge))

/-- Settles O41: each view is its register's read; the packed ones are laid out by their `_eq` lemmas. -/
theorem registerViews : Obligations.RegisterViews := by
  intro s
  have view : ∀ {offset : Nat} {r : Reg} {v : Word}, regAt offset = some r → s.readReg r = (v, s) → reads s offset v s :=
    fun hr hv => reads_of_regAt hr hv
  refine ⟨view (r := .id) rfl rfl, view (r := .param) rfl (by rw [← s.paramWord_eq]; rfl), view (r := .alpha) rfl rfl,
    view (r := .histTotal) rfl rfl, view (r := .numCoded) rfl rfl, view (r := .maxLen) rfl rfl,
    view (r := .totalBitsLo) rfl rfl, view (r := .totalBitsHi) rfl rfl, fun bytes hbytes => ?_,
    view (r := .encBitsLo) rfl rfl, view (r := .encBitsHi) rfl rfl, view (r := .encBytesLo) rfl rfl,
    view (r := .encBytesHi) rfl rfl, view (r := .decSyms) rfl rfl, view (r := .decBitsLo) rfl rfl,
    view (r := .decBitsHi) rfl rfl, view (r := .encPend) rfl (by rw [← s.encPendWord_eq]; rfl), view (r := .decRl) rfl rfl,
    view (r := .decRcLo) rfl rfl, view (r := .decRcHi) rfl rfl, fun offset hmem v => ?_, fun offset hlo hhi hal => ?_⟩
  · rw [← State.payloadBytes_eq hbytes]
    exact ⟨view (r := .payloadBytesLo) rfl rfl, view (r := .payloadBytesHi) rfl rfl⟩
  · have ignored : ∀ x ∈ [0x00, 0x04, 0x08, 0x4C, 0x50, 0x54, 0x58, 0x5C, 0x60, 0x64, 0x68, 0x6C, 0x70, 0x74, 0x78, 0x7C,
        0x80, 0x84, 0x88, 0x8C, 0x90], x < 256 ∧ x % 4 = 0 ∧ x ∉ [0x0C, 0x20, 0x24, 0x28, 0x30] := by decide
    obtain ⟨hlt, hal, hne⟩ := ignored offset hmem
    exact writes_ignored hlt hal hne
  · have hlt : offset < 256 := by omega
    exact ⟨reads_of_reserved (regAt_reserved hlo) hlt hal, fun v => writes_of_reserved (regAt_reserved hlo) hlt hal⟩

/-- Settles O44: both resets are `State.resetAll`. -/
theorem resetFromAnywhere : Obligations.ResetFromAnywhere := fun s =>
  ⟨s.resetAll, fun _ => rfl, fun _ hv => writes_of_regAt (r := .ctrl) rfl (if_pos hv), rfl⟩

/-- Settles O7: with nine free slots the command holds, with ten it runs. -/
theorem holdEndsWithRead : Obligations.HoldEndsWithRead := by
  intro s i w v q o hrun hc hd hp ho hten
  refine ⟨?_, reads_of_regAt (r := .out) rfl (State.popOut_cons ho), ?_⟩
  · have hold : ({ s with agenda := [] } : State).holds i = true := State.holds_iff.2 ⟨hp, by simp [ho]; omega⟩
    exact step_of_settled ((nextMove_idle rfl).trans (coreMove_of_holds hrun hc hd hold))
  · rw [nextMove_idle rfl]
    refine coreMove_run_iff.2 ⟨rfl, hrun, ?_, w, q, hc, hd⟩
    rw [← Bool.not_eq_true, State.holds_iff]
    simp [hten]

/-- Settles O36, by the two cases of `State.popOut`. -/
theorem outReads : Obligations.OutReads := fun _ =>
  ⟨fun hnil => reads_of_regAt (r := .out) rfl (State.popOut_nil hnil),
    fun _ _ hcons => reads_of_regAt (r := .out) rfl (State.popOut_cons hcons),
    fun _ => writes_of_regAt (r := .out) rfl rfl⟩

end Sys2Proof.Proofs
end

section
/-! The tables stay canonical (O45). -/

namespace Sys2Proof.Machine

/-! ### The tables that the commands build -/

/-- A sequence of writes keeps the canonical form. -/
theorem Table.wf_foldl_set {n w : Nat} {α : Type} (index : α → Nat) (value : α → BitVec w) (l : List α) {t : Table n w}
    (h : t.wf = true) : (l.foldl (fun t c => t.set (index c) (value c)) t).wf = true := by
  induction l generalizing t with
  | nil => exact h
  | cons c rest ih => exact ih (Table.wf_set _ _ h)

theorem emptyHistogram_wf : emptyHistogram.wf = true := Table.wf_set _ _ (Table.wf_const _ _ _)

theorem lengthTable_wf (lengths : List (Nat × Nat)) : (lengthTable lengths).wf = true :=
  Table.wf_foldl_set (fun c : Nat × Nat => c.1) (fun c => BitVec.ofNat 7 c.2) lengths (Table.wf_const _ _ _)

theorem writeSorted_wf {t : Table 65537 17} (h : t.wf = true) (syms : List Nat) : (writeSorted t syms).wf = true :=
  Table.wf_foldl_set (fun c : Nat × Nat => c.2) (fun c => BitVec.ofNat 17 c.1) syms.zipIdx h

theorem firstIndex_wf (len : Table 65537 7) (syms : List Nat) : (firstIndex len syms).wf = true :=
  Table.wf_foldl_set (fun c : Nat × Nat => lengthOf len c.1) (fun c => BitVec.ofNat 32 c.2) syms.zipIdx.reverse
    (Table.wf_const _ _ _)

/-- Canonical assignment writes CODE entry by entry (R114). -/
theorem assignCodes_wf {len : Table 65537 7} {syms : List Nat} {p rl : Nat} {start codes : Table 65537 64}
    (hstart : start.wf = true) (h : assignCodes len syms p rl start = .ok codes) : codes.wf = true := by
  induction syms generalizing p rl start with
  | nil => cases h; exact hstart
  | cons sym rest ih =>
    unfold assignCodes at h
    split at h
    · cases h
    split at h
    · cases h
    · exact ih (Table.wf_set _ _ hstart) h

theorem canonicalCodes_wf {len : Table 65537 7} {codes : Table 65537 64} (h : canonicalCodes len = .ok codes) :
    codes.wf = true :=
  assignCodes_wf (Table.wf_const _ _ _) h

/-! ### The tables in a command's work -/

section
variable {s u : State} {i : Instr} (h : s.worksTo i u)
include h

theorem State.worksTo_count_wf (hs : s.count.wf = true) : u.count.wf = true := by
  by_cases ho : ownerOf i = .histogram
  · obtain rfl | ⟨m, v, rfl⟩ := ownerOf_histogram ho
    · rw [show u = s.startHistogram from h]
      exact emptyHistogram_wf
    · obtain rfl | ⟨-, -, -, rfl⟩ := h
      · exact hs
      · exact Table.wf_set _ _ hs
  · have hcount : u.count = s.count := congrArg (·.1) (State.worksTo_histogram h ho)
    rwa [hcount]

theorem State.worksTo_len_wf (hs : s.len.wf = true) : u.len.wf = true := by
  by_cases ho : ownerOf i = .lengths
  · obtain rfl | rfl | ⟨sym, l, rfl⟩ := ownerOf_lengths ho
    · obtain rfl | rfl | ⟨root, -, rfl⟩ := h
      · exact hs
      · exact Table.wf_unspecified _ _ _
      · exact lengthTable_wf _
    · rw [show u = s.clearLengths from h]
      exact Table.wf_const _ _ _
    · obtain rfl | ⟨-, -, -, rfl⟩ := h
      · exact hs
      · exact Table.wf_set _ _ hs
  · have hlen : u.len = s.len := congrArg (·.1) (State.worksTo_lengths h ho)
    rwa [hlen]

theorem State.worksTo_codeTables_wf (hs : s.code.wf = true ∧ s.sorted.wf = true ∧ s.first.wf = true) :
    u.code.wf = true ∧ u.sorted.wf = true ∧ u.first.wf = true := by
  obtain ⟨-, hsorted, -⟩ := id hs
  by_cases ho : ownerOf i = .codes
  · obtain rfl := ownerOf_codes ho
    obtain rfl | ⟨-, rfl | ⟨codes, hok, rfl⟩⟩ := h
    · exact hs
    · exact ⟨Table.wf_unspecified _ _ _, writeSorted_wf hsorted _, firstIndex_wf _ _⟩
    · exact ⟨canonicalCodes_wf hok, writeSorted_wf hsorted _, firstIndex_wf _ _⟩
  · have htables := State.worksTo_codeTables h ho
    simp only [State.codeTables, Prod.mk.injEq] at htables
    obtain ⟨hcode, hsort, hfirst, -⟩ := htables
    rwa [hcode, hsort, hfirst]

theorem State.worksTo_tablesWf (hs : s.tablesWf) : u.tablesWf := by
  obtain ⟨hcount, hlen, hcodes⟩ := hs
  exact ⟨State.worksTo_count_wf h hcount, State.worksTo_len_wf h hlen, State.worksTo_codeTables_wf h hcodes⟩

end

/-- A reset leaves five unspecified tables (R154), in which no cell is listed. -/
theorem State.resetAll_tablesWf (s : State) : s.resetAll.tablesWf := ⟨rfl, rfl, rfl, rfl, rfl⟩

end Sys2Proof.Machine

namespace Sys2Proof.Proofs

open Sys2Proof Sys2Proof.Machine Sys2Proof.Statements

/-- Settles O45: a reset leaves canonical tables, and every command leaves a table as it is, or unspecified, or built by
writes. -/
theorem tablesStayCanonical : Obligations.TablesStayCanonical := fun _ _ hs h =>
  step_keeps_units State.tablesWf (fun _ => Iff.rfl) h hs State.resetAll_tablesWf
    fun _ _ _ _ hu hw => State.worksTo_tablesWf hw hu

end Sys2Proof.Proofs
end

section
/-! What a step answers (O39, O5): the next state but for a host access without meaning, and exec of an enabled command. -/

namespace Sys2Proof.Machine

/-! ### Every command answers a next state -/

theorem exists_next_ite {c : Prop} [Decidable c] {a b : Host.Outcome State Fault Refusal} (ha : ∃ t, a = .next t)
    (hb : ∃ t, b = .next t) : ∃ t, (if c then a else b) = .next t := by
  split
  · exact ha
  · exact hb

theorem execBuildTree_total (s : State) : ∃ t, execBuildTree s = .next t := by
  refine exists_next_ite ⟨_, rfl⟩ ?_
  split
  · exact ⟨_, rfl⟩
  · split <;> exact ⟨_, rfl⟩

theorem execBuildCodes_total (s : State) : ∃ t, execBuildCodes s = .next t := by
  refine exists_next_ite ⟨_, rfl⟩ ?_
  split <;> exact ⟨_, rfl⟩

/-- Every command answers a next state in every state, because an error is one (R136, R151). -/
theorem exec_total (i : Instr) (s : State) : ∃ t, exec i s = .next t := by
  cases i with
  | nop => exact ⟨_, rfl⟩
  | histClear => exact ⟨_, rfl⟩
  | histSample m v =>
    exact exists_next_ite ⟨_, rfl⟩ (exists_next_ite ⟨_, rfl⟩ (exists_next_ite ⟨_, rfl⟩ (exists_next_ite ⟨_, rfl⟩ ⟨_, rfl⟩)))
  | buildTree => exact execBuildTree_total s
  | lenClear => exact ⟨_, rfl⟩
  | lenWrite sym l => exact exists_next_ite ⟨_, rfl⟩ (exists_next_ite ⟨_, rfl⟩ (exists_next_ite ⟨_, rfl⟩ ⟨_, rfl⟩))
  | buildCodes => exact execBuildCodes_total s
  | encStart => exact exists_next_ite ⟨_, rfl⟩ ⟨_, rfl⟩
  | encSample m v =>
    exact exists_next_ite ⟨_, rfl⟩ (exists_next_ite ⟨_, rfl⟩ (exists_next_ite ⟨_, rfl⟩ (exists_next_ite ⟨_, rfl⟩ ⟨_, rfl⟩)))
  | encFinish => exact exists_next_ite ⟨_, rfl⟩ (exists_next_ite ⟨_, rfl⟩ ⟨_, rfl⟩)
  | decStart => exact exists_next_ite ⟨_, rfl⟩ ⟨_, rfl⟩
  | decByte b => exact exists_next_ite ⟨_, rfl⟩ ⟨_, rfl⟩
  | decEnd => exact exists_next_ite ⟨_, rfl⟩ (exists_next_ite ⟨_, rfl⟩ ⟨_, rfl⟩)

/-! ### The next event -/

/-- A listed core event is the core's move without that event (R72). -/
theorem nextMove_of_core_listed {s : State} {rest : List Event} (h : s.agenda = .core :: rest) :
    nextMove s = coreMove { s with agenda := rest } := by
  unfold nextMove
  rw [h]

/-- A step in which the core moves answers a next state (R93, R95). -/
theorem step_core_total {s u : State} (h : nextMove s = coreMove u) : ∃ t, step s = .next t := by
  cases hm : coreMove u with
  | run i v =>
    rw [step_of_run (h.trans hm)]
    exact exec_total i v
  | settled o =>
    rw [step_of_settled (h.trans hm)]
    rcases coreMove_settled hm with ho | ⟨ho, -⟩ <;> exact ⟨_, ho⟩

/-- A listed read is the host's read without that event (R72, R79). -/
theorem step_of_read_listed {s : State} {addr bytes : Nat} {rest : List Event} (h : s.agenda = .read addr bytes :: rest) :
    step s = hostRead addr bytes { s with agenda := rest } := by
  refine step_of_settled ?_
  unfold nextMove
  rw [h]

/-- A listed write is the host's write without that event (R72, R79). -/
theorem step_of_write_listed {s : State} {addr bytes : Nat} {v : Word} {rest : List Event}
    (h : s.agenda = .write addr bytes v :: rest) : step s = hostWrite addr bytes v { s with agenda := rest } := by
  refine step_of_settled ?_
  unfold nextMove
  rw [h]

/-! ### Host accesses without a meaning -/

/-- The next event is a host access, and no aligned 32-bit access of the window (R67). -/
def State.nextIsBadAccess (s : State) : Prop :=
  ∃ addr bytes rest,
    ((s.agenda = .read addr bytes :: rest) ∨ ∃ v, s.agenda = .write addr bytes v :: rest)
      ∧ ¬ (s.params.base ≤ addr ∧ addr < s.params.base + 256 ∧ bytes = 4 ∧ (addr - s.params.base) % 4 = 0)

theorem step_of_badAccess {s : State} (h : s.nextIsBadAccess) : ∃ r, step s = .refused r := by
  obtain ⟨addr, bytes, rest, ha, hbad⟩ := h
  rw [← State.accessRefusal_none_iff] at hbad
  obtain ⟨r, hr⟩ := Option.ne_none_iff_exists'.1 hbad
  have hr : ({ s with agenda := rest } : State).accessRefusal addr bytes = some r := hr
  refine ⟨r, ?_⟩
  rcases ha with ha | ⟨v, ha⟩
  · rw [step_of_read_listed ha, hostRead, hr]
  · rw [step_of_write_listed ha, hostWrite, hr]

theorem step_of_not_badAccess {s : State} (h : ¬ s.nextIsBadAccess) : ∃ t, step s = .next t := by
  have accepted : ∀ addr bytes rest,
      (s.agenda = .read addr bytes :: rest ∨ ∃ v, s.agenda = .write addr bytes v :: rest) →
        ({ s with agenda := rest } : State).accessRefusal addr bytes = none := fun addr bytes rest ha =>
    State.accessRefusal_none_iff.2 (not_not.1 fun hbad => h ⟨addr, bytes, rest, ha, hbad⟩)
  cases ha : s.agenda with
  | nil => exact step_core_total (nextMove_idle ha)
  | cons e rest =>
    cases e with
    | core => exact step_core_total (nextMove_of_core_listed ha)
    | resetInput => exact ⟨_, step_of_settled (by unfold nextMove; rw [ha])⟩
    | read addr bytes => exact ⟨_, (step_of_read_listed ha).trans (hostRead_of_accepted (accepted _ _ _ (.inl ha)))⟩
    | write addr bytes v =>
      exact ⟨_, (step_of_write_listed ha).trans (hostWrite_of_accepted (accepted _ _ _ (.inr ⟨v, ha⟩)))⟩

end Sys2Proof.Machine

namespace Sys2Proof.Proofs

open Sys2Proof Sys2Proof.Machine Sys2Proof.Statements

/-- Settles O39: a bad access is refused, and everything else, every command included, answers a next state. -/
theorem stepStopsOnlyOnBadAccess : Obligations.StepStopsOnlyOnBadAccess := by
  intro s bad hbad
  have hbad : bad ↔ s.nextIsBadAccess := hbad
  rw [hbad]
  refine ⟨⟨fun ⟨r, hr⟩ => ?_, step_of_badAccess⟩, ⟨fun ⟨t, ht⟩ h => ?_, step_of_not_badAccess⟩⟩
  · by_contra h
    obtain ⟨t, ht⟩ := step_of_not_badAccess h
    cases hr.symm.trans ht
  · obtain ⟨r, hr⟩ := step_of_badAccess h
    cases hr.symm.trans ht

/-- Settles O5, by `coreMove_run_iff`: ten free slots, where the command may push, are no hold. -/
theorem stepRunsHeadCommand : Obligations.StepRunsHeadCommand := by
  intro s i w q hrun hc hd _ hroom
  have hfree : s.holds i = false := by
    rw [← Bool.not_eq_true, State.holds_iff]
    exact fun ⟨hp, hfull⟩ => (hroom hp).not_gt hfull
  have run : ∀ a, coreMove { s with agenda := a } = .run i { s with agenda := a } := fun a =>
    coreMove_run_iff.2 ⟨rfl, hrun, hfree, w, q, hc, hd⟩
  exact ⟨fun ha => step_of_run ((nextMove_idle ha).trans (run s.agenda)),
    fun rest ha => step_of_run ((nextMove_of_core_listed ha).trans (run rest))⟩

end Sys2Proof.Proofs
end

section
/-! The decoder and the encoder undo each other, what the core does with a word that is no command,
and how many words each command pushes (O1 to O4, O60). -/

namespace Sys2Proof

open Laws.EncodedForm

/-! ### The fields of an encoded word (R82, R84) -/

@[simp] theorem sampleField_encodeSample (op : BitVec 6) (m : Bool) (v : BitVec 25) :
    sampleField (encodeSample op m v) = v := BitVec.extractLsb'_append_eq_right

@[simp] theorem maskField_encodeSample (op : BitVec 6) (m : Bool) (v : BitVec 25) :
    maskField (encodeSample op m v) = m := by
  rw [maskField, encodeSample, BitVec.getLsbD_append, BitVec.getLsbD_append]
  simp

@[simp] theorem lengthField_encodeLength (op : BitVec 6) (sym : BitVec 17) (l : BitVec 7) :
    lengthField (encodeLength op sym l) = l := BitVec.extractLsb'_append_eq_right

@[simp] theorem symbolField_encodeLength (op : BitVec 6) (sym : BitVec 17) (l : BitVec 7) :
    symbolField (encodeLength op sym l) = sym :=
  (BitVec.extractLsb'_append_eq_of_le (Nat.le_refl 7)).trans BitVec.extractLsb'_append_eq_right

@[simp] theorem byteField_encodeByte (op : BitVec 6) (b : Byte) : byteField (encodeByte op b) = b :=
  BitVec.extractLsb'_append_eq_right

/-! ### Decoding an encoded word -/

theorem accept_of_reservedZero {f : Format} {w : Word} (i : Instr) (h : reservedZero f w = true) :
    accept f w i = .ok i := if_pos h

theorem Instr.wellFormed_eq_true (i : Instr) : i.wellFormed = true := by
  cases i <;> rfl

/-- R84, R86: no operand bit is dropped. -/
theorem decode_encode (i : Instr) : decode (encode i) = .ok i := by
  cases i with
  | histSample m v =>
    simp only [decode, encode, opcodeField_encodeSample, maskField_encodeSample, sampleField_encodeSample]
    exact accept_of_reservedZero _ rfl
  | encSample m v =>
    simp only [decode, encode, opcodeField_encodeSample, maskField_encodeSample, sampleField_encodeSample]
    exact accept_of_reservedZero _ rfl
  | lenWrite sym l =>
    simp only [decode, encode, opcodeField_encodeLength, symbolField_encodeLength, lengthField_encodeLength]
    exact accept_of_reservedZero _ (reservedZero_encodeLength 0x05 sym l)
  | decByte b =>
    simp only [decode, encode, opcodeField_encodeByte, byteField_encodeByte]
    exact accept_of_reservedZero _ (reservedZero_encodeByte 0x0B b)
  | nop | histClear | buildTree | lenClear | buildCodes | encStart | encFinish | decStart | decEnd => rfl

theorem encode_injective : Function.Injective encode := fun i j h =>
  Except.ok.inj ((decode_encode i).symm.trans ((congrArg decode h).trans (decode_encode j)))

/-! ### Encoding the fields of a word -/

/-- A word of format N is its opcode and 26 bits of 0. -/
theorem encodeNone_of_fields {w : Word} {op : BitVec 6} (hop : opcodeField w = op) (hz : reservedZero .none w = true) :
    encodeNone op = w := by
  subst hop
  have hlow : w.extractLsb' 0 26 = 0 := beq_iff_eq.1 hz
  rw [encodeNone, ← hlow]
  exact BitVec.extractLsb'_append_extractLsb'

/-- A word of format S is its opcode, mask bit and sample value. -/
theorem encodeSample_of_fields {w : Word} {op : BitVec 6} (hop : opcodeField w = op) :
    encodeSample op (maskField w) (sampleField w) = w := by
  subst hop
  have hmask : BitVec.ofBool (maskField w) = w.extractLsb' 25 1 := by
    ext i hi
    simp [maskField, Nat.lt_one_iff.1 hi]
  have htop : opcodeField w ++ w.extractLsb' 25 1 = w.extractLsb' 25 7 :=
    BitVec.extractLsb'_append_extractLsb'_eq_extractLsb' rfl
  rw [encodeSample, hmask, htop]
  exact BitVec.extractLsb'_append_extractLsb'

/-- A word of format L is its opcode, two bits of 0, symbol and length. -/
theorem encodeLength_of_fields {w : Word} {op : BitVec 6} (hop : opcodeField w = op) (hz : reservedZero .length w = true) :
    encodeLength op (symbolField w) (lengthField w) = w := by
  subst hop
  have hgap : w.extractLsb' 24 2 = 0 := beq_iff_eq.1 hz
  have htop : opcodeField w ++ w.extractLsb' 24 2 = w.extractLsb' 24 8 :=
    BitVec.extractLsb'_append_extractLsb'_eq_extractLsb' rfl
  have hmid : w.extractLsb' 24 8 ++ symbolField w = w.extractLsb' 7 25 :=
    BitVec.extractLsb'_append_extractLsb'_eq_extractLsb' rfl
  rw [encodeLength, ← hgap, htop, hmid]
  exact BitVec.extractLsb'_append_extractLsb'

/-- A word of format B is its opcode, 18 bits of 0 and the byte. -/
theorem encodeByte_of_fields {w : Word} {op : BitVec 6} (hop : opcodeField w = op) (hz : reservedZero .byte w = true) :
    encodeByte op (byteField w) = w := by
  subst hop
  have hgap : w.extractLsb' 8 18 = 0 := beq_iff_eq.1 hz
  have htop : opcodeField w ++ w.extractLsb' 8 18 = w.extractLsb' 8 24 :=
    BitVec.extractLsb'_append_extractLsb'_eq_extractLsb' rfl
  rw [encodeByte, ← hgap, htop]
  exact BitVec.extractLsb'_append_extractLsb'

/-! ### Decoding any word -/

/-- The reserved opcodes are those above 0x0C (R85, R87). -/
theorem formatOf_eq_none_iff (op : BitVec 6) : formatOf op = none ↔ 0x0C < op.toNat := by
  revert op
  decide

/-- What the decoder makes of a word (R86): its opcode is reserved, or it is accepted, with its reserved bits 0, as the
command whose opcode it has and whose word it then is. -/
theorem decode_cases (w : Word) :
    (formatOf (opcodeField w) = none ∧ decode w = .error (.reservedOpcode (opcodeField w)))
      ∨ ∃ i : Instr, opcodeField w = i.opcode ∧ decode w = accept i.format w i
          ∧ (reservedZero i.format w = true → encode i = w) := by
  have named : ∀ {op : BitVec 6}, (opcodeField w).toNat = op.toNat → opcodeField w = op := BitVec.eq_of_toNat_eq
  unfold decode
  split
  case h_1 h => exact .inr ⟨.nop, named h, rfl, encodeNone_of_fields (named h)⟩
  case h_2 h => exact .inr ⟨.histClear, named h, rfl, encodeNone_of_fields (named h)⟩
  case h_3 h => exact .inr ⟨.histSample _ _, named h, rfl, fun _ => encodeSample_of_fields (named h)⟩
  case h_4 h => exact .inr ⟨.buildTree, named h, rfl, encodeNone_of_fields (named h)⟩
  case h_5 h => exact .inr ⟨.lenClear, named h, rfl, encodeNone_of_fields (named h)⟩
  case h_6 h => exact .inr ⟨.lenWrite _ _, named h, rfl, encodeLength_of_fields (named h)⟩
  case h_7 h => exact .inr ⟨.buildCodes, named h, rfl, encodeNone_of_fields (named h)⟩
  case h_8 h => exact .inr ⟨.encStart, named h, rfl, encodeNone_of_fields (named h)⟩
  case h_9 h => exact .inr ⟨.encSample _ _, named h, rfl, fun _ => encodeSample_of_fields (named h)⟩
  case h_10 h => exact .inr ⟨.encFinish, named h, rfl, encodeNone_of_fields (named h)⟩
  case h_11 h => exact .inr ⟨.decStart, named h, rfl, encodeNone_of_fields (named h)⟩
  case h_12 h => exact .inr ⟨.decByte _, named h, rfl, encodeByte_of_fields (named h)⟩
  case h_13 h => exact .inr ⟨.decEnd, named h, rfl, encodeNone_of_fields (named h)⟩
  case h_14 =>
    refine .inl ⟨(formatOf_eq_none_iff _).2 ?_, rfl⟩
    simp only [imp_false] at *
    omega

theorem wellFormedWord_iff {w : Word} :
    wellFormedWord w = true ↔ ∃ f, formatOf (opcodeField w) = some f ∧ reservedZero f w = true := by
  unfold wellFormedWord
  cases formatOf (opcodeField w) <;> simp

theorem formatOf_opcode (i : Instr) : formatOf i.opcode = some i.format :=
  beq_iff_eq.1 i.wellFormed_eq_true

/-- A command word decodes to the command whose word it is (R86). -/
theorem decode_of_wellFormedWord {w : Word} (h : wellFormedWord w = true) : ∃ i, decode w = .ok i ∧ encode i = w := by
  obtain ⟨f, hf, hz⟩ := wellFormedWord_iff.1 h
  rcases decode_cases w with ⟨hnone, -⟩ | ⟨i, hop, hd, he⟩
  · cases hnone.symm.trans hf
  · rw [hop, formatOf_opcode] at hf
    obtain rfl : i.format = f := Option.some.inj hf
    exact ⟨i, hd.trans (accept_of_reservedZero i hz), he hz⟩

/-- A word that is no command is ILLEGAL (R86). -/
theorem decode_of_not_wellFormedWord {w : Word} (h : wellFormedWord w = false) : ∃ e, decode w = .error e := by
  rcases decode_cases w with ⟨-, hd⟩ | ⟨i, hop, hd, -⟩
  · exact ⟨_, hd⟩
  · have hz : ¬ reservedZero i.format w = true := fun hz =>
      Bool.false_ne_true (h.symm.trans (wellFormedWord_iff.2 ⟨_, hop ▸ formatOf_opcode i, hz⟩))
    exact ⟨.reservedBits i.format, hd.trans (if_neg hz)⟩

/-- The legality condition of R86, read off the opcodes of each format (R85) and its reserved bits (R82). -/
theorem wellFormedWord_iff_fields (w : Word) :
    wellFormedWord w = true ↔
      (opcodeField w).toNat ≤ 0x0C
        ∧ ((opcodeField w).toNat ∈ [0x00, 0x01, 0x03, 0x04, 0x06, 0x07, 0x09, 0x0A, 0x0C] → w.extractLsb' 0 26 = 0)
        ∧ ((opcodeField w).toNat = 0x05 → w.extractLsb' 24 2 = 0)
        ∧ ((opcodeField w).toNat = 0x0B → w.extractLsb' 8 18 = 0) := by
  have opcodes : ∀ op : BitVec 6,
      (op.toNat ∈ [0x00, 0x01, 0x03, 0x04, 0x06, 0x07, 0x09, 0x0A, 0x0C] ↔ formatOf op = some .none)
        ∧ (op.toNat = 0x05 ↔ formatOf op = some .length) ∧ (op.toNat = 0x0B ↔ formatOf op = some .byte) := by
    decide
  obtain ⟨hnone, hlength, hbyte⟩ := opcodes (opcodeField w)
  rw [wellFormedWord_iff, ← not_lt, ← formatOf_eq_none_iff, hnone, hlength, hbyte]
  cases formatOf (opcodeField w) with
  | none => simp
  | some f => cases f <;> simp [reservedZero]

end Sys2Proof

namespace Sys2Proof.Machine

/-! ### A head word that is no command -/

/-- A running core raises ILLEGAL_CMD for a head word that is no command (R87, R95). -/
theorem coreMove_of_illegal {s : State} {w : Word} {q : List Word} {e : Illegal} (hrun : s.halt = false)
    (hc : s.cmdq = w :: q) (hd : decode w = .error e) :
    coreMove s = .settled (.next (s.raiseError .illegalCmd 0)) := by
  simp only [coreMove, hrun, hc, hd, Bool.false_eq_true, if_false]

/-! ### The words a command pushes (R90) -/

/-- With lengths of at most 64, ENC_SAMPLE completes at most eight bytes (R90). -/
theorem State.worksTo_encSample_outq {s u : State} {m : Bool} {v : BitVec 25} (h : s.worksTo (.encSample m v) u)
    (hlen : ∀ sym : Nat, (s.len.get sym).toNat ≤ 64) : ∃ words, u.outq = s.outq ++ words ∧ words.length ≤ 8 := by
  obtain rfl | rfl | ⟨-, rfl⟩ := h
  · exact ⟨[], (List.append_nil _).symm, Nat.zero_le _⟩
  · exact ⟨[], (List.append_nil _).symm, Nat.zero_le _⟩
  · obtain ⟨bytes, hout, hbytes⟩ := s.emit_outq (s.code.get v.toNat) (s.len.get v.toNat)
    exact ⟨_, hout, (List.length_map ..).trans_le (hbytes (hlen _))⟩

/-- DEC_BYTE pushes at most one word for each bit of its byte (R90). -/
theorem State.worksTo_decByte_outq {s u : State} {b : Byte} (h : s.worksTo (.decByte b) u) :
    ∃ words, u.outq = s.outq ++ words ∧ words.length ≤ 8 := by
  obtain rfl | ⟨-, h⟩ := h
  · exact ⟨[], (List.append_nil _).symm, Nat.zero_le _⟩
  · rw [h]
    obtain ⟨words, hout, hlen⟩ := s.decBitList_outq (byteBits b)
    exact ⟨words, hout, hlen⟩

end Sys2Proof.Machine

namespace Sys2Proof.Proofs

open Sys2Proof Sys2Proof.Machine Sys2Proof.Statements

/-- Settles O2, by `decode_encode`. -/
theorem decodeOfEncode : Obligations.DecodeOfEncode := fun i => ⟨i.wellFormed_eq_true, decode_encode i⟩

/-- Settles O4: the core's move is the error entry, and `w` is the head word that it records. -/
theorem illegalHeadHalts : Obligations.IllegalHeadHalts := by
  intro s w q ha hrun hc hw
  obtain ⟨e, hd⟩ := decode_of_not_wellFormedWord hw
  rw [step_of_settled ((nextMove_idle ha).trans (coreMove_of_illegal hrun hc hd)), State.raiseError,
    State.headWord_of_cons hc]
  rfl

/-- Settles O3: the command is unique because `encode` is injective. -/
theorem everyWordCommandOrIllegal : Obligations.EveryWordCommandOrIllegal := by
  intro w
  refine ⟨fun hw => ?_, decode_of_not_wellFormedWord, wellFormedWord_iff_fields w,
    fun hw s q ha hrun hc => illegalHeadHalts s w q ha hrun hc hw⟩
  obtain ⟨i, hd, he⟩ := decode_of_wellFormedWord hw
  exact ⟨i, hd, he, fun j hj => encode_injective (hj.trans he.symm)⟩

/-- Settles O60: a command that may not push is silent, and END makes ENC_FINISH's bound ten. -/
theorem pushBound : Obligations.PushBound := by
  intro i s t hlen h
  obtain ⟨u, hwork, hend⟩ := exec_next h
  rw [State.endsIn_outq hend]
  obtain ⟨words, hout, hquiet, hmax⟩ := State.worksTo_outq hwork
  cases i with
  | encSample m v => exact State.worksTo_encSample_outq hwork hlen
  | encFinish => exact ⟨words, hout, hmax fun _ => hlen⟩
  | decByte b => exact State.worksTo_decByte_outq hwork
  | _ => exact ⟨words, hout, (congrArg List.length (hquiet rfl)).le⟩

/-- Settles O1: the decoder evaluates each of the fourteen words. -/
theorem specWordsDecode : Obligations.SpecWordsDecode := by
  unfold Obligations.SpecWordsDecode
  decide

end Sys2Proof.Proofs
end

section
/-! When the core moves, what ends a hold or quiescence, and the words of format N (O6, O9). -/

namespace Sys2Proof

open Statements

/-! ### Words of format N (R82, R86) -/

theorem Instr.encode_of_format_none {i : Instr} (h : i.format = .none) : encode i = encodeNone i.opcode := by
  cases i with
  | histSample | encSample | lenWrite | decByte => cases h
  | _ => rfl

theorem opcodeField_append (op : BitVec 6) (x : BitVec 26) : opcodeField (op ++ x) = op :=
  BitVec.extractLsb'_append_eq_left

theorem reservedZero_none_append (op : BitVec 6) (x : BitVec 26) : reservedZero .none (op ++ x) = (x == 0) :=
  congrArg (· == 0) BitVec.extractLsb'_append_eq_right

/-- A command of format N has one word; every other word of its opcode has a reserved bit set (R82, R86). -/
theorem Instr.plainWord_of_format_none {i : Instr} (h : i.format = .none) : plainWord i.opcode i := by
  intro x
  split
  case isTrue hx =>
    subst hx
    exact (congrArg decode (Instr.encode_of_format_none h)).symm.trans (decode_encode i)
  case isFalse hx =>
    have hopcode := opcodeField_append i.opcode x
    rcases decode_cases (i.opcode ++ x) with ⟨hnone, -⟩ | ⟨j, hj, hd, -⟩
    · rw [hopcode, formatOf_opcode] at hnone
      cases hnone
    · have hformat : j.format = .none := by
        rw [hopcode] at hj
        exact (Option.some.inj ((formatOf_opcode i).symm.trans (hj ▸ formatOf_opcode j))).symm.trans h
      rw [hformat] at hd
      refine hd.trans (if_neg ?_)
      rwa [reservedZero_none_append, beq_iff_eq]

end Sys2Proof

namespace Sys2Proof.Machine

open Sys2Proof.Statements

theorem State.retire_of_cons {s : State} {w : Word} {q : List Word} (h : s.cmdq = w :: q) : s.retire = retired s q := by
  rw [State.retire, h]
  rfl

/-! ### Enabled, holding, quiescent (R93) -/

theorem enabled_or_holding_or_quiescent (s : State) : enabled s ∨ holding s ∨ s.quiescent := by
  by_cases he : enabled s
  · exact .inl he
  by_cases hq : s.quiescent
  · exact .inr (.inr hq)
  obtain ⟨hhalt, hne⟩ := not_or.1 hq
  have hrun : s.halt = false := by simpa using hhalt
  obtain ⟨w, q, hc⟩ := List.exists_cons_of_ne_nil hne
  refine .inr (.inl ⟨hrun, ?_⟩)
  by_contra hno
  exact he ⟨hrun, w, q, hc, fun i hd hp => not_lt.1 fun hfull => hno ⟨i, w, q, hc, hd, hp, hfull⟩⟩

theorem not_enabled_of_holding {s : State} (h : holding s) : ¬ enabled s := by
  obtain ⟨-, i, w, q, hc, hd, hp, hfull⟩ := h
  rintro ⟨-, w', q', hc', hroom⟩
  cases hc.symm.trans hc'
  exact (hroom i hd hp).not_gt hfull

theorem not_enabled_of_quiescent {s : State} (h : s.quiescent) : ¬ enabled s := by
  rintro ⟨hrun, w, q, hc, -⟩
  rcases h with hhalt | hnil
  · cases hrun.symm.trans hhalt
  · cases hc.symm.trans hnil

/-! ### The core's event (R93, R95) -/

theorem coreMove_of_quiescent {s : State} (h : s.quiescent) : coreMove s = .settled (.next s) := by
  unfold coreMove
  split
  · rfl
  next hrun => rw [h.resolve_left hrun]

theorem coreMove_of_not_enabled {s : State} (h : ¬ enabled s) : coreMove s = .settled (.next s) := by
  rcases (enabled_or_holding_or_quiescent s).resolve_left h with ⟨hrun, i, w, q, hc, hd, hfull⟩ | hq
  · exact coreMove_of_holds hrun hc hd (State.holds_iff.2 hfull)
  · exact coreMove_of_quiescent hq

/-- A queued command that runs leaves CMDQ, or it halts the core (R95, R136). -/
theorem exec_ne_next_self {s : State} (i : Instr) (hrun : s.halt = false) (hc : s.cmdq ≠ []) : exec i s ≠ .next s := by
  intro h
  obtain ⟨u, hwork, hend | ⟨k, arg, hend⟩⟩ := exec_next h
  · have htail : s.cmdq.tail = s.cmdq := by
      rw [← State.worksTo_cmdq hwork]
      exact (congrArg State.cmdq hend).symm.trans (State.worksTo_cmdq hwork).symm
    have hlen := congrArg List.length htail
    have hpos := List.length_pos_iff.2 hc
    rw [List.length_tail] at hlen
    omega
  · cases hrun.symm.trans (congrArg State.halt hend)

/-- The core's event changes the state exactly when the core is enabled. -/
theorem step_core_ne_iff {s u : State} (h : nextMove s = coreMove u) : step s ≠ .next u ↔ enabled u := by
  refine ⟨fun hne => ?_, fun ⟨hrun, w, q, hc, hroom⟩ => ?_⟩
  · by_contra he
    exact hne (step_of_settled (h.trans (coreMove_of_not_enabled he)))
  · cases hd : decode w with
    | error e =>
      rw [step_of_settled (h.trans (coreMove_of_illegal hrun hc hd))]
      intro heq
      cases hrun.symm.trans (congrArg State.halt (Host.Outcome.next.inj heq)).symm
    | ok i =>
      have hfree : u.holds i = false := by
        rw [← Bool.not_eq_true, State.holds_iff]
        exact fun ⟨hp, hfull⟩ => (hroom i hd hp).not_gt hfull
      rw [step_of_run (h.trans (coreMove_run_iff.2 ⟨rfl, hrun, hfree, w, q, hc, hd⟩))]
      exact exec_ne_next_self i hrun (by simp [hc])

/-- Only an enabled core runs a command. -/
theorem enabled_of_nextRuns {s : State} {i : Instr} (h : nextRuns s i) : enabled s := by
  obtain ⟨u, hu⟩ := h
  by_contra he
  unfold nextMove at hu
  split at hu
  · rw [coreMove_of_not_enabled he] at hu
    cases hu
  next rest _ =>
    rw [coreMove_of_not_enabled (s := { s with agenda := rest }) he] at hu
    cases hu
  all_goals cases hu

/-! ### What enables the core again (R93) -/

/-- A step after which a core is enabled that was not is a read of OUT, a write of CTRL or a write of CMD. -/
theorem step_enables {s t : State} (hs : ¬ enabled s) (h : step s = .next t) (ht : enabled t) :
    ((∃ rest, s.agenda = .read (s.params.base + 0x2C) 4 :: rest) ∧ t.halt = s.halt ∧ t.cmdq = s.cmdq)
      ∨ (∃ a v, nextIsWrite s 0x0C v ∧ v.getLsbD 0 = false ∧ t = ({ s with agenda := a } : State).writeCtrl v)
      ∨ ∃ a v, nextIsWrite s 0x28 v ∧ t = ({ s with agenda := a } : State).pushCommand v := by
  obtain ⟨a, he⟩ := step_effect h
  cases he with
  | none => exact absurd ht hs
  | illegal => cases ht.1
  | command i v t next => exact absurd (enabled_of_nextRuns next) hs
  | reset => exact absurd ht (not_enabled_of_quiescent (.inr rfl))
  | read => exact absurd ht hs
  | readOut rest d v next => exact .inl ⟨⟨rest, next⟩, rfl, rfl⟩
  | control v next noReset => exact .inr (.inl ⟨a, v, next, noReset, rfl⟩)
  | irqEnable => exact absurd ht hs
  | acknowledge => exact absurd ht hs
  | queue v next => exact .inr (.inr ⟨a, v, next, rfl⟩)
  | index => exact absurd ht hs

/-- Without OUT_FLUSH a write of CTRL changes nothing in a running core (R50, R139). -/
theorem State.writeCtrl_of_running {s : State} {v : Word} (hrun : s.halt = false) (noReset : v.getLsbD 0 = false)
    (noFlush : v.getLsbD 2 = false) : s.writeCtrl v = s := by
  simp only [State.writeCtrl, noReset, noFlush, State.clearError_of_running hrun, Bool.false_eq_true, if_false, ite_self]

/-- Without ERR_CLEAR a write of CTRL leaves HALT as it is (R50, R139). -/
theorem State.writeCtrl_halt {s : State} {v : Word} (noReset : v.getLsbD 0 = false) (noClear : v.getLsbD 1 = false) :
    (s.writeCtrl v).halt = s.halt := by
  simp only [State.writeCtrl, noReset, noClear, Bool.false_eq_true, if_false]
  split <;> rfl

/-- A write of CMD does not end a hold: it queues its word behind the head, or it halts the core (R56). -/
theorem not_enabled_pushCommand {s : State} (v : Word) (h : holding s) : ¬ enabled (s.pushCommand v) := by
  obtain ⟨hrun, i, w, q, hc, hd, hfull⟩ := h
  rcases s.pushCommand_cases v with hp | ⟨-, -, hp⟩ | hp <;> rw [hp]
  · exact not_enabled_of_holding ⟨hrun, i, w, q, hc, hd, hfull⟩
  · exact not_enabled_of_holding ⟨hrun, i, w, q ++ [v], congrArg (· ++ [v]) hc, hd, hfull⟩
  · exact not_enabled_of_quiescent (.inl rfl)

theorem step_ends_hold {s t : State} (hs : holding s) (h : step s = .next t) (ht : enabled t) :
    (∃ rest, s.agenda = .read (s.params.base + 0x2C) 4 :: rest) ∨ ∃ v, nextIsWrite s 0x0C v ∧ v.getLsbD 2 = true := by
  rcases step_enables (not_enabled_of_holding hs) h ht with ⟨hread, -⟩ | ⟨a, v, next, noReset, rfl⟩ | ⟨a, v, -, rfl⟩
  · exact .inl hread
  · refine .inr ⟨v, next, ?_⟩
    by_contra noFlush
    rw [State.writeCtrl_of_running (s := { s with agenda := a }) hs.1 noReset (by simpa using noFlush)] at ht
    exact not_enabled_of_holding hs ht
  · exact absurd ht (not_enabled_pushCommand (s := { s with agenda := a }) v hs)

theorem step_ends_quiescence {s t : State} (hs : s.quiescent) (h : step s = .next t) (ht : enabled t) :
    (∃ w, nextIsWrite s 0x28 w) ∨ ∃ v, nextIsWrite s 0x0C v ∧ v.getLsbD 1 = true := by
  have waits : t.halt = s.halt → t.cmdq = s.cmdq → False := fun hhalt hc =>
    not_enabled_of_quiescent (hs.imp hhalt.trans hc.trans) ht
  rcases step_enables (not_enabled_of_quiescent hs) h ht with ⟨-, hhalt, hc⟩ | ⟨a, v, next, noReset, rfl⟩ | ⟨a, v, next, -⟩
  · exact (waits hhalt hc).elim
  · refine .inr ⟨v, next, ?_⟩
    by_contra noClear
    exact waits (State.writeCtrl_halt noReset (by simpa using noClear)) (State.writeCtrl_cmdq noReset)
  · exact .inl ⟨v, next⟩

end Sys2Proof.Machine

namespace Sys2Proof.Proofs

open Sys2Proof Sys2Proof.Machine Sys2Proof.Statements

/-- Settles O6: the core's event by `step_core_ne_iff`, and of all steps only three host accesses can enable a core
(`step_enables`). -/
theorem coreTakesStepWhenEnabled : Obligations.CoreTakesStepWhenEnabled := fun s _ =>
  ⟨fun ha => step_core_ne_iff (nextMove_idle ha),
    fun rest ha => step_core_ne_iff (u := { s with agenda := rest }) (nextMove_of_core_listed ha),
    enabled_or_holding_or_quiescent s, step_ends_hold, step_ends_quiescence⟩

/-- Settles O9: the word of NOP, its retirement, a halted core, and a write of CMD without room. -/
theorem nopRule : Obligations.NopRule :=
  ⟨Instr.plainWord_of_format_none (i := .nop) rfl, fun _ _ _ hc => congrArg Host.Outcome.next (State.retire_of_cons hc),
    fun _ hhalt ha => step_of_settled ((nextMove_idle ha).trans (coreMove_of_quiescent (.inl hhalt))),
    fun _ hrun hfull => writes_of_regAt (r := .cmd) rfl (State.pushCommand_of_full 0 hrun hfull.not_lt)⟩

end Sys2Proof.Proofs
end

section
/-! The histogram commands HIST_CLEAR and HIST_SAMPLE (O10, O11). -/

namespace Sys2Proof

/-! ### Words of format S (R82, R84) -/

/-- R84 as it is written: `(OP << 26) | (M << 25) | V` is the word of format S. -/
theorem encodeSample_eq_or (op : BitVec 6) (m : Bool) (v : BitVec 25) :
    encodeSample op m v = op.setWidth 32 <<< 26 ||| (if m then 0x02000000#32 else 0#32) ||| v.setWidth 32 := by
  have hm : (BitVec.ofBool m).setWidth 32 <<< 25 = if m then 0x02000000#32 else 0#32 := by
    cases m <;> rfl
  rw [← hm]
  exact (BitVec.setWidth_eq _).symm.trans BitVec.setWidth_append_append_eq_shiftLeft_setWidth_or

end Sys2Proof

namespace Sys2Proof.Machine

open Sys2Proof.Statements

/-- Error entry with the head word named (R136). -/
theorem State.raiseError_of_cons {s : State} {w : Word} {q : List Word} (h : s.cmdq = w :: q) (k : ErrKind) (arg : Word) :
    s.raiseError k arg = failed s k.code w arg := by
  rw [State.raiseError, State.headWord_of_cons h]
  rfl

/-! ### The cleared histogram (R100) -/

theorem emptyHistogram_get_sample {sym : Nat} (h : sym < Config.eos) : emptyHistogram.get sym = 0 := by
  rw [emptyHistogram, Table.get_set_other _ _ h.ne, Table.get_const]

theorem emptyHistogram_get_eos : emptyHistogram.get Config.eos = 1 := Table.get_set_self _ 1 (by decide)

/-! ### The outcomes of HIST_SAMPLE (R101) -/

section

variable {s : State} {v : BitVec 25}

theorem execHistSample_of_invalid (m : Bool) (hs : s.histValid = false) :
    execHistSample m v s = .next (s.raiseError .sequence 0) := by
  simp [execHistSample, State.histReady, hs]

theorem execHistSample_masked (hs : s.histValid = true) : execHistSample false v s = .next s.retire := by
  simp [execHistSample, State.histReady, hs, maskedOut]

theorem execHistSample_of_tooLarge (hs : s.histValid = true) (hv : 65535 < v.toNat) :
    execHistSample true v s = .next (s.raiseError .invalidSymbol (zext32 v)) := by
  simp [execHistSample, State.histReady, hs, maskedOut, sampleTooLarge, hv]

theorem execHistSample_of_full (hs : s.histValid = true) (hv : v.toNat ≤ 65535) (hfull : s.histTotal = Config.totalMax) :
    execHistSample true v s = .next (s.raiseError .capacity (zext32 v)) := by
  simp [execHistSample, State.histReady, hs, maskedOut, sampleTooLarge, hv.not_gt, hfull]

theorem execHistSample_of_room (hs : s.histValid = true) (hv : v.toNat ≤ 65535) (hroom : s.histTotal ≠ Config.totalMax) :
    execHistSample true v s = .next (s.countSample v).retire := by
  simp [execHistSample, State.histReady, hs, maskedOut, sampleTooLarge, hv.not_gt,
    show s.histTotal ≠ 0xFFFFFFFE#32 from hroom]

end

end Sys2Proof.Machine

namespace Sys2Proof.Proofs

open Sys2Proof Sys2Proof.Machine Sys2Proof.Statements

/-- Settles O10: HIST_CLEAR has one word, and it starts the empty histogram and retires. -/
theorem histClearRule : Obligations.HistClearRule :=
  ⟨Instr.plainWord_of_format_none (i := .histClear) rfl, fun s _ _ hc =>
    ⟨s.startHistogram.retire, rfl, fun _ => emptyHistogram_get_sample, emptyHistogram_get_eos, rfl, rfl,
      State.retire_of_cons (s := s.startHistogram) hc⟩⟩

/-- Settles O11: its words are the encodings of HIST_SAMPLE, and each clause is one outcome of `execHistSample`. -/
theorem histSampleRule : Obligations.HistSampleRule := by
  refine ⟨fun m v => ?_, fun s w q v hc =>
    ⟨fun hs m => ?_, fun hs => ⟨?_, fun hv => ?_, fun hv hfull => ?_, fun hv hroom => ?_⟩⟩⟩
  · exact (congrArg decode (encodeSample_eq_or 0x02 m v).symm).trans (decode_encode (.histSample m v))
  · exact (execHistSample_of_invalid m hs).trans (congrArg _ (State.raiseError_of_cons hc .sequence 0))
  · exact (execHistSample_masked hs).trans (congrArg _ (State.retire_of_cons hc))
  · exact (execHistSample_of_tooLarge hs hv).trans (congrArg _ (State.raiseError_of_cons hc .invalidSymbol _))
  · exact (execHistSample_of_full hs hv hfull).trans (congrArg _ (State.raiseError_of_cons hc .capacity _))
  · exact ⟨_, execHistSample_of_room hs hv hroom, s.count.get_set_self _ (by omega),
      fun _ hne => s.count.get_set_other _ hne, rfl, State.retire_of_cons (s := s.countSample v) hc⟩

end Sys2Proof.Proofs
end

section
/-! The selection scan and the merging loop of the tree builder (O14). -/

namespace Sys2Proof.Machine

open Sys2Proof.Statements

/-! ### The selection key (R105) -/

/-- The selection key as one value of a linear order (R105). -/
def Node.key (x : Node) : Nat ×ₗ Nat ×ₗ Nat := toLex (x.cnt, toLex (x.ht, x.index))

theorem Node.before_iff_key_lt {a b : Node} : a.before b = true ↔ a.key < b.key := by
  simp [Node.before, Node.key, Prod.Lex.toLex_lt_toLex]

theorem leastKey_iff_key_le {x : Node} {l : List Node} : leastKey x l ↔ ∀ y ∈ l, x.key ≤ y.key := by
  simp [leastKey, Node.key, Prod.Lex.toLex_le_toLex]

/-- The least key has the least count. -/
theorem cnt_le_of_leastKey {x y : Node} {l : List Node} (h : leastKey x l) (hy : y ∈ l) : x.cnt ≤ y.cnt := by
  rcases h y hy with hlt | ⟨heq, -⟩
  · exact hlt.le
  · exact heq.le

/-! ### The selection scan (R105) -/

theorem takeLeast_perm (m : Node) (l : List Node) : ((takeLeast m l).1 :: (takeLeast m l).2).Perm (m :: l) := by
  induction l generalizing m with
  | nil => exact .refl _
  | cons x rest ih =>
    unfold takeLeast
    split
    · exact (List.Perm.swap _ _ _).trans ((ih x).cons m)
    · exact (List.Perm.swap _ _ _).trans (((ih m).cons x).trans (.swap _ _ _))

theorem takeLeast_key_le (m : Node) (l : List Node) : ∀ y ∈ m :: l, (takeLeast m l).1.key ≤ y.key := by
  induction l generalizing m with
  | nil => simp [takeLeast]
  | cons x rest ih =>
    unfold takeLeast
    split
    case isTrue h =>
      have hx := ih x
      have hm := (hx x List.mem_cons_self).trans (Node.before_iff_key_lt.1 h).le
      exact List.forall_mem_cons.2 ⟨hm, hx⟩
    case isFalse h =>
      obtain ⟨hm, hrest⟩ := List.forall_mem_cons.1 (ih m)
      have hx := hm.trans (not_lt.1 (mt Node.before_iff_key_lt.2 h))
      exact List.forall_mem_cons.2 ⟨hm, List.forall_mem_cons.2 ⟨hx, hrest⟩⟩

theorem takeLeast_leastKey (m : Node) (l : List Node) : leastKey (takeLeast m l).1 (m :: l) :=
  leastKey_iff_key_le.2 (takeLeast_key_le m l)

/-! ### The merging loop (R104) -/

/-- The loop runs to a root, and by the rule's own merging steps, when it has a turn for every merge. -/
theorem mergeLoop_merges {turns next : Nat} {l : List Node} (hne : l ≠ []) (hturns : l.length ≤ turns + 1) :
    ∃ root, mergeLoop turns next l = some root ∧ Merges next l root := by
  induction turns generalizing next l with
  | zero =>
    obtain ⟨root, rfl⟩ := List.length_eq_one_iff.1 (le_antisymm hturns (List.length_pos_iff.2 hne))
    exact ⟨root, rfl, .root _ _⟩
  | succ turns ih =>
    match l, hne with
    | [root], _ => exact ⟨root, rfl, .root _ _⟩
    | a :: b :: rest, _ =>
      have hperm := takeLeast_perm a (b :: rest)
      have hleast := takeLeast_leastKey a (b :: rest)
      rw [mergeLoop]
      generalize takeLeast a (b :: rest) = first at hperm hleast ⊢
      obtain ⟨x, others⟩ := first
      match others with
      | [] => simpa using hperm.length_eq
      | c :: others =>
        have hperm' := takeLeast_perm c others
        have hlen := hperm.length_eq
        have hlen' := hperm'.length_eq
        simp only [List.length_cons] at hlen hlen' hturns
        obtain ⟨root, hloop, hmerges⟩ := ih (next := next + 1)
          (l := mergeNodes next x (takeLeast c others).1 :: (takeLeast c others).2) (List.cons_ne_nil _ _)
          (by rw [List.length_cons]; omega)
        refine ⟨root, hloop, .merge _ _ _ x _ _ (hperm.symm.trans (hperm'.symm.cons x)) hleast ?_ hmerges⟩
        exact fun y hy => takeLeast_leastKey c others y (hperm'.subset hy)

end Sys2Proof.Machine

namespace Sys2Proof.Proofs

open Sys2Proof Sys2Proof.Machine Sys2Proof.Statements

/-- Settles O14: the scan keeps the smaller of two keys at every node, and drops none. -/
theorem selectionIsLeastKey : Obligations.SelectionIsLeastKey := fun m l =>
  ⟨takeLeast_perm m l, takeLeast_leastKey m l⟩

end Sys2Proof.Proofs
end

section
/-! The Huffman tree of a histogram, and the outcomes of BUILD_TREE (O12). -/

namespace Sys2Proof.Machine

open Sys2Proof.Statements

/-! ### The leaves of a tree (R104) -/

/-- The symbols at the leaves of a tree, from left to right. -/
def Tree.symbols : Tree → List Nat
  | .leaf sym => [sym]
  | .node x y => x.symbols ++ y.symbols

theorem Tree.symbols_length_pos (t : Tree) : 0 < t.symbols.length := by
  induction t with
  | leaf => exact Nat.one_pos
  | node x y ihx _ => rw [Tree.symbols, List.length_append]; omega

theorem Tree.depths_map_fst (t : Tree) (d : Nat) : (t.depths d).map (·.1) = t.symbols := by
  induction t generalizing d with
  | leaf => rfl
  | node x y ihx ihy => rw [Tree.depths, List.map_append, ihx, ihy, Tree.symbols]

theorem leafAt_leaf_iff {sym x d : Nat} : LeafAt (.leaf x) sym d ↔ sym = x ∧ d = 0 := by
  constructor
  · rintro ⟨⟩
    exact ⟨rfl, rfl⟩
  · rintro ⟨rfl, rfl⟩
    exact .here _

theorem leafAt_node_iff {x y : Tree} {sym d : Nat} :
    LeafAt (.node x y) sym d ↔ ∃ e, d = e + 1 ∧ (LeafAt x sym e ∨ LeafAt y sym e) := by
  constructor
  · intro h
    cases h with
    | left _ _ _ e h => exact ⟨e, rfl, .inl h⟩
    | right _ _ _ e h => exact ⟨e, rfl, .inr h⟩
  · rintro ⟨e, rfl, h | h⟩
    · exact .left _ _ _ _ h
    · exact .right _ _ _ _ h

theorem Tree.mem_depths_iff {t : Tree} {sym d n : Nat} : (sym, n) ∈ t.depths d ↔ ∃ e, n = d + e ∧ LeafAt t sym e := by
  induction t generalizing d with
  | leaf x => simp [Tree.depths, leafAt_leaf_iff, and_comm]
  | node x y ihx ihy =>
    simp only [Tree.depths, List.mem_append, ihx, ihy, leafAt_node_iff]
    constructor
    · rintro (⟨e, rfl, h⟩ | ⟨e, rfl, h⟩)
      · exact ⟨e + 1, by omega, e, rfl, .inl h⟩
      · exact ⟨e + 1, by omega, e, rfl, .inr h⟩
    · rintro ⟨_, rfl, e, rfl, h | h⟩
      · exact .inl ⟨e, by omega, h⟩
      · exact .inr ⟨e, by omega, h⟩

theorem Tree.mem_symbols_iff {t : Tree} {sym : Nat} : sym ∈ t.symbols ↔ ∃ d, LeafAt t sym d := by
  rw [← t.depths_map_fst 0]
  simp [Tree.mem_depths_iff]

/-- Every merge on the path to a leaf brings another leaf. -/
theorem depth_lt_symbols_length {t : Tree} {sym d : Nat} (h : LeafAt t sym d) : d < t.symbols.length := by
  induction h with
  | here => exact Nat.one_pos
  | left x y sym d h ih =>
    have := y.symbols_length_pos
    rw [Tree.symbols, List.length_append]
    omega
  | right x y sym d h ih =>
    have := x.symbols_length_pos
    rw [Tree.symbols, List.length_append]
    omega

/-! ### The code lengths of a tree (R104) -/

theorem mem_treeLengths_iff {t : Tree} {sym n : Nat} :
    (sym, n) ∈ treeLengths t ↔ ∃ d, LeafAt t sym d ∧ max d 1 = n := by
  simp only [treeLengths, List.mem_map, Prod.exists, Prod.mk.injEq, Tree.mem_depths_iff]
  constructor
  · rintro ⟨_, _, ⟨d, rfl, h⟩, rfl, rfl⟩
    exact ⟨d, h, by rw [Nat.zero_add]⟩
  · rintro ⟨d, h, rfl⟩
    exact ⟨sym, d, ⟨d, by omega, h⟩, rfl, rfl⟩

theorem treeLengths_map_fst (t : Tree) : (treeLengths t).map (·.1) = t.symbols := by
  rw [treeLengths, List.map_map, ← t.depths_map_fst 0]
  rfl

/-- The symbol of BUILD_FAIL: the least one whose leaf is too deep (R104). -/
theorem firstOverlong_treeLengths_of_some {t : Tree} {sym : Nat} (h : firstOverlong (treeLengths t) = some sym) :
    ∃ d, LeafAt t sym d ∧ 64 < d ∧ ∀ x e, LeafAt t x e → 64 < e → sym ≤ x := by
  obtain ⟨hmem, hleast⟩ := List.min?_eq_some_iff.1 h
  simp only [List.mem_map, List.mem_filter, decide_eq_true_eq] at hmem hleast
  obtain ⟨⟨_, n⟩, ⟨hn, hlong⟩, rfl⟩ := hmem
  obtain ⟨d, hd, rfl⟩ := mem_treeLengths_iff.1 hn
  refine ⟨d, hd, by simpa using hlong, fun x e he hlt => ?_⟩
  exact hleast x ⟨(x, max e 1), ⟨mem_treeLengths_iff.2 ⟨e, he, rfl⟩, lt_max_of_lt_left hlt⟩, rfl⟩

theorem firstOverlong_treeLengths_eq_none_iff {t : Tree} :
    firstOverlong (treeLengths t) = none ↔ ∀ sym d, LeafAt t sym d → d ≤ 64 := by
  constructor
  · intro h sym d hd
    exact (le_max_left _ _).trans (firstOverlong_eq_none h (sym, max d 1) (mem_treeLengths_iff.2 ⟨d, hd, rfl⟩))
  · intro h
    rw [Option.eq_none_iff_forall_ne_some]
    intro sym hs
    obtain ⟨d, hd, hlt, -⟩ := firstOverlong_treeLengths_of_some hs
    exact absurd (h sym d hd) hlt.not_ge

/-! ### The length table (R104) -/

theorem Table.foldl_set_get_of_not_mem {n w : Nat} {α : Type} (index : α → Nat) (value : α → BitVec w) {l : List α}
    (t : Table n w) {k : Nat} (h : k ∉ l.map index) :
    (l.foldl (fun t c => t.set (index c) (value c)) t).get k = t.get k := by
  induction l generalizing t with
  | nil => rfl
  | cons a rest ih =>
    obtain ⟨ha, hrest⟩ := not_or.1 (mt List.mem_cons.2 h)
    exact (ih _ hrest).trans (t.get_set_other _ ha)

/-- Writes at different indices are all read back. -/
theorem Table.foldl_set_get_of_mem {n w : Nat} {α : Type} (index : α → Nat) (value : α → BitVec w) {l : List α}
    (t : Table n w) (hnodup : (l.map index).Nodup) {c : α} (hc : c ∈ l) (hlt : index c < n) :
    (l.foldl (fun t c => t.set (index c) (value c)) t).get (index c) = value c := by
  induction l generalizing t with
  | nil => cases hc
  | cons a rest ih =>
    obtain ⟨ha, hrest⟩ := List.nodup_cons.1 hnodup
    rcases List.mem_cons.1 hc with rfl | hc
    · exact (Table.foldl_set_get_of_not_mem index value _ ha).trans (t.get_set_self _ hlt)
    · exact ih _ hrest hc

theorem lengthTable_get_of_not_mem {lengths : List (Nat × Nat)} {sym : Nat} (h : sym ∉ lengths.map (·.1)) :
    (lengthTable lengths).get sym = 0 :=
  Table.foldl_set_get_of_not_mem (fun c : Nat × Nat => c.1) (fun c => BitVec.ofNat 7 c.2) _ h

theorem lengthTable_get_of_mem {lengths : List (Nat × Nat)} (hnodup : (lengths.map (·.1)).Nodup) {sym l : Nat}
    (hmem : (sym, l) ∈ lengths) (hsym : sym < 65537) (hl : l ≤ 64) : ((lengthTable lengths).get sym).toNat = l := by
  have h := Table.foldl_set_get_of_mem (fun c : Nat × Nat => c.1) (fun c => BitVec.ofNat 7 c.2) (Table.const 65537 7 0)
    hnodup hmem hsym
  rw [lengthTable, h, BitVec.toNat_ofNat]
  exact Nat.mod_eq_of_lt (by omega)

theorem length_of_not_leafAt {t : Tree} {sym : Nat} (hno : ∀ d, ¬ LeafAt t sym d) :
    (lengthTable (treeLengths t)).get sym = 0 := by
  refine lengthTable_get_of_not_mem ?_
  rw [treeLengths_map_fst, Tree.mem_symbols_iff]
  exact not_exists.2 hno

/-! ### Merging (R104) -/

/-- What every merging step keeps holds at the root. -/
theorem merges_invariant {P : List Node → Prop} (hperm : ∀ l l', l.Perm l' → P l → P l')
    (hstep : ∀ n x y rest, leastKey x (x :: y :: rest) → leastKey y (y :: rest) → P (x :: y :: rest) →
      P (mergeNodes n x y :: rest))
    {n : Nat} {l : List Node} {root : Node} (h : Merges n l root) (hl : P l) : P [root] := by
  induction h with
  | root => exact hl
  | merge n l rest x y root active first second next ih =>
    exact ih (hstep n x y rest (fun z hz => first z (active.mem_iff.2 hz)) second (hperm _ _ active hl))

/-- The symbols under the nodes of a list. -/
def symbolsUnder (l : List Node) : List Nat := l.flatMap (·.tree.symbols)

theorem merges_symbols_perm {n : Nat} {l : List Node} {root : Node} (h : Merges n l root) :
    root.tree.symbols.Perm (symbolsUnder l) := by
  have hroot := merges_invariant (P := fun active => (symbolsUnder active).Perm (symbolsUnder l))
    (fun _ _ hp ih => (hp.symm.flatMap_right _).trans ih) (fun n x y rest _ _ ih => ?_) h (.refl _)
  · simpa [symbolsUnder] using hroot
  · simpa [symbolsUnder, mergeNodes, Tree.symbols] using ih

/-! ### The active leaves (R104) -/

/-- EOS and the symbols with a count, ascending. -/
def activeSymbols (count : Table 65537 32) : List Nat :=
  (List.range 65537).filter (fun i => i = 65536 ∨ count.get i ≠ 0)

theorem filter_range_succ_eq_or (n : Nat) (p : Nat → Prop) [DecidablePred p] :
    (List.range (n + 1)).filter (fun i => i = n ∨ p i) = (List.range n).filter (fun i => p i) ++ [n] := by
  rw [List.range_succ, List.filter_append]
  congr 1
  · exact List.filter_congr fun i hi => by simp [(List.mem_range.1 hi).ne]
  · simp

theorem activeSymbols_eq (count : Table 65537 32) :
    activeSymbols count = (List.range 65536).filter (fun i => count.get i ≠ 0) ++ [65536] :=
  filter_range_succ_eq_or 65536 (fun i => count.get i ≠ 0)

theorem mem_activeSymbols {count : Table 65537 32} {sym : Nat} :
    sym ∈ activeSymbols count ↔ sym = 65536 ∨ (sym < 65536 ∧ count.get sym ≠ 0) := by
  rw [activeSymbols_eq, List.mem_append, List.mem_filter, List.mem_range, List.mem_singleton, decide_eq_true_eq, or_comm]

theorem activeSymbols_nodup (count : Table 65537 32) : (activeSymbols count).Nodup := List.nodup_range.filter _

theorem symbolsUnder_activeAtStart (count : Table 65537 32) : symbolsUnder (activeAtStart count) = activeSymbols count := by
  rw [symbolsUnder, activeAtStart, List.flatMap_map]
  exact List.flatMap_singleton' _

theorem support_filter_ne_eos {count : Table 65537 32} (h : count.wf = true) :
    count.support.filter (fun i => i != Config.eos) = (List.range 65536).filter (fun i => count.get i ≠ 0) := by
  refine List.Pairwise.eq_of_mem_iff ((Table.support_ascending h).filter _) (List.pairwise_lt_range.filter _) fun i => ?_
  rw [List.mem_filter, Table.mem_support h, bne_iff_ne, List.mem_filter, List.mem_range, decide_eq_true_eq,
    and_right_comm]
  refine and_congr_left fun _ => ?_
  show i < 65537 ∧ i ≠ 65536 ↔ i < 65536
  omega

/-- The count of a symbol's leaf (R104). -/
def leafCount (count : Table 65537 32) (i : Nat) : Nat := if i = 65536 then 1 else (count.get i).toNat

theorem activeAtStart_eq (count : Table 65537 32) :
    activeAtStart count = (activeSymbols count).map (fun i => leafNode i (leafCount count i)) := rfl

/-- The model's list of active leaves is the rule's. -/
theorem activeLeaves_eq_activeAtStart {count : Table 65537 32} (h : count.wf = true) :
    activeLeaves count = activeAtStart count := by
  have hsample : ∀ i ∈ (List.range 65536).filter (fun i => count.get i ≠ 0),
      leafNode i (count.get i).toNat = leafNode i (leafCount count i) := fun i hi => by
    rw [leafCount, if_neg (List.mem_range.1 (List.mem_of_mem_filter hi)).ne]
  rw [activeAtStart_eq, activeSymbols_eq, List.map_append, List.map_singleton, leafCount, if_pos rfl, activeLeaves,
    support_filter_ne_eos h, List.map_congr_left hsample]

theorem huffmanRoot_merges {count : Table 65537 32} (h : count.wf = true) :
    ∃ root, huffmanRoot count = some root ∧ Merges 65537 (activeAtStart count) root := by
  rw [huffmanRoot, activeLeaves_eq_activeAtStart h]
  refine mergeLoop_merges (List.ne_nil_of_length_pos ?_) (Nat.le_succ _)
  have hmem : 65536 ∈ activeSymbols count := mem_activeSymbols.2 (.inl rfl)
  rw [activeAtStart, List.length_map]
  exact List.length_pos_of_mem hmem

/-! ### The lengths of the root's tree (R104, R109) -/

section

variable {count : Table 65537 32} {root : Node} (h : Merges 65537 (activeAtStart count) root)
include h

theorem root_symbols_perm : root.tree.symbols.Perm (activeSymbols count) := by
  rw [← symbolsUnder_activeAtStart]
  exact merges_symbols_perm h

theorem root_leaf_iff {sym : Nat} :
    (∃ d, LeafAt root.tree sym d) ↔ sym = 65536 ∨ (sym < 65536 ∧ count.get sym ≠ 0) := by
  rw [← Tree.mem_symbols_iff, (root_symbols_perm h).mem_iff, mem_activeSymbols]

theorem root_treeLengths_nodup : ((treeLengths root.tree).map (·.1)).Nodup := by
  rw [treeLengths_map_fst]
  exact (root_symbols_perm h).nodup_iff.2 (activeSymbols_nodup count)

theorem root_length_of_leafAt {sym d : Nat} (hd : LeafAt root.tree sym d) (hfit : d ≤ 64) :
    ((lengthTable (treeLengths root.tree)).get sym).toNat = max d 1 := by
  have hsym : sym = 65536 ∨ _ := (root_leaf_iff h).1 ⟨d, hd⟩
  exact lengthTable_get_of_mem (root_treeLengths_nodup h) (mem_treeLengths_iff.2 ⟨d, hd, rfl⟩) (by omega) (by omega)

theorem root_length_ne_zero_iff (hfit : ∀ sym d, LeafAt root.tree sym d → d ≤ 64) {sym : Nat} :
    (lengthTable (treeLengths root.tree)).get sym ≠ 0 ↔ sym = 65536 ∨ (sym < 65536 ∧ count.get sym ≠ 0) := by
  rw [← root_leaf_iff h]
  refine ⟨fun hne => ?_, fun ⟨d, hd⟩ hzero => ?_⟩
  · by_contra hno
    exact hne (length_of_not_leafAt (not_exists.1 hno))
  · have hlen := root_length_of_leafAt h hd (hfit sym d hd)
    rw [hzero, BitVec.ofNat_eq_ofNat, BitVec.toNat_ofNat, Nat.zero_mod] at hlen
    omega

end

/-! ### The outcomes of BUILD_TREE (R104) -/

/-- The lengths of a tree written, before the retirement (R104). -/
def State.writeTree (s : State) (t : Tree) : State :=
  { s.dropLengths with len := lengthTable (treeLengths t), lenValid := true }

section

variable {s : State} {root : Node}

theorem execBuildTree_of_invalid (hs : s.histValid = false) : execBuildTree s = .next (s.raiseError .sequence 0) := by
  simp [execBuildTree, State.histReady, hs]

theorem execBuildTree_of_fit (hs : s.histValid = true) (hroot : huffmanRoot s.count = some root)
    (hfit : ∀ sym d, LeafAt root.tree sym d → d ≤ 64) : execBuildTree s = .next (s.writeTree root.tree).retire := by
  simp [execBuildTree, State.histReady, hs, hroot, firstOverlong_treeLengths_eq_none_iff.2 hfit, State.writeTree]

theorem execBuildTree_of_overlong {sym : Nat} (hs : s.histValid = true) (hroot : huffmanRoot s.count = some root)
    (hlong : firstOverlong (treeLengths root.tree) = some sym) :
    execBuildTree s = .next (s.dropLengths.buildFail (symbolArg sym)) := by
  simp [execBuildTree, State.histReady, hs, hroot, hlong]

end

theorem execBuildTree_success {s t : State} (hs : s.histValid = true) (hwf : s.count.wf = true)
    (hexec : execBuildTree s = .next t) (hvalid : t.lenValid = true) :
    ∃ root, Merges 65537 (activeAtStart s.count) root ∧ (∀ sym d, LeafAt root.tree sym d → d ≤ 64)
      ∧ t = (s.writeTree root.tree).retire := by
  obtain ⟨root, hroot, h⟩ := huffmanRoot_merges hwf
  cases hlong : firstOverlong (treeLengths root.tree) with
  | none =>
    have hfit := firstOverlong_treeLengths_eq_none_iff.1 hlong
    exact ⟨root, h, hfit, Host.Outcome.next.inj (hexec.symm.trans (execBuildTree_of_fit hs hroot hfit))⟩
  | some sym =>
    obtain rfl := Host.Outcome.next.inj (hexec.symm.trans (execBuildTree_of_overlong hs hroot hlong))
    cases hvalid

end Sys2Proof.Machine

namespace Sys2Proof.Proofs

open Sys2Proof Sys2Proof.Machine Sys2Proof.Statements

/-- Settles O12: the model's loop is a merging run, and its length table and its overlong symbol are read off the
leaves of the root that the run ends with. -/
theorem buildTreeIsHuffman : Obligations.BuildTreeIsHuffman := by
  refine ⟨Instr.plainWord_of_format_none (i := .buildTree) rfl, fun s w q hc => ⟨fun hs => ?_, fun hs hwf => ?_⟩⟩
  · exact (execBuildTree_of_invalid hs).trans (congrArg _ (State.raiseError_of_cons hc .sequence 0))
  · obtain ⟨root, hroot, hmerges⟩ := huffmanRoot_merges hwf
    cases hlong : firstOverlong (treeLengths root.tree) with
    | none =>
      have hfit := firstOverlong_treeLengths_eq_none_iff.1 hlong
      refine ⟨root, _, hmerges, execBuildTree_of_fit hs hroot hfit, .inl ⟨fun sym d hd => ?_, fun sym => ?_, ?_⟩⟩
      · exact ⟨hfit sym d hd, root_length_of_leafAt hmerges hd (hfit sym d hd)⟩
      · exact length_of_not_leafAt
      · exact State.retire_of_cons (s := s.writeTree root.tree) hc
    | some sym =>
      obtain ⟨d, hd, hlt, hleast⟩ := firstOverlong_treeLengths_of_some hlong
      refine ⟨root, _, hmerges, execBuildTree_of_overlong hs hroot hlong, .inr ⟨sym, d, hd, hlt, hleast, ?_⟩⟩
      exact State.raiseError_of_cons
        (s := { s.dropLengths with len := .unspecified 65537 7 s.draws, draws := s.draws + 1 }) hc .buildFail _

end Sys2Proof.Proofs
end

section
/-! The Fibonacci bound on code lengths (O13), and the degenerate trees (O15). -/

namespace Sys2Proof.Machine

open Sys2Proof.Statements

/-! ### The Fibonacci bound (R108) -/

/-- The counts of the active nodes bound the depths under them: a leaf at depth `d` needs a count of F(d+2) at its own
node, and of F(d+1) at every other active node, since the merges on its path took the least ones. -/
def fibonacciSound (l : List Node) : Prop :=
  ∀ x ∈ l, ∀ sym d, LeafAt x.tree sym d → Nat.fib (d + 2) ≤ x.cnt ∧ ∀ y ∈ l, Nat.fib (d + 1) ≤ y.cnt

theorem fibonacciSound_merge {n : Nat} {x y : Node} {rest : List Node} (first : leastKey x (x :: y :: rest))
    (second : leastKey y (y :: rest)) (hl : fibonacciSound (x :: y :: rest)) :
    fibonacciSound (mergeNodes n x y :: rest) := by
  have hx : x ∈ x :: y :: rest := List.mem_cons_self
  have hy : y ∈ x :: y :: rest := List.mem_cons_of_mem _ List.mem_cons_self
  have hxy : x.cnt ≤ y.cnt := cnt_le_of_leastKey first hy
  have hrest : ∀ z ∈ rest, z ∈ x :: y :: rest ∧ y.cnt ≤ z.cnt := fun z hz =>
    ⟨List.mem_cons_of_mem _ (List.mem_cons_of_mem _ hz), cnt_le_of_leastKey second (List.mem_cons_of_mem _ hz)⟩
  refine List.forall_mem_cons.2 ⟨fun sym d hd => ?_, fun z hz sym d hd => ?_⟩
  · obtain ⟨e, rfl, hleaf⟩ := leafAt_node_iff.1 hd
    -- the merged leaf stood under `x` or `y`, and both counts bound every count of `rest` from below
    have hbound : Nat.fib (e + 1) + Nat.fib (e + 2) ≤ x.cnt + y.cnt ∧ Nat.fib (e + 2) ≤ y.cnt := by
      rcases hleaf with hleaf | hleaf
      · obtain ⟨hself, hother⟩ := hl x hx sym e hleaf
        have := hother y hy
        omega
      · obtain ⟨hself, hother⟩ := hl y hy sym e hleaf
        have := hother x hx
        omega
    obtain ⟨hsum, hleast⟩ := hbound
    refine ⟨?_, List.forall_mem_cons.2 ⟨?_, fun z hz => hleast.trans (hrest z hz).2⟩⟩
    · show Nat.fib (e + 1 + 2) ≤ x.cnt + y.cnt
      rwa [Nat.fib_add_two]
    · show Nat.fib (e + 2) ≤ x.cnt + y.cnt
      omega
  · obtain ⟨hself, hother⟩ := hl z (hrest z hz).1 sym d hd
    refine ⟨hself, List.forall_mem_cons.2 ⟨?_, fun u hu => hother u (hrest u hu).1⟩⟩
    show Nat.fib (d + 1) ≤ x.cnt + y.cnt
    have := hother x hx
    omega

theorem fibonacciSound_perm {l l' : List Node} (hp : l.Perm l') (hl : fibonacciSound l) : fibonacciSound l' :=
  fun x hx sym d hd => (hl x (hp.mem_iff.2 hx) sym d hd).imp_right fun h y hy => h y (hp.mem_iff.2 hy)

theorem one_le_cnt_of_activeAtStart {count : Table 65537 32} {x : Node} (hx : x ∈ activeAtStart count) : 1 ≤ x.cnt := by
  obtain ⟨i, hi, rfl⟩ := List.mem_map.1 hx
  show 1 ≤ leafCount count i
  unfold leafCount
  split
  case isTrue => exact le_rfl
  case isFalse hne =>
    have hcount := (mem_activeSymbols.1 hi).resolve_left hne
    exact Nat.one_le_iff_ne_zero.2 fun h0 => hcount.2 (BitVec.eq_of_toNat_eq h0)

theorem fibonacciSound_activeAtStart (count : Table 65537 32) : fibonacciSound (activeAtStart count) := by
  intro x hx sym d hd
  have hdepth : d = 0 := by
    obtain ⟨i, -, rfl⟩ := List.mem_map.1 hx
    exact (leafAt_leaf_iff.1 hd).2
  subst hdepth
  exact ⟨one_le_cnt_of_activeAtStart hx, fun y => one_le_cnt_of_activeAtStart⟩

/-! ### The root's count (R108) -/

theorem merges_cnt_eq {n : Nat} {l : List Node} {root : Node} (h : Merges n l root) :
    root.cnt = (l.map Node.cnt).sum := by
  have hroot := merges_invariant (P := fun active => (active.map Node.cnt).sum = (l.map Node.cnt).sum)
    (fun _ _ hp ih => (hp.map _).sum_eq.symm.trans ih) (fun n x y rest _ _ ih => ?_) h rfl
  · simpa using hroot
  · simpa [mergeNodes, Nat.add_assoc] using ih

theorem sum_range_eq_sum_map {l : List Nat} {n : Nat} {f : Nat → Nat} (hnodup : l.Nodup) (hlt : ∀ i ∈ l, i < n)
    (hzero : ∀ i < n, i ∉ l → f i = 0) : ∑ i ∈ Finset.range n, f i = (l.map f).sum := by
  rw [← List.sum_toFinset f hnodup]
  refine (Finset.sum_subset (fun i hi => ?_) fun i hi hni => ?_).symm
  · exact Finset.mem_range.2 (hlt i (List.mem_toFinset.1 hi))
  · exact hzero i (Finset.mem_range.1 hi) (mt List.mem_toFinset.2 hni)

/-- The active leaves count the samples, and EOS once. -/
theorem activeAtStart_cnt_sum (count : Table 65537 32) :
    ((activeAtStart count).map Node.cnt).sum = sampleTotal count + 1 := by
  have hcnt : (activeAtStart count).map Node.cnt = (activeSymbols count).map (leafCount count) := List.map_map
  have hlt : ∀ i ∈ activeSymbols count, i < 65537 := fun i hi => by
    have := mem_activeSymbols.1 hi
    omega
  have hzero : ∀ i < 65537, i ∉ activeSymbols count → leafCount count i = 0 := fun i hi hni => by
    obtain ⟨hne, hcount⟩ := not_or.1 (mt mem_activeSymbols.2 hni)
    rw [leafCount, if_neg hne, of_not_not (not_and.1 hcount (by omega))]
    rfl
  rw [hcnt, ← sum_range_eq_sum_map (activeSymbols_nodup count) hlt hzero, Finset.sum_range_succ]
  have hsample : ∀ i ∈ Finset.range 65536, leafCount count i = (count.get i).toNat := fun i hi =>
    if_neg (Finset.mem_range.1 hi).ne
  rw [Finset.sum_congr rfl hsample]
  rfl

theorem root_depth_le {count : Table 65537 32} {root : Node} (h : Merges 65537 (activeAtStart count) root)
    (htotal : sampleTotal count ≤ 2 ^ 32 - 2) {sym d : Nat} (hd : LeafAt root.tree sym d) : d ≤ 45 := by
  have hfib : Nat.fib (d + 2) ≤ root.cnt :=
    (merges_invariant (fun _ _ => fibonacciSound_perm) (fun _ _ _ _ => fibonacciSound_merge) h
      (fibonacciSound_activeAtStart count) root List.mem_cons_self sym d hd).1
  have hroot := (merges_cnt_eq h).trans (activeAtStart_cnt_sum count)
  by_contra hlt
  have hmono : Nat.fib 48 ≤ Nat.fib (d + 2) := Nat.fib_mono (by omega)
  have h48 : Nat.fib 48 = 4807526976 := by norm_num
  omega

theorem root_length_le {count : Table 65537 32} {root : Node} (h : Merges 65537 (activeAtStart count) root)
    {b : Nat} (hone : 1 ≤ b) (hfit : b ≤ 64) (hdepth : ∀ sym d, LeafAt root.tree sym d → d ≤ b) (sym : Nat) :
    ((lengthTable (treeLengths root.tree)).get sym).toNat ≤ b := by
  by_cases hleaf : ∃ d, LeafAt root.tree sym d
  · obtain ⟨d, hd⟩ := hleaf
    have hle := hdepth sym d hd
    rw [root_length_of_leafAt h hd (hle.trans hfit)]
    exact max_le hle hone
  · rw [length_of_not_leafAt (not_exists.1 hleaf)]
    exact Nat.zero_le b

/-! ### The degenerate trees (R106) -/

theorem activeSymbols_length_le {count : Table 65537 32} {syms : List Nat}
    (hsyms : ∀ sym < 65536, count.get sym ≠ 0 → sym ∈ syms) : (activeSymbols count).length ≤ syms.length + 1 := by
  have hsub : activeSymbols count ⊆ 65536 :: syms := fun sym hmem => by
    rcases mem_activeSymbols.1 hmem with rfl | ⟨hlt, hcount⟩
    · exact List.mem_cons_self
    · exact List.mem_cons_of_mem _ (hsyms sym hlt hcount)
  exact ((activeSymbols_nodup count).subperm hsub).length_le

theorem mem_activeSymbols_of_no_sample {count : Table 65537 32} (hnone : ∀ sym < 65536, count.get sym = 0) {sym : Nat} :
    sym ∈ activeSymbols count ↔ sym = 65536 := by
  rw [mem_activeSymbols]
  exact or_iff_left fun ⟨hlt, hne⟩ => hne (hnone sym hlt)

theorem activeSymbols_length_of_no_sample {count : Table 65537 32} (hnone : ∀ sym < 65536, count.get sym = 0) :
    (activeSymbols count).length ≤ 1 :=
  activeSymbols_length_le (syms := []) fun sym hlt hne => absurd (hnone sym hlt) hne

section

variable {count : Table 65537 32} {root : Node} (h : Merges 65537 (activeAtStart count) root)
  (htwo : (activeSymbols count).length ≤ 2)
include h htwo

theorem root_depth_le_one {sym d : Nat} (hd : LeafAt root.tree sym d) : d ≤ 1 := by
  have hlt := depth_lt_symbols_length hd
  rw [(root_symbols_perm h).length_eq] at hlt
  omega

/-- At most two leaves are at depth 1 at most, so every length is 1. -/
theorem root_length_of_two (sym : Nat) :
    (lengthTable (treeLengths root.tree)).get sym = if sym ∈ activeSymbols count then 1 else 0 := by
  have hdepth : ∀ sym d, LeafAt root.tree sym d → d ≤ 1 := fun _ _ => root_depth_le_one h htwo
  split
  case isTrue hmem =>
    obtain ⟨d, hd⟩ := (root_leaf_iff h).2 (mem_activeSymbols.1 hmem)
    have hle := hdepth sym d hd
    exact BitVec.eq_of_toNat_eq ((root_length_of_leafAt h hd (hle.trans (by decide))).trans (max_eq_right hle))
  case isFalse hmem =>
    exact length_of_not_leafAt (not_exists.1 fun hd => hmem (mem_activeSymbols.2 ((root_leaf_iff h).1 hd)))

end

theorem execBuildTree_of_two {s : State} (hs : s.histValid = true) (hwf : s.count.wf = true)
    (htwo : (activeSymbols s.count).length ≤ 2) :
    ∃ t, execBuildTree s = .next t ∧ t.lenValid = true
      ∧ ∀ sym, t.len.get sym = if sym ∈ activeSymbols s.count then 1 else 0 := by
  obtain ⟨root, hroot, h⟩ := huffmanRoot_merges hwf
  exact ⟨_, execBuildTree_of_fit hs hroot fun sym d hd => (root_depth_le_one h htwo hd).trans (by decide), rfl,
    root_length_of_two h htwo⟩

end Sys2Proof.Machine

namespace Sys2Proof.Proofs

open Sys2Proof Sys2Proof.Machine Sys2Proof.Statements

/-- Settles O13: the counts add up to less than F(48), so no leaf is deeper than 45. -/
theorem buildTreeSucceeds : Obligations.BuildTreeSucceeds := by
  refine ⟨Instr.plainWord_of_format_none (i := .buildTree) rfl, fun s w q hc hs hsound hwf => ?_⟩
  obtain ⟨-, -, htotal, hmax⟩ := hsound hs
  obtain ⟨root, hroot, h⟩ := huffmanRoot_merges hwf
  have hdepth : ∀ sym d, LeafAt root.tree sym d → d ≤ 45 := fun _ _ => root_depth_le h (htotal.le.trans hmax)
  have hfit : ∀ sym d, LeafAt root.tree sym d → d ≤ 64 := fun sym d hd => (hdepth sym d hd).trans (by decide)
  exact ⟨_, execBuildTree_of_fit hs hroot hfit, fun _ => root_length_ne_zero_iff h hfit,
    root_length_le h (by decide) (by decide) hdepth, State.retire_of_cons (s := s.writeTree root.tree) hc⟩

/-- Settles O15: the tree has one leaf, or two. -/
theorem degenerateTree : Obligations.DegenerateTree := by
  refine fun s _ _ _ hs hwf => ⟨fun hnone => ?_, fun v hv hcount honly => ?_⟩
  · obtain ⟨t, hexec, hvalid, hlen⟩ := execBuildTree_of_two hs hwf
      ((activeSymbols_length_of_no_sample hnone).trans (by decide))
    exact ⟨t, hexec, hvalid, fun sym => (hlen sym).trans (if_congr (mem_activeSymbols_of_no_sample hnone) rfl rfl)⟩
  · have hv' : ∀ sym < 65536, s.count.get sym ≠ 0 → sym = v := fun sym hlt hne =>
      of_not_not fun hsym => hne (honly sym hlt hsym)
    obtain ⟨t, hexec, hvalid, hlen⟩ := execBuildTree_of_two hs hwf
      (activeSymbols_length_le (syms := [v]) fun sym hlt hne => List.mem_singleton.2 (hv' sym hlt hne))
    refine ⟨t, hexec, hvalid, fun sym => (hlen sym).trans (if_congr ?_ rfl rfl)⟩
    rw [mem_activeSymbols]
    exact or_congr_right ⟨fun ⟨hlt, hne⟩ => hv' sym hlt hne, fun h => h ▸ ⟨hv, hcount⟩⟩

end Sys2Proof.Proofs
end

section
/-! The Kraft sum of a tree, and canonical assignment on a complete code (O16). -/

namespace Sys2Proof.Machine

open Sys2Proof.Statements

/-! ### The Kraft sum of a tree (R109) -/

/-- The leaves under a node at depth `d` fill the node's share of the code space. -/
theorem Tree.kraft_depths {t : Tree} {d : Nat} (hfit : ∀ c ∈ t.depths d, c.2 ≤ 64) :
    ((t.depths d).map (fun c => 2 ^ (64 - c.2))).sum = 2 ^ (64 - d) := by
  induction t generalizing d with
  | leaf => exact List.sum_singleton
  | node x y ihx ihy =>
    obtain ⟨hx, hy⟩ := List.forall_mem_append.1 hfit
    have hd : d + 1 ≤ 64 := by
      obtain ⟨c, hc⟩ := List.exists_mem_of_length_pos (l := x.depths (d + 1)) (by
        rw [← List.length_map (f := (·.1)), x.depths_map_fst]
        exact x.symbols_length_pos)
      obtain ⟨e, he, -⟩ := Tree.mem_depths_iff.1 hc
      have := hx c hc
      omega
    rw [Tree.depths, List.map_append, List.sum_append, ihx hx, ihy hy, ← Nat.two_mul, ← Nat.pow_succ',
      show (64 - (d + 1)).succ = 64 - d by omega]

/-- A leaf's length is its depth, but for the lone root's (R104). -/
theorem treeLengths_node (x y : Tree) : treeLengths (.node x y) = (Tree.node x y).depths 0 := by
  refine (List.map_congr_left fun c hc => ?_).trans (List.map_id _)
  obtain ⟨e, he, hleaf⟩ := Tree.mem_depths_iff.1 hc
  obtain ⟨d, rfl, -⟩ := leafAt_node_iff.1 hleaf
  exact Prod.ext rfl (max_eq_left (by omega))

/-- The share of the code space that a list of symbols fills, in units of 2^-64. -/
def codeSpace (len : Table 65537 7) (syms : List Nat) : Nat := (syms.map (fun sym => 2 ^ (64 - lengthOf len sym))).sum

/-- The Kraft sum is the share of any list of the coded symbols. -/
theorem kraft_eq_codeSpace {len : Table 65537 7} {syms : List Nat} (hnodup : syms.Nodup)
    (hmem : ∀ sym, sym ∈ syms ↔ sym < 65537 ∧ len.get sym ≠ 0) :
    kraft len = codeSpace len syms := by
  have hsum := sum_range_eq_sum_map (f := fun sym => if len.get sym = 0 then 0 else 2 ^ (64 - (len.get sym).toNat)) hnodup
    (fun sym hs => ((hmem sym).1 hs).1) (fun sym hlt hs => if_pos (of_not_not fun hne => hs ((hmem sym).2 ⟨hlt, hne⟩)))
  refine hsum.trans (congrArg List.sum (List.map_congr_left fun sym hs => ?_))
  exact if_neg ((hmem sym).1 hs).2

section

variable {count : Table 65537 32} {root : Node} (h : Merges 65537 (activeAtStart count) root)
  (hfit : ∀ sym d, LeafAt root.tree sym d → d ≤ 64)
include h hfit

theorem root_kraft :
    kraft (lengthTable (treeLengths root.tree)) = ((treeLengths root.tree).map (fun c => 2 ^ (64 - c.2))).sum := by
  have hmem : ∀ sym, sym ∈ (treeLengths root.tree).map (·.1) ↔
      sym < 65537 ∧ (lengthTable (treeLengths root.tree)).get sym ≠ 0 := fun sym => by
    rw [treeLengths_map_fst, (root_symbols_perm h).mem_iff, root_length_ne_zero_iff h hfit, mem_activeSymbols]
    exact (and_iff_right_of_imp fun hs => by omega).symm
  rw [kraft_eq_codeSpace (root_treeLengths_nodup h) hmem, codeSpace, List.map_map]
  refine congrArg List.sum (List.map_congr_left fun ⟨sym, n⟩ hc => ?_)
  obtain ⟨d, hd, rfl⟩ := mem_treeLengths_iff.1 hc
  exact congrArg (fun l => 2 ^ (64 - l)) (root_length_of_leafAt h hd (hfit sym d hd))

/-- Two symbols make a full tree (R109). -/
theorem root_kraft_of_sample (hsample : ∃ sym < 65536, count.get sym ≠ 0) :
    kraft (lengthTable (treeLengths root.tree)) = 2 ^ 64 := by
  obtain ⟨sym, hlt, hcount⟩ := hsample
  rw [root_kraft h hfit]
  obtain ⟨d, hd⟩ := (root_leaf_iff h).2 (.inr ⟨hlt, hcount⟩)
  obtain ⟨e, he⟩ := (root_leaf_iff h).2 (.inl rfl)
  obtain ⟨cnt, ht, index, t⟩ := root
  cases t with
  | leaf x => exact absurd ((leafAt_leaf_iff.1 hd).1.trans (leafAt_leaf_iff.1 he).1.symm) hlt.ne
  | node x y =>
    rw [treeLengths_node]
    refine Tree.kraft_depths fun ⟨sym, n⟩ hc => ?_
    obtain ⟨e, rfl, hleaf⟩ := Tree.mem_depths_iff.1 hc
    exact (Nat.zero_add e).trans_le (hfit sym e hleaf)

end

/-- A lone code of length 1 fills half the code space (R109). -/
theorem kraft_of_lone {len : Table 65537 7} {sym : Nat} (hsym : sym < 65537) (hone : len.get sym = 1)
    (hzero : ∀ x < 65537, x ≠ sym → len.get x = 0) : kraft len = 2 ^ 63 := by
  rw [kraft_eq_codeSpace (syms := [sym]) (List.nodup_singleton _) fun x => ?_]
  · simp [codeSpace, lengthOf, hone]
  · rw [List.mem_singleton]
    refine ⟨?_, fun ⟨hlt, hne⟩ => of_not_not fun hx => hne (hzero x hlt hx)⟩
    rintro rfl
    exact ⟨hsym, by rw [hone]; decide⟩

/-- EOS alone has the lone code (R106, R109). -/
theorem root_kraft_of_no_sample {count : Table 65537 32} {root : Node} (h : Merges 65537 (activeAtStart count) root)
    (hnone : ∀ sym < 65536, count.get sym = 0) : kraft (lengthTable (treeLengths root.tree)) = 2 ^ 63 := by
  have hlen := root_length_of_two h ((activeSymbols_length_of_no_sample hnone).trans (by decide))
  simp only [mem_activeSymbols_of_no_sample hnone] at hlen
  exact kraft_of_lone (by decide) ((hlen 65536).trans (if_pos rfl)) fun sym _ hne => (hlen sym).trans (if_neg hne)

/-! ### Canonical assignment on a complete code (R114, R116) -/

theorem pow_dvd_codeSpace {len : Table 65537 7} {syms : List Nat} {l : Nat} (h : ∀ sym ∈ syms, lengthOf len sym ≤ l) :
    2 ^ (64 - l) ∣ codeSpace len syms := by
  refine List.dvd_sum fun n hn => ?_
  obtain ⟨sym, hs, rfl⟩ := List.mem_map.1 hn
  exact Nat.pow_dvd_pow 2 (Nat.sub_le_sub_left (h sym hs) 64)

/-- Longest first, the running pattern `p` of `rl` bits is the filled code space in its own units. Where the space that the
whole code fills is a multiple of every code's share, so is the space filled before it, and nothing is dropped; and
what the code itself fills keeps the pattern from overflowing. -/
theorem assignCodes_ok {len : Table 65537 7} {syms : List Nat} {p rl total : Nat} {codes : Table 65537 64}
    (hsorted : syms.Pairwise (fun a b => lengthOf len b ≤ lengthOf len a)) (hrl : ∀ sym ∈ syms, lengthOf len sym ≤ rl)
    (hlmax : rl ≤ 64) (htotal : p * 2 ^ (64 - rl) + codeSpace len syms = total) (hmax : total ≤ 2 ^ 64)
    (hdvd : ∀ sym ∈ syms, 2 ^ (64 - lengthOf len sym) ∣ total) : ∃ t, assignCodes len syms p rl codes = .ok t := by
  induction syms generalizing p rl codes with
  | nil => exact ⟨codes, rfl⟩
  | cons sym rest ih =>
    obtain ⟨hhead, hrest⟩ := List.pairwise_cons.1 hsorted
    have hspace : codeSpace len (sym :: rest) = 2 ^ (64 - lengthOf len sym) + codeSpace len rest := List.sum_cons
    have hshare := hdvd sym List.mem_cons_self
    have hle : lengthOf len sym ≤ rl := hrl sym List.mem_cons_self
    rw [hspace] at htotal
    rw [assignCodes]
    generalize lengthOf len sym = l at *
    have hunits : 2 ^ (64 - l) = 2 ^ (rl - l) * 2 ^ (64 - rl) := by
      rw [← pow_add]
      congr 1
      omega
    obtain ⟨k, rfl⟩ : 2 ^ (rl - l) ∣ p := by
      refine Nat.dvd_of_mul_dvd_mul_right (Nat.two_pow_pos (64 - rl)) ?_
      rw [← hunits, ← Nat.dvd_add_left ((Nat.dvd_refl _).add (pow_dvd_codeSpace hhead)), htotal]
      exact hshare
    rw [mul_right_comm, ← hunits, mul_comm _ k] at htotal
    have hfits : k < 2 ^ l := by
      refine Nat.lt_of_mul_lt_mul_right (a := 2 ^ (64 - l)) ?_
      rw [← pow_add, Nat.add_sub_cancel' (hle.trans hlmax)]
      have := Nat.two_pow_pos (64 - l)
      omega
    rw [Nat.mul_mod_right, if_neg (not_not.2 rfl), Nat.mul_div_cancel_left _ (Nat.two_pow_pos _), if_neg hfits.not_ge]
    refine ih hrest hhead (hle.trans hlmax) ?_ fun x hx => hdvd x (List.mem_cons_of_mem _ hx)
    rw [Nat.succ_mul, Nat.add_assoc, htotal]

theorem mem_symbolsOfLength {len : Table 65537 7} {l sym : Nat} :
    sym ∈ symbolsOfLength len l ↔ sym ∈ len.support ∧ lengthOf len sym = l := by
  rw [symbolsOfLength, List.mem_filter, beq_iff_eq]

theorem longestFirst_perm (len : Table 65537 7) : (longestFirst len).Perm (lengthsSorted len) :=
  (List.reverse_perm _).flatMap_right _

/-- The symbols taken length by length stand in the order of the lengths. -/
theorem pairwise_flatMap_symbolsOfLength {len : Table 65537 7} {r : Nat → Nat → Prop} (hrefl : ∀ l, r l l) {ls : List Nat}
    (h : ls.Pairwise r) :
    (ls.flatMap (symbolsOfLength len)).Pairwise (fun a b => r (lengthOf len a) (lengthOf len b)) := by
  refine List.pairwise_flatMap.2 ⟨fun l _ => ?_, h.imp fun {l m} hlm x hx y hy => ?_⟩
  · refine List.pairwise_of_forall_mem_list fun x hx y hy => ?_
    rw [(mem_symbolsOfLength.1 hx).2, (mem_symbolsOfLength.1 hy).2]
    exact hrefl l
  · rwa [(mem_symbolsOfLength.1 hx).2, (mem_symbolsOfLength.1 hy).2]

theorem lengthsSorted_pairwise_le (len : Table 65537 7) :
    (lengthsSorted len).Pairwise (fun a b => lengthOf len a ≤ lengthOf len b) :=
  pairwise_flatMap_symbolsOfLength le_refl List.pairwise_le_range

theorem longestFirst_pairwise_ge (len : Table 65537 7) :
    (longestFirst len).Pairwise (fun a b => lengthOf len b ≤ lengthOf len a) :=
  pairwise_flatMap_symbolsOfLength (r := (· ≥ ·)) le_refl (List.pairwise_reverse.2 List.pairwise_le_range)

/-- MAX_LEN is the greatest length of a coded symbol (R113). -/
theorem lengthOf_le_maxLength {len : Table 65537 7} {sym : Nat} (hs : sym ∈ lengthsSorted len) :
    lengthOf len sym ≤ (maxLength len (lengthsSorted len)).toNat := by
  rw [maxLength, List.getLast?_eq_some_getLast (List.ne_nil_of_mem hs)]
  have : Std.Refl (fun a b => lengthOf len a ≤ lengthOf len b) := ⟨fun _ => le_rfl⟩
  exact (lengthsSorted_pairwise_le len).rel_getLast hs

/-- BUILD_CODES never fails on lengths that fill the code space or half of it (R116): both are multiples of every
code's share. -/
theorem canonicalCodes_ok_of_kraft {len : Table 65537 7} (hwf : len.wf = true) (hlmax : ∀ sym, (len.get sym).toNat ≤ 64)
    (hkraft : kraft len = 2 ^ 64 ∨ kraft len = 2 ^ 63) : ∃ codes, canonicalCodes len = .ok codes := by
  have hperm := longestFirst_perm len
  have hmem : ∀ sym, sym ∈ lengthsSorted len ↔ sym < 65537 ∧ len.get sym ≠ 0 := fun sym =>
    mem_lengthsSorted.trans (Table.mem_support hwf sym)
  have hspace : codeSpace len (longestFirst len) = kraft len :=
    (hperm.map _).sum_eq.trans (kraft_eq_codeSpace (lengthsSorted_nodup hwf) hmem).symm
  have hdvd : ∀ sym ∈ longestFirst len, 2 ^ (64 - lengthOf len sym) ∣ kraft len := fun sym hs => by
    have hne : lengthOf len sym ≠ 0 := fun h0 => ((hmem sym).1 (hperm.subset hs)).2 (BitVec.eq_of_toNat_eq h0)
    have hhalf : 2 ^ (64 - lengthOf len sym) ∣ 2 ^ 63 := Nat.pow_dvd_pow 2 (by omega)
    rcases hkraft with h | h <;> rw [h]
    · exact hhalf.trans (Nat.pow_dvd_pow 2 (by decide))
    · exact hhalf
  refine assignCodes_ok (longestFirst_pairwise_ge len) (fun sym hs => lengthOf_le_maxLength (hperm.subset hs))
    (maxLength_le hlmax _) ?_ (hkraft.elim Eq.le fun h => h.le.trans (by decide)) hdvd
  rw [Nat.zero_mul, Nat.zero_add, hspace]

theorem execBuildCodes_of_ok {s : State} {codes : Table 65537 64} (hs : s.lenValid = true)
    (hok : canonicalCodes s.len = .ok codes) :
    execBuildCodes s = .next ({ s.sortLengths.measurePayload with code := codes, codesValid := true } : State).retire := by
  simp [execBuildCodes, State.lenReady, hs, hok]

end Sys2Proof.Machine

namespace Sys2Proof.Proofs

open Sys2Proof Sys2Proof.Machine Sys2Proof.Statements

/-- Settles O16: a full tree fills the whole code space and a lone leaf half of it, and both are multiples of every
code's share. -/
theorem treeKraftEquality : Obligations.TreeKraftEquality := by
  intro s t hs hwf hexec hvalid
  obtain ⟨root, h, hfit, rfl⟩ := execBuildTree_success hs hwf hexec hvalid
  have hfull := root_kraft_of_sample h hfit
  have hlone := root_kraft_of_no_sample h
  have hkraft : kraft (lengthTable (treeLengths root.tree)) = 2 ^ 64
      ∨ kraft (lengthTable (treeLengths root.tree)) = 2 ^ 63 := by
    by_cases hsample : ∃ sym < 65536, s.count.get sym ≠ 0
    · exact .inl (hfull hsample)
    · exact .inr (hlone fun sym hlt => of_not_not fun hne => hsample ⟨sym, hlt, hne⟩)
  obtain ⟨codes, hok⟩ := canonicalCodes_ok_of_kraft (lengthTable_wf _) (root_length_le h (by decide) le_rfl hfit) hkraft
  exact ⟨fun _ => root_length_ne_zero_iff h hfit, hfull, hlone, _,
    execBuildCodes_of_ok (s := (s.writeTree root.tree).retire) rfl hok, rfl, rfl⟩

end Sys2Proof.Proofs
end

section
/-! The commands that load code lengths, LEN_CLEAR and LEN_WRITE (O17, O18). -/

namespace Sys2Proof

/-! ### Words of format L (R82, R86, R111) -/

/-- R111 as it is written: `0x1400_0000 | (S << 7) | L` is the word of LEN_WRITE. -/
theorem encode_lenWrite_eq_or (sym : BitVec 17) (l : BitVec 7) :
    encode (.lenWrite sym l) = 0x14000000#32 ||| sym.setWidth 32 <<< 7 ||| l.setWidth 32 :=
  (BitVec.setWidth_eq _).symm.trans BitVec.setWidth_append_append_eq_shiftLeft_setWidth_or

/-- A word with a command's opcode and a reserved bit set is illegal (R86). -/
theorem decode_of_reservedBits {w : Word} {i : Instr} (hop : opcodeField w = i.opcode)
    (hz : reservedZero i.format w = false) : decode w = .error (.reservedBits i.format) := by
  have hformat : formatOf (opcodeField w) = some i.format := hop ▸ formatOf_opcode i
  rcases decode_cases w with ⟨hnone, -⟩ | ⟨j, hj, hd, -⟩
  · cases hnone.symm.trans hformat
  · have hji : j.format = i.format := Option.some.inj ((hj ▸ formatOf_opcode j).symm.trans hformat)
    rw [hji] at hd
    exact hd.trans (if_neg (by simp [hz]))

end Sys2Proof

namespace Sys2Proof.Machine

/-! ### The outcomes of LEN_WRITE (R111) -/

section

variable {s : State} {sym : BitVec 17} {l : BitVec 7}

theorem execLenWrite_of_invalid (hs : s.lenValid = false) : execLenWrite sym l s = .next (s.raiseError .sequence 0) := by
  simp [execLenWrite, State.lenReady, hs]

theorem execLenWrite_of_range (hs : s.lenValid = true) (hrange : 65536 < sym.toNat ∨ 64 < l.toNat) :
    execLenWrite sym l s = .next (s.raiseError .lenRange (zext32 sym)) := by
  rcases hrange with hsym | hl
  · simp [execLenWrite, State.lenReady, hs, symbolTooLarge, hsym]
  · simp [execLenWrite, State.lenReady, hs, lengthTooLarge, hl]

theorem execLenWrite_of_fit (hs : s.lenValid = true) (hsym : sym.toNat ≤ 65536) (hl : l.toNat ≤ 64) :
    execLenWrite sym l s = .next (s.writeLength sym l).retire := by
  simp [execLenWrite, State.lenReady, hs, symbolTooLarge, lengthTooLarge, hsym.not_gt, hl.not_gt]

end

end Sys2Proof.Machine

namespace Sys2Proof.Proofs

open Sys2Proof Sys2Proof.Machine Sys2Proof.Statements

/-- Settles O17: LEN_CLEAR has one word, and it clears the lengths and retires. -/
theorem lenClearRule : Obligations.LenClearRule :=
  ⟨Instr.plainWord_of_format_none (i := .lenClear) rfl, fun s _ _ hc =>
    ⟨s.clearLengths.retire, rfl, fun _ => rfl, State.retire_of_cons (s := s.clearLengths) hc⟩⟩

/-- Settles O18: its words are the encodings of LEN_WRITE, a reserved bit makes one illegal, and each clause is one
outcome of `execLenWrite`. -/
theorem lenWriteRule : Obligations.LenWriteRule := by
  refine ⟨fun sym l => ?_, fun w hop hbits => ?_, fun s w q sym l hc =>
    ⟨fun hs => ?_, fun hs => ⟨fun hrange => ?_, fun hsym hl => ?_⟩⟩⟩
  · exact (congrArg decode (encode_lenWrite_eq_or sym l).symm).trans (decode_encode (.lenWrite sym l))
  · exact decode_of_reservedBits (i := .lenWrite 0 0) hop (beq_eq_false_iff_ne.2 hbits)
  · exact (execLenWrite_of_invalid hs).trans (congrArg _ (State.raiseError_of_cons hc .sequence 0))
  · exact (execLenWrite_of_range hs hrange).trans (congrArg _ (State.raiseError_of_cons hc .lenRange _))
  · exact ⟨_, execLenWrite_of_fit hs hsym hl, s.len.get_set_self _ (by omega), fun _ hne => s.len.get_set_other _ hne,
      State.retire_of_cons (s := s.writeLength sym l) hc⟩

end Sys2Proof.Proofs
end

section
/-! What BUILD_CODES leaves in SORTED, NUM_CODED, MAX_LEN, FIRST and TOTAL_BITS (O19, O22, O24). -/

namespace Sys2Proof.Machine

open Sys2Proof.Statements

/-! ### Writes from the last to the first (R113) -/

/-- Of writes that are done from the last of a list to its first, the first one at an index stands. -/
theorem Table.foldr_set_get {n w : Nat} {α : Type} (index : α → Nat) (value : α → BitVec w) (l : List α)
    (t : Table n w) {k : Nat} (hk : k < n) :
    (l.foldr (fun c t => t.set (index c) (value c)) t).get k =
      ((l.find? (fun c => index c == k)).map value).getD (t.get k) := by
  induction l with
  | nil => rfl
  | cons a rest ih =>
    rw [List.foldr_cons, List.find?_cons]
    by_cases ha : index a = k
    · subst ha
      simp [Table.get_set_self _ _ hk]
    · rw [Table.get_set_other _ _ (Ne.symm ha), ih, beq_false_of_ne ha]

/-- The first entry found in a numbered list has the number of the first entry found. -/
theorem find?_zipIdx_map_snd {α : Type} (p : α → Bool) (l : List α) (k : Nat) :
    ((l.zipIdx k).find? (fun c => p c.1)).map (·.2) = (l.findIdx? p).map (k + ·) := by
  induction l generalizing k with
  | nil => rfl
  | cons a rest ih =>
    rw [List.zipIdx_cons, List.find?_cons, List.findIdx?_cons]
    cases hp : p a with
    | true => rfl
    | false => simp [ih, Function.comp_def, Nat.add_comm, Nat.add_left_comm]

/-! ### The sorted list of coded symbols (R113) -/

theorem mem_lengthsSorted_iff_coded {len : Table 65537 7} (hwf : len.wf = true) {sym : Nat} :
    sym ∈ lengthsSorted len ↔ sym < 65537 ∧ len.get sym ≠ 0 :=
  mem_lengthsSorted.trans (Table.mem_support hwf sym)

/-- The symbols taken length by length, in a strict order of the lengths, ascend within a length. -/
theorem pairwise_flatMap_symbolsOfLength_lex {len : Table 65537 7} (hwf : len.wf = true) {r : Nat → Nat → Prop}
    {ls : List Nat} (h : ls.Pairwise r) :
    (ls.flatMap (symbolsOfLength len)).Pairwise
      (fun a b => r (lengthOf len a) (lengthOf len b) ∨ (lengthOf len a = lengthOf len b ∧ a < b)) := by
  refine List.pairwise_flatMap.2 ⟨fun l _ => ?_, h.imp fun {l m} hlm x hx y hy => .inl ?_⟩
  · refine ((Table.support_ascending hwf).filter _).imp_of_mem fun {x y} hx hy hlt => .inr ⟨?_, hlt⟩
    exact (mem_symbolsOfLength.1 hx).2.trans (mem_symbolsOfLength.1 hy).2.symm
  · rwa [(mem_symbolsOfLength.1 hx).2, (mem_symbolsOfLength.1 hy).2]

/-- The coded symbols stand in the order of (length, symbol). -/
theorem lengthsSorted_pairwise_lex {len : Table 65537 7} (hwf : len.wf = true) :
    (lengthsSorted len).Pairwise
      (fun a b => lengthOf len a < lengthOf len b ∨ (lengthOf len a = lengthOf len b ∧ a < b)) :=
  pairwise_flatMap_symbolsOfLength_lex hwf List.pairwise_lt_range

theorem lengthsSorted_length_eq_card {len : Table 65537 7} (hwf : len.wf = true) :
    (lengthsSorted len).length = ((Finset.range 65537).filter (fun sym => len.get sym ≠ 0)).card := by
  rw [← List.toFinset_card_of_nodup (lengthsSorted_nodup hwf)]
  refine congrArg Finset.card (Finset.ext fun sym => ?_)
  rw [List.mem_toFinset, mem_lengthsSorted_iff_coded hwf, Finset.mem_filter, Finset.mem_range]

/-! ### MAX_LEN (R30, R113) -/

/-- MAX_LEN is a symbol's length: of a coded one if there is one, and else of any. -/
theorem exists_get_eq_maxLength {len : Table 65537 7} (hwf : len.wf = true) :
    ∃ sym < 65537, len.get sym = maxLength len (lengthsSorted len) := by
  unfold maxLength
  split
  case h_1 hnone =>
    refine ⟨0, by decide, of_not_not fun hne => ?_⟩
    have hmem : 0 ∈ lengthsSorted len := (mem_lengthsSorted_iff_coded hwf).2 ⟨by decide, hne⟩
    rw [List.getLast?_eq_none_iff.1 hnone] at hmem
    cases hmem
  case h_2 sym hsome =>
    exact ⟨sym, ((mem_lengthsSorted_iff_coded hwf).1 (List.mem_of_getLast? hsome)).1, rfl⟩

theorem lengthOf_le_maxLength_of_lt {len : Table 65537 7} (hwf : len.wf = true) {sym : Nat} (hsym : sym < 65537) :
    lengthOf len sym ≤ (maxLength len (lengthsSorted len)).toNat := by
  by_cases hzero : len.get sym = 0
  · rw [lengthOf, hzero]
    exact Nat.zero_le _
  · exact lengthOf_le_maxLength ((mem_lengthsSorted_iff_coded hwf).2 ⟨hsym, hzero⟩)

/-! ### FIRST (R29, R113) -/

/-- FIRST has the least index of each length. -/
theorem firstIndex_get (len : Table 65537 7) (syms : List Nat) {l : Nat} (hl : l ≤ 64) :
    (firstIndex len syms).get l =
      ((syms.findIdx? (fun sym => lengthOf len sym == l)).map (BitVec.ofNat 32)).getD Config.invalid := by
  have hfind := find?_zipIdx_map_snd (fun sym => lengthOf len sym == l) syms 0
  rw [firstIndex, List.foldl_reverse,
    Table.foldr_set_get (fun c : Nat × Nat => lengthOf len c.1) (fun c => BitVec.ofNat 32 c.2) _ _ (Nat.lt_succ_of_le hl)]
  simp only [Nat.zero_add, Option.map_id'] at hfind
  rw [← hfind, Option.map_map]
  rfl

theorem firstIndex_cases (len : Table 65537 7) (syms : List Nat) {l : Nat} (hl : l ≤ 64) :
    ((firstIndex len syms).get l = Config.invalid ∧ ∀ sym ∈ syms, lengthOf len sym ≠ l)
      ∨ ∃ (i : Nat) (hi : i < syms.length), (firstIndex len syms).get l = BitVec.ofNat 32 i ∧ lengthOf len syms[i] = l
          ∧ ∀ (j : Nat) (hj : j < i), lengthOf len syms[j] ≠ l := by
  rw [firstIndex_get len syms hl]
  cases hidx : syms.findIdx? (fun sym => lengthOf len sym == l) with
  | none => exact .inl ⟨rfl, by simpa using hidx⟩
  | some i =>
    obtain ⟨hi, hlen, hleast⟩ := List.findIdx?_eq_some_iff_getElem.1 hidx
    exact .inr ⟨i, hi, rfl, beq_iff_eq.1 hlen, fun j hj hj' => hleast j hj (beq_iff_eq.2 hj')⟩

/-! ### Step 1 as a whole (R113) -/

/-- SORTED's first entries are the sorted symbols. -/
theorem State.sortLengths_sorted_get {s : State} (hwf : s.len.wf = true) {i : Nat} (hi : i < (lengthsSorted s.len).length) :
    (s.sortLengths.sorted.get i).toNat = (lengthsSorted s.len)[i] := by
  have h := sorted_getElem? s.sorted hwf hi
  rw [List.getElem?_eq_getElem hi] at h
  exact (Option.some.inj h).symm

theorem State.sortLengths_sortedTables {s : State} (hwf : s.len.wf = true) : sortedTables s.len s.sortLengths := by
  have hnum : s.sortLengths.numCoded.toNat = (lengthsSorted s.len).length := numCoded_toNat hwf
  have hget := @State.sortLengths_sorted_get s hwf
  unfold sortedTables
  rw [hnum]
  refine ⟨lengthsSorted_length_eq_card hwf, fun i hi => ?_, fun i j hij hj => ?_, fun sym hsym => ?_,
    exists_get_eq_maxLength hwf, fun l hl => ?_⟩
  · rw [hget hi]
    exact (mem_lengthsSorted_iff_coded hwf).1 (List.getElem_mem hi)
  · rw [hget (hij.trans hj), hget hj, ← BitVec.toNat_inj]
    exact List.pairwise_iff_getElem.1 (lengthsSorted_pairwise_lex hwf) i j (hij.trans hj) hj hij
  · exact lengthOf_le_maxLength_of_lt hwf hsym
  · rcases firstIndex_cases s.len (lengthsSorted s.len) hl with ⟨hfirst, hnone⟩ | ⟨i, hi, hfirst, hlen, hleast⟩
    · refine .inl ⟨hfirst, fun i hi => ?_⟩
      rw [hget hi]
      exact hnone _ (List.getElem_mem hi)
    · refine .inr ⟨i, hi, hfirst, ?_, fun j hj => ?_⟩
      · rw [hget hi]
        exact hlen
      · rw [hget (hj.trans hi)]
        exact hleast j hj

/-! ### TOTAL_BITS (R117) -/

/-- The symbols without a code add nothing to the payload. -/
theorem payloadBits_eq_sum (count : Table 65537 32) {len : Table 65537 7} (hwf : len.wf = true) :
    payloadBits count len =
      (∑ sym ∈ Finset.range 65536, (count.get sym).toNat * (len.get sym).toNat) + (len.get 65536).toNat := by
  have hmem : ∀ sym, sym ∈ len.support.filter (fun sym => sym != Config.eos) ↔ sym < 65536 ∧ len.get sym ≠ 0 := by
    intro sym
    rw [List.mem_filter, Table.mem_support hwf, bne_iff_ne, and_right_comm]
    refine and_congr_left fun _ => ?_
    show sym < 65537 ∧ sym ≠ 65536 ↔ sym < 65536
    omega
  refine congrArg (· + _) (sum_range_eq_sum_map ((Table.support_nodup hwf).filter _) (fun sym hs => ((hmem sym).1 hs).1)
    fun sym hlt hs => ?_).symm
  have hzero : len.get sym = 0 := of_not_not fun hne => hs ((hmem sym).2 ⟨hlt, hne⟩)
  rw [lengthOf, hzero]
  exact Nat.mul_zero _

/-! ### The outcomes of BUILD_CODES (R112) -/

theorem execBuildCodes_of_error {s : State} {sym : Nat} (hs : s.lenValid = true)
    (herr : canonicalCodes s.len = .error sym) : execBuildCodes s = .next (s.sortLengths.codeAssignFail sym) := by
  simp [execBuildCodes, State.lenReady, hs, herr]

/-- BUILD_CODES that leaves valid codes has succeeded. -/
theorem execBuildCodes_success {s t : State} (hs : s.lenValid = true) (h : execBuildCodes s = .next t)
    (hvalid : t.codesValid = true) :
    ∃ codes, canonicalCodes s.len = .ok codes
      ∧ t = ({ s.sortLengths.measurePayload with code := codes, codesValid := true } : State).retire := by
  cases hc : canonicalCodes s.len with
  | ok codes => exact ⟨codes, rfl, Host.Outcome.next.inj (h.symm.trans (execBuildCodes_of_ok hs hc))⟩
  | error sym =>
    obtain rfl := Host.Outcome.next.inj (h.symm.trans (execBuildCodes_of_error hs hc))
    cases hvalid

end Sys2Proof.Machine

namespace Sys2Proof.Proofs

open Sys2Proof Sys2Proof.Machine Sys2Proof.Statements

/-- Settles O19: both outcomes keep the tables of step 1. -/
theorem sortedTablesRule : Obligations.SortedTablesRule := by
  intro s _ _ _ hs hwf
  have hsorted := State.sortLengths_sortedTables hwf
  cases hc : canonicalCodes s.len with
  | ok codes => exact ⟨_, execBuildCodes_of_ok hs hc, hsorted⟩
  | error sym => exact ⟨_, execBuildCodes_of_error hs hc, hsorted⟩

/-- Settles O22: canonical assignment reads LEN alone, and so does step 1 but for the entries of SORTED that it does not
write. -/
theorem codesDependOnLengthsAlone : Obligations.CodesDependOnLengthsAlone := by
  intro s s' t t' hlen hwf hs hs' h h'
  have hfirst : s.sortLengths.first = s'.sortLengths.first := by simp only [State.sortLengths, hlen]
  have hnum : s.sortLengths.numCoded = s'.sortLengths.numCoded := by simp only [State.sortLengths, hlen]
  have hmax : s.sortLengths.maxLen = s'.sortLengths.maxLen := by simp only [State.sortLengths, hlen]
  have hsorted : ∀ i < s.sortLengths.numCoded.toNat, s.sortLengths.sorted.get i = s'.sortLengths.sorted.get i :=
    fun i hi => by
      simp only [State.sortLengths, ← hlen]
      exact writeSorted_get_eq hwf s.sorted s'.sorted hi
  cases hc : canonicalCodes s.len with
  | ok codes =>
    obtain rfl := Host.Outcome.next.inj (h.symm.trans (execBuildCodes_of_ok hs hc))
    obtain rfl := Host.Outcome.next.inj (h'.symm.trans (execBuildCodes_of_ok hs' (hlen ▸ hc)))
    exact ⟨rfl, hfirst, hnum, hmax, hsorted, fun _ => rfl⟩
  | error sym =>
    obtain rfl := Host.Outcome.next.inj (h.symm.trans (execBuildCodes_of_error hs hc))
    obtain rfl := Host.Outcome.next.inj (h'.symm.trans (execBuildCodes_of_error hs' (hlen ▸ hc)))
    exact ⟨rfl, hfirst, hnum, hmax, hsorted, nofun⟩

/-- Settles O24: a successful BUILD_CODES has measured the payload. -/
theorem totalBitsRule : Obligations.TotalBitsRule := by
  intro s t hs hwf h hvalid
  obtain ⟨codes, -, rfl⟩ := execBuildCodes_success hs h hvalid
  refine ⟨fun hhist => ?_, fun hhist => ?_⟩
  · rw [← payloadBits_eq_sum s.count hwf]
    exact if_pos hhist
  · exact if_neg (Bool.eq_false_iff.1 hhist)

end Sys2Proof.Proofs
end

section
/-! The order of canonical assignment, and the code space that is taken before a symbol (O20, O21, O23). -/

namespace Sys2Proof.Machine

open Sys2Proof.Statements

/-! ### The order of assignment and the code space taken before a symbol (R114) -/

/-- Canonical assignment takes `x` before `sym`: longest first, ascending within a length. -/
abbrev assignedBefore (len : Table 65537 7) (x sym : Nat) : Prop :=
  lengthOf len sym < lengthOf len x ∨ (lengthOf len x = lengthOf len sym ∧ x < sym)

theorem assignedBefore_iff {len : Table 65537 7} {x sym : Nat} :
    assignedBefore len x sym ↔
      (len.get sym).toNat < (len.get x).toNat ∨ (len.get x = len.get sym ∧ x < sym) := by
  rw [← BitVec.toNat_inj]
  rfl

theorem not_assignedBefore_self (len : Table 65537 7) (sym : Nat) : ¬ assignedBefore len sym sym := by
  unfold assignedBefore
  omega

theorem assignedBefore_trans {len : Table 65537 7} {x y z : Nat} (hxy : assignedBefore len x y)
    (hyz : assignedBefore len y z) : assignedBefore len x z := by
  unfold assignedBefore at *
  omega

theorem assignedBefore_total (len : Table 65537 7) {x y : Nat} (h : x ≠ y) :
    assignedBefore len x y ∨ assignedBefore len y x := by
  unfold assignedBefore
  omega

theorem lengthOf_le_of_assignedBefore {len : Table 65537 7} {x sym : Nat} (h : assignedBefore len x sym) :
    lengthOf len sym ≤ lengthOf len x := by
  unfold assignedBefore at h
  omega

theorem lengthOf_le_of_not_assignedBefore {len : Table 65537 7} {x sym : Nat} (h : ¬ assignedBefore len x sym) :
    lengthOf len x ≤ lengthOf len sym := by
  unfold assignedBefore at h
  omega

/-- The symbols that have a code. -/
def codedSymbols (len : Table 65537 7) : Finset Nat := (Finset.range 65537).filter (fun sym => len.get sym ≠ 0)

theorem mem_codedSymbols {len : Table 65537 7} {sym : Nat} :
    sym ∈ codedSymbols len ↔ sym < 65537 ∧ len.get sym ≠ 0 := by
  rw [codedSymbols, Finset.mem_filter, Finset.mem_range]

/-- The coded symbols that canonical assignment takes before `sym`. -/
def symbolsBefore (len : Table 65537 7) (sym : Nat) : Finset Nat :=
  (codedSymbols len).filter (fun x => assignedBefore len x sym)

theorem mem_symbolsBefore {len : Table 65537 7} {x sym : Nat} :
    x ∈ symbolsBefore len sym ↔ x ∈ codedSymbols len ∧ assignedBefore len x sym := Finset.mem_filter

theorem kraft_eq_sum (len : Table 65537 7) : kraft len = ∑ x ∈ codedSymbols len, 2 ^ (64 - lengthOf len x) := by
  rw [codedSymbols, Finset.sum_filter]
  exact Finset.sum_congr rfl fun x _ => (ite_not _ _ _).symm

theorem kraftBefore_eq_sum (len : Table 65537 7) (sym : Nat) :
    kraftBefore len sym = ∑ x ∈ symbolsBefore len sym, 2 ^ (64 - lengthOf len x) := by
  rw [symbolsBefore, codedSymbols, Finset.filter_filter, Finset.sum_filter]
  exact Finset.sum_congr rfl fun x _ => if_congr (and_congr_right fun _ => assignedBefore_iff.symm) rfl rfl

/-- A symbol's own share stands between what is taken before it and what is taken before a later one. -/
theorem kraftBefore_add_share_le {len : Table 65537 7} {a b : Nat} (ha : a ∈ codedSymbols len)
    (hab : assignedBefore len a b) : kraftBefore len a + 2 ^ (64 - lengthOf len a) ≤ kraftBefore len b := by
  have hnot : a ∉ symbolsBefore len a := fun h => not_assignedBefore_self len a (mem_symbolsBefore.1 h).2
  have hsub : insert a (symbolsBefore len a) ⊆ symbolsBefore len b := by
    refine Finset.insert_subset (mem_symbolsBefore.2 ⟨ha, hab⟩) fun x hx => ?_
    obtain ⟨hcoded, hxa⟩ := mem_symbolsBefore.1 hx
    exact mem_symbolsBefore.2 ⟨hcoded, assignedBefore_trans hxa hab⟩
  rw [kraftBefore_eq_sum, kraftBefore_eq_sum, add_comm,
    ← Finset.sum_insert (f := fun x => 2 ^ (64 - lengthOf len x)) hnot]
  exact Finset.sum_le_sum_of_subset hsub

/-- Where the code fills a multiple of its every share, and no more than the whole code space, every code can be
assigned (R116): the symbol and those after it fill a multiple of its share, and so does the rest. -/
theorem assignable_of_kraft {len : Table 65537 7} {sym : Nat} (hsym : sym ∈ codedSymbols len)
    (hmax : kraft len ≤ 2 ^ 64) (hdvd : 2 ^ (64 - lengthOf len sym) ∣ kraft len) : assignable len sym := by
  have hsplit : kraftBefore len sym + ∑ x ∈ (codedSymbols len).filter (fun x => ¬ assignedBefore len x sym),
      2 ^ (64 - lengthOf len x) = kraft len := by
    rw [kraftBefore_eq_sum, kraft_eq_sum]
    exact Finset.sum_filter_add_sum_filter_not _ _ _
  refine ⟨?_, ?_⟩
  · refine (Nat.dvd_add_left (Finset.dvd_sum fun x hx => ?_)).1 (hsplit ▸ hdvd)
    have hle := lengthOf_le_of_not_assignedBefore (Finset.mem_filter.1 hx).2
    exact Nat.pow_dvd_pow 2 (Nat.sub_le_sub_left hle 64)
  · have hself : sym ∈ (codedSymbols len).filter (fun x => ¬ assignedBefore len x sym) :=
      Finset.mem_filter.2 ⟨hsym, not_assignedBefore_self len sym⟩
    have hshare := Finset.single_le_sum (f := fun x => 2 ^ (64 - lengthOf len x)) (fun _ _ => Nat.zero_le _) hself
    have hpos := Nat.two_pow_pos (64 - lengthOf len sym)
    omega

/-! ### The list that assignment goes through (R114) -/

theorem mem_longestFirst {len : Table 65537 7} (hwf : len.wf = true) {sym : Nat} :
    sym ∈ longestFirst len ↔ sym ∈ codedSymbols len := by
  rw [(longestFirst_perm len).mem_iff, mem_lengthsSorted_iff_coded hwf, mem_codedSymbols]

theorem longestFirst_nodup {len : Table 65537 7} (hwf : len.wf = true) : (longestFirst len).Nodup :=
  (longestFirst_perm len).nodup_iff.2 (lengthsSorted_nodup hwf)

theorem longestFirst_pairwise_assignedBefore {len : Table 65537 7} (hwf : len.wf = true) :
    (longestFirst len).Pairwise (assignedBefore len) :=
  pairwise_flatMap_symbolsOfLength_lex (r := (· > ·)) hwf (List.pairwise_reverse.2 List.pairwise_lt_range)

section

variable {len : Table 65537 7} (hwf : len.wf = true) {done rest : List Nat} {sym : Nat}
  (h : longestFirst len = done ++ sym :: rest)
include hwf h

/-- What the list has before a symbol is what assignment takes before it. -/
theorem mem_done_iff {x : Nat} : x ∈ done ↔ x ∈ symbolsBefore len sym := by
  have hpair := longestFirst_pairwise_assignedBefore hwf
  rw [h, List.pairwise_append, List.pairwise_cons] at hpair
  obtain ⟨-, ⟨hrest, -⟩, hdone⟩ := hpair
  rw [mem_symbolsBefore, ← mem_longestFirst hwf, h, List.mem_append, List.mem_cons]
  refine ⟨fun hx => ⟨.inl hx, hdone x hx sym List.mem_cons_self⟩, ?_⟩
  rintro ⟨hx | rfl | hx, hbefore⟩
  · exact hx
  · exact absurd hbefore (not_assignedBefore_self len x)
  · exact absurd (assignedBefore_trans hbefore (hrest x hx)) (not_assignedBefore_self len x)

theorem codeSpace_done : codeSpace len done = kraftBefore len sym := by
  have hnodup : done.Nodup := (List.nodup_append.1 (h ▸ longestFirst_nodup hwf)).1
  have hset : done.toFinset = symbolsBefore len sym := Finset.ext fun x => List.mem_toFinset.trans (mem_done_iff hwf h)
  rw [kraftBefore_eq_sum, ← hset, List.sum_toFinset _ hnodup]
  rfl

end

end Sys2Proof.Machine
end

section
/-! Canonical assignment: which lengths it accepts, and the codes it gives (O20, O21, O23). -/

namespace Sys2Proof.Machine

open Sys2Proof.Statements

/-! ### The two checks and the pattern (R114, R115) -/

/-- A symbol's code: the code space taken before it, in units of its own share. -/
def patternOf (len : Table 65537 7) (sym : Nat) : Nat := kraftBefore len sym / 2 ^ (64 - lengthOf len sym)

section

variable {len : Table 65537 7} {sym : Nat} (hsym : assignable len sym)
include hsym

theorem patternOf_mul_share : patternOf len sym * 2 ^ (64 - lengthOf len sym) = kraftBefore len sym :=
  Nat.div_mul_cancel hsym.1

theorem patternOf_lt (hlmax : lengthOf len sym ≤ 64) : patternOf len sym < 2 ^ lengthOf len sym := by
  rw [patternOf, Nat.div_lt_iff_lt_mul (Nat.two_pow_pos _), ← pow_add, Nat.add_sub_cancel' hlmax]
  exact hsym.2

end

/-- One symbol of canonical assignment: where the running pattern holds the code space taken so far, the two checks
decide whether the symbol can be given its code, and the shifted pattern is its code. -/
theorem assignCodes_cons {len : Table 65537 7} {sym p rl : Nat} {rest : List Nat} {codes : Table 65537 64}
    (hp : p * 2 ^ (64 - rl) = kraftBefore len sym) (hle : lengthOf len sym ≤ rl) (hrl : rl ≤ 64) :
    (assignable len sym ∧ assignCodes len (sym :: rest) p rl codes =
        assignCodes len rest (patternOf len sym + 1) (lengthOf len sym)
          (codes.set sym (BitVec.ofNat 64 (patternOf len sym))))
      ∨ (¬ assignable len sym ∧ assignCodes len (sym :: rest) p rl codes = .error sym) := by
  have hunits : 2 ^ (64 - lengthOf len sym) = 2 ^ (rl - lengthOf len sym) * 2 ^ (64 - rl) := by
    rw [← pow_add]
    congr 1
    omega
  have hpos := Nat.two_pow_pos (64 - rl)
  have hpattern : p / 2 ^ (rl - lengthOf len sym) = patternOf len sym := by
    rw [patternOf, ← hp, hunits, Nat.mul_div_mul_right _ _ hpos]
  have hexact : p % 2 ^ (rl - lengthOf len sym) = 0 ↔ 2 ^ (64 - lengthOf len sym) ∣ kraftBefore len sym := by
    rw [← hp, hunits, Nat.mul_dvd_mul_iff_right hpos, Nat.dvd_iff_mod_eq_zero]
  have hover : 2 ^ lengthOf len sym ≤ patternOf len sym ↔ 2 ^ 64 ≤ kraftBefore len sym := by
    rw [patternOf, Nat.le_div_iff_mul_le (Nat.two_pow_pos _), ← pow_add, Nat.add_sub_cancel' (hle.trans hrl)]
  rw [assignCodes, hpattern]
  by_cases hdvd : 2 ^ (64 - lengthOf len sym) ∣ kraftBefore len sym
  · rw [if_neg (not_not.2 (hexact.2 hdvd))]
    by_cases hfull : 2 ^ 64 ≤ kraftBefore len sym
    · exact .inr ⟨fun h => hfull.not_gt h.2, if_pos (hover.2 hfull)⟩
    · exact .inl ⟨⟨hdvd, not_le.1 hfull⟩, if_neg (mt hover.1 hfull)⟩
  · exact .inr ⟨fun h => hdvd h.1, if_pos (mt hexact.1 hdvd)⟩

/-! ### Canonical assignment as a whole (R114, R115) -/

/-- The codes of a list of symbols, written into `codes`. -/
def writeCodes (len : Table 65537 7) (syms : List Nat) (codes : Table 65537 64) : Table 65537 64 :=
  syms.foldl (fun t sym => t.set sym (BitVec.ofNat 64 (patternOf len sym))) codes

/-- Assignment writes every code, or it stops at the first symbol that cannot be given one. The running pattern `p` of
`rl` bits is the code space that the symbols already done have taken. -/
theorem assignCodes_cases {len : Table 65537 7} (hwf : len.wf = true) {todo : List Nat} {done : List Nat} {p rl : Nat}
    {codes : Table 65537 64} (h : longestFirst len = done ++ todo) (hp : p * 2 ^ (64 - rl) = codeSpace len done)
    (hle : ∀ sym ∈ todo, lengthOf len sym ≤ rl) (hrl : rl ≤ 64) :
    ((∀ sym ∈ todo, assignable len sym) ∧ assignCodes len todo p rl codes = .ok (writeCodes len todo codes))
      ∨ ∃ pre sym post, todo = pre ++ sym :: post ∧ (∀ x ∈ pre, assignable len x) ∧ ¬ assignable len sym
          ∧ assignCodes len todo p rl codes = .error sym := by
  induction todo generalizing done p rl codes with
  | nil => exact .inl ⟨nofun, rfl⟩
  | cons sym rest ih =>
    have hle' := hle sym List.mem_cons_self
    rcases assignCodes_cons (hp.trans (codeSpace_done hwf h)) hle' hrl with ⟨hsym, heq⟩ | ⟨hsym, heq⟩
    · have hspace : (patternOf len sym + 1) * 2 ^ (64 - lengthOf len sym) = codeSpace len (done ++ [sym]) := by
        rw [Nat.succ_mul, patternOf_mul_share hsym, ← codeSpace_done hwf h]
        simp [codeSpace]
      have hshorter : ∀ x ∈ rest, lengthOf len x ≤ lengthOf len sym := fun x hx => by
        have hpair := longestFirst_pairwise_ge len
        rw [h, List.pairwise_append, List.pairwise_cons] at hpair
        exact hpair.2.1.1 x hx
      rw [heq]
      rcases ih (codes := codes.set sym (BitVec.ofNat 64 (patternOf len sym))) (h.trans (by simp)) hspace hshorter
        (hle'.trans hrl) with ⟨hall, hok⟩ | ⟨pre, bad, post, rfl, hpre, hbad, herr⟩
      · exact .inl ⟨List.forall_mem_cons.2 ⟨hsym, hall⟩, hok⟩
      · exact .inr ⟨sym :: pre, bad, post, rfl, List.forall_mem_cons.2 ⟨hsym, hpre⟩, hbad, herr⟩
    · exact .inr ⟨[], sym, rest, rfl, nofun, hsym, heq⟩

/-- The codes of LEN. -/
def codesOf (len : Table 65537 7) : Table 65537 64 := writeCodes len (longestFirst len) (Table.const 65537 64 0)

section

variable {len : Table 65537 7} (hwf : len.wf = true) (hlmax : ∀ sym < 65537, (len.get sym).toNat ≤ 64)
include hwf hlmax

/-- Canonical assignment gives every coded symbol its code, or it names the first that cannot be given one. -/
theorem canonicalCodes_cases :
    ((∀ sym ∈ codedSymbols len, assignable len sym) ∧ canonicalCodes len = .ok (codesOf len))
      ∨ ∃ sym ∈ codedSymbols len, (∀ x ∈ symbolsBefore len sym, assignable len x) ∧ ¬ assignable len sym
          ∧ canonicalCodes len = .error sym := by
  obtain ⟨longest, hlongest, hmax⟩ := exists_get_eq_maxLength hwf
  have hle : ∀ sym ∈ longestFirst len, lengthOf len sym ≤ (maxLength len (lengthsSorted len)).toNat := fun sym hs =>
    lengthOf_le_maxLength ((longestFirst_perm len).subset hs)
  rcases assignCodes_cases hwf (todo := longestFirst len) (done := []) (codes := Table.const 65537 64 0) rfl
    (Nat.zero_mul _) hle
    (hmax ▸ hlmax longest hlongest) with ⟨hall, hok⟩ | ⟨pre, sym, post, hlist, hpre, hsym, herr⟩
  · exact .inl ⟨fun sym hs => hall sym ((mem_longestFirst hwf).2 hs), hok⟩
  · have hmem : sym ∈ longestFirst len := hlist ▸ List.mem_append_right _ List.mem_cons_self
    exact .inr ⟨sym, (mem_longestFirst hwf).1 hmem, fun x hx => hpre x ((mem_done_iff hwf hlist).2 hx), hsym, herr⟩

theorem canonicalCodes_ok_of_assignable (h : ∀ sym ∈ codedSymbols len, assignable len sym) :
    canonicalCodes len = .ok (codesOf len) := by
  rcases canonicalCodes_cases hwf hlmax with ⟨-, hok⟩ | ⟨sym, hsym, -, hno, -⟩
  · exact hok
  · exact absurd (h sym hsym) hno

theorem canonicalCodes_ok {codes : Table 65537 64} (h : canonicalCodes len = .ok codes) :
    codes = codesOf len ∧ ∀ sym ∈ codedSymbols len, assignable len sym := by
  rcases canonicalCodes_cases hwf hlmax with ⟨hall, hok⟩ | ⟨sym, -, -, -, herr⟩
  · exact ⟨Except.ok.inj (h.symm.trans hok), hall⟩
  · cases h.symm.trans herr

/-- The first symbol that cannot be given its code is the only one of which that can be said. -/
theorem canonicalCodes_error_of_first {sym : Nat} (hsym : sym ∈ codedSymbols len) (hno : ¬ assignable len sym)
    (hfirst : ∀ x ∈ symbolsBefore len sym, assignable len x) : canonicalCodes len = .error sym := by
  rcases canonicalCodes_cases hwf hlmax with ⟨hall, -⟩ | ⟨bad, hbad, hbefore, hnot, herr⟩
  · exact absurd (hall sym hsym) hno
  · rcases eq_or_ne bad sym with rfl | hne
    · exact herr
    · rcases assignedBefore_total len hne with h | h
      · exact absurd (hfirst bad (mem_symbolsBefore.2 ⟨hbad, h⟩)) hnot
      · exact absurd (hbefore sym (mem_symbolsBefore.2 ⟨hsym, h⟩)) hno

end

/-! ### The codes (R114, R118) -/

theorem codeBits_getElem (c : BitVec 64) {l i : Nat} (hi : i < (codeBits c l).length) :
    (codeBits c l)[i] = c.getLsbD (l - 1 - i) := by
  induction l generalizing i with
  | zero => cases hi
  | succ l ih =>
    cases i with
    | zero => rfl
    | succ i =>
      rw [codeBits_length] at hi
      refine (ih (by simpa using hi)).trans (congrArg c.getLsbD ?_)
      omega

/-- A code whose bits begin another's is what the other is when cut to its length. -/
theorem toNat_div_of_codeBits_isPrefix {c d : BitVec 64} {l m : Nat} (hc : c.toNat < 2 ^ l) (hd : d.toNat < 2 ^ m)
    (h : codeBits c l <+: codeBits d m) : l ≤ m ∧ d.toNat / 2 ^ (m - l) = c.toNat := by
  have hlm : l ≤ m := by simpa using h.length_le
  refine ⟨hlm, Nat.eq_of_testBit_eq fun j => ?_⟩
  rw [Nat.testBit_div_two_pow]
  by_cases hj : j < l
  · have hbit := h.getElem (i := l - 1 - j) (by rw [codeBits_length]; omega)
    rw [codeBits_getElem, codeBits_getElem, show l - 1 - (l - 1 - j) = j by omega,
      show m - 1 - (l - 1 - j) = j + (m - l) by omega] at hbit
    exact hbit.symm
  · rw [Nat.testBit_lt_two_pow (hd.trans_le (Nat.pow_le_pow_right two_pos (by omega))),
      Nat.testBit_lt_two_pow (hc.trans_le (Nat.pow_le_pow_right two_pos (not_lt.1 hj)))]

theorem codesOf_get_of_uncoded {len : Table 65537 7} (hwf : len.wf = true) {sym : Nat} (hzero : len.get sym = 0) :
    (codesOf len).get sym = 0 := by
  refine Table.foldl_set_get_of_not_mem id (fun sym => BitVec.ofNat 64 (patternOf len sym)) _ fun hmem => ?_
  rw [List.map_id, mem_longestFirst hwf, mem_codedSymbols] at hmem
  exact hmem.2 hzero

section

variable {len : Table 65537 7} (hwf : len.wf = true) (hlmax : ∀ sym < 65537, (len.get sym).toNat ≤ 64)
  (hassign : ∀ sym ∈ codedSymbols len, assignable len sym)
include hwf hlmax hassign

theorem codesOf_toNat {sym : Nat} (hsym : sym ∈ codedSymbols len) :
    ((codesOf len).get sym).toNat = patternOf len sym := by
  have hlt := (mem_codedSymbols.1 hsym).1
  have h := Table.foldl_set_get_of_mem id (fun sym => BitVec.ofNat 64 (patternOf len sym)) (Table.const 65537 64 0)
    ((List.map_id _).symm ▸ longestFirst_nodup hwf) ((mem_longestFirst hwf).2 hsym) hlt
  have hword : patternOf len sym < 2 ^ 64 :=
    (patternOf_lt (hassign sym hsym) (hlmax sym hlt)).trans_le (Nat.pow_le_pow_right two_pos (hlmax sym hlt))
  refine (congrArg BitVec.toNat h).trans ?_
  rw [BitVec.toNat_ofNat, Nat.mod_eq_of_lt hword]

theorem codesOf_mul_share {sym : Nat} (hsym : sym ∈ codedSymbols len) :
    ((codesOf len).get sym).toNat * 2 ^ (64 - lengthOf len sym) = kraftBefore len sym := by
  rw [codesOf_toNat hwf hlmax hassign hsym]
  exact patternOf_mul_share (hassign sym hsym)

theorem codesOf_lt {sym : Nat} (hsym : sym ∈ codedSymbols len) :
    ((codesOf len).get sym).toNat < 2 ^ lengthOf len sym := by
  rw [codesOf_toNat hwf hlmax hassign hsym]
  exact patternOf_lt (hassign sym hsym) (hlmax sym (mem_codedSymbols.1 hsym).1)

variable {a b : Nat} (ha : a ∈ codedSymbols len) (hb : b ∈ codedSymbols len)
include ha hb

/-- A code cut to the length of a later one is less than it: its share of the code space ends where the later one's
begins, or before. -/
theorem codesOf_div_lt (hab : assignedBefore len a b) :
    ((codesOf len).get a).toNat / 2 ^ (lengthOf len a - lengthOf len b) < ((codesOf len).get b).toNat := by
  have hlongest : lengthOf len a ≤ 64 := hlmax a (mem_codedSymbols.1 ha).1
  have hle := lengthOf_le_of_assignedBefore hab
  have hunits : 2 ^ (64 - lengthOf len b) = 2 ^ (lengthOf len a - lengthOf len b) * 2 ^ (64 - lengthOf len a) := by
    rw [← pow_add]
    congr 1
    omega
  rw [Nat.div_lt_iff_lt_mul (Nat.two_pow_pos _)]
  refine Nat.lt_of_mul_lt_mul_right (a := 2 ^ (64 - lengthOf len a)) ?_
  rw [mul_assoc, ← hunits, codesOf_mul_share hwf hlmax hassign ha, codesOf_mul_share hwf hlmax hassign hb]
  exact (Nat.lt_add_of_pos_right (Nat.two_pow_pos _)).trans_le (kraftBefore_add_share_le ha hab)

/-- No code begins another's: cut to its length, the other one is less than it or greater. -/
theorem codesOf_not_isPrefix (hne : a ≠ b) :
    ¬ codeBits ((codesOf len).get a) (lengthOf len a) <+: codeBits ((codesOf len).get b) (lengthOf len b) := by
  intro h
  obtain ⟨hle, hcut⟩ := toNat_div_of_codeBits_isPrefix (codesOf_lt hwf hlmax hassign ha)
    (codesOf_lt hwf hlmax hassign hb) h
  rcases assignedBefore_total len hne with hab | hba
  · have hless := codesOf_div_lt hwf hlmax hassign ha hb hab
    have hsame : lengthOf len a = lengthOf len b := hle.antisymm (lengthOf_le_of_assignedBefore hab)
    rw [hsame, Nat.sub_self, pow_zero, Nat.div_one] at hless hcut
    exact hless.ne' hcut
  · exact (codesOf_div_lt hwf hlmax hassign hb ha hba).ne hcut

end

end Sys2Proof.Machine

namespace Sys2Proof.Proofs

open Sys2Proof Sys2Proof.Machine Sys2Proof.Statements

/-- Settles O20: assignment gives every symbol its code or names the first that cannot be given one
(`canonicalCodes_cases`). -/
theorem codeAssignExactly : Obligations.CodeAssignExactly := by
  refine ⟨Instr.plainWord_of_format_none (i := .buildCodes) rfl, fun s w q hc hs hwf hlmax =>
    ⟨fun hall => ?_, fun sym hlt hne hno hfirst => ?_⟩⟩
  · have hassign : ∀ sym ∈ codedSymbols s.len, assignable s.len sym := fun sym hsym =>
      hall sym (mem_codedSymbols.1 hsym).1 (mem_codedSymbols.1 hsym).2
    exact ⟨_, execBuildCodes_of_ok hs (canonicalCodes_ok_of_assignable hwf hlmax hassign),
      fun sym hlt hne => ⟨codesOf_mul_share hwf hlmax hassign (mem_codedSymbols.2 ⟨hlt, hne⟩),
        codesOf_lt hwf hlmax hassign (mem_codedSymbols.2 ⟨hlt, hne⟩)⟩,
      fun _ _ => codesOf_get_of_uncoded hwf,
      State.retire_of_cons (s := { s.sortLengths.measurePayload with code := codesOf s.len, codesValid := true }) hc⟩
  · have herr := canonicalCodes_error_of_first hwf hlmax (mem_codedSymbols.2 ⟨hlt, hne⟩) hno fun x hx => by
      obtain ⟨hcoded, hbefore⟩ := mem_symbolsBefore.1 hx
      exact hfirst x (mem_codedSymbols.1 hcoded).1 (mem_codedSymbols.1 hcoded).2 (assignedBefore_iff.1 hbefore)
    exact ⟨_, execBuildCodes_of_error hs herr,
      State.raiseError_of_cons (s := { s.sortLengths with code := .unspecified 65537 64 s.draws, draws := s.draws + 1 })
        hc .codeAssign (symbolArg sym)⟩

/-- Settles O21: the shares of two codes lie apart, in the order of assignment (`codesOf_div_lt`). -/
theorem codesPrefixFree : Obligations.CodesPrefixFree := by
  intro s t hs hwf hlmax h hvalid a ha b hb hab hneA hneB
  obtain ⟨codes, hok, rfl⟩ := execBuildCodes_success hs h hvalid
  obtain ⟨rfl, hassign⟩ := canonicalCodes_ok hwf hlmax hok
  have hcodedA : a ∈ codedSymbols s.len := mem_codedSymbols.2 ⟨ha, hneA⟩
  have hcodedB : b ∈ codedSymbols s.len := mem_codedSymbols.2 ⟨hb, hneB⟩
  have hless := codesOf_div_lt hwf hlmax hassign hcodedA hcodedB
  refine ⟨codesOf_not_isPrefix hwf hlmax hassign hcodedA hcodedB hab, fun hlen hlt => ?_, fun hlt => hless (.inl hlt)⟩
  have hsame : lengthOf s.len a = lengthOf s.len b := congrArg BitVec.toNat hlen
  have hcut := hless (.inr ⟨hsame, hlt⟩)
  rwa [hsame, Nat.sub_self, pow_zero, Nat.div_one] at hcut

/-- Settles O23: the whole code space and half of it are multiples of every code's share. -/
theorem fullCodeBuilds : Obligations.FullCodeBuilds := by
  intro s _ _ _ hs hwf hlmax hfull
  have hkraft : kraft s.len = 2 ^ 64 ∨ kraft s.len = 2 ^ 63 := hfull.imp_right fun ⟨_, hsym, hone, hzero⟩ =>
    kraft_of_lone hsym hone hzero
  have hassign : ∀ sym ∈ codedSymbols s.len, assignable s.len sym := fun sym hsym => by
    have hpos : lengthOf s.len sym ≠ 0 := fun h0 => (mem_codedSymbols.1 hsym).2 (BitVec.eq_of_toNat_eq h0)
    have hhalf : 2 ^ (64 - lengthOf s.len sym) ∣ 2 ^ 63 := Nat.pow_dvd_pow 2 (by omega)
    rcases hkraft with h | h
    · exact assignable_of_kraft hsym h.le (h ▸ hhalf.trans (Nat.pow_dvd_pow 2 (by decide)))
    · exact assignable_of_kraft hsym (h.trans_le (by decide)) (h ▸ hhalf)
  exact ⟨_, execBuildCodes_of_ok hs (canonicalCodes_ok_of_assignable hwf hlmax hassign), rfl, rfl⟩

end Sys2Proof.Proofs
end

section
/-! How emitted bits are packed into bytes, and the encoder commands ENC_START, ENC_SAMPLE and ENC_FINISH (O25 to O28). -/

namespace Sys2Proof.Machine

open Sys2Proof.Statements

/-! ### The bits of the accumulator (R34, R64) -/

/-- The first emitted bit of a byte is bit 7 (R64). -/
theorem byteBits_eq_map (b : Byte) : byteBits b = (List.range 8).map fun i => b.getLsbD (7 - i) := rfl

theorem byteBits_take (b : Byte) {n : Nat} (h : n ≤ 8) :
    (byteBits b).take n = (List.range n).map fun i => b.getLsbD (7 - i) := by
  rw [byteBits_eq_map, ← List.map_take, List.take_range, Nat.min_eq_left h]

/-- The next pending bit is written at `7 - ENC_NACC`, and no other bit changes (R120). -/
theorem withPendingBit_getLsbD (acc : Byte) (nacc : BitVec 3) (b : Bool) {j : Nat} (hj : j < 8) :
    (withPendingBit acc nacc b).getLsbD j = if nacc.toNat + j = 7 then b else acc.getLsbD j := by
  have hmask : ((0x80 : Byte) >>> nacc.toNat).getLsbD j = decide (nacc.toNat + j = 7) := by
    rw [BitVec.getLsbD_ushiftRight, show (0x80 : Byte) = BitVec.twoPow 8 7 from rfl, BitVec.getLsbD_twoPow]
    simp [eq_comm]
  have hbits : (withPendingBit acc nacc b).getLsbD j =
      if b then acc.getLsbD j || decide (nacc.toNat + j = 7) else acc.getLsbD j && !decide (nacc.toNat + j = 7) := by
    unfold withPendingBit
    split
    · rw [BitVec.getLsbD_or, hmask]
    · rw [BitVec.getLsbD_and, BitVec.getLsbD_not, hmask, decide_eq_true hj, Bool.true_and]
  rw [hbits]
  by_cases h7 : nacc.toNat + j = 7 <;> simp [h7]

/-- With the next bit written, the pending bits are the old ones and then that bit (R120). -/
theorem byteBits_take_withPendingBit (acc : Byte) (nacc : BitVec 3) (b : Bool) :
    (byteBits (withPendingBit acc nacc b)).take (nacc.toNat + 1) = (byteBits acc).take nacc.toNat ++ [b] := by
  have hlt : nacc.toNat < 8 := nacc.isLt
  rw [byteBits_take _ (by omega), byteBits_take _ hlt.le, List.range_succ, List.map_append]
  congr 1
  · refine List.map_congr_left fun i hi => ?_
    have hi := List.mem_range.1 hi
    rw [withPendingBit_getLsbD _ _ _ (by omega), if_neg (by omega)]
  · rw [List.map_singleton, withPendingBit_getLsbD _ _ _ (by omega), if_pos (by omega)]

/-- A justified accumulator is its pending bits, padded with 0 to a byte (R34, R123). -/
theorem State.byteBits_encAcc {s : State} (hs : s.pendingSound) :
    byteBits s.encAcc = s.pendingBits ++ List.replicate (8 - s.encNacc.toNat) false := by
  have hlt : s.encNacc.toNat < 8 := s.encNacc.isLt
  refine (List.take_append_drop s.encNacc.toNat (byteBits s.encAcc)).symm.trans (congrArg _ ?_)
  refine List.eq_replicate_iff.2 ⟨List.length_drop, fun b hb => ?_⟩
  obtain ⟨i, hi, rfl⟩ := List.mem_drop_iff_getElem.1 hb
  have hi : i + s.encNacc.toNat < 8 := hi
  simp only [byteBits_eq_map, List.getElem_map, List.getElem_range]
  exact hs _ (by omega)

theorem State.pendingBits_of_empty {s : State} (h : s.encNacc = 0) : s.pendingBits = [] := by
  rw [State.pendingBits, h]
  rfl

/-! ### Emission (R120) -/

theorem emitted_nil (s : State) : emitted s s [] [] := by simp [emitted]

theorem emitted_append {s t u : State} {bytes bytes' : List Byte} {bits bits' : List Bool} (h : emitted s t bytes bits)
    (h' : emitted t u bytes' bits') : emitted s u (bytes ++ bytes') (bits ++ bits') := by
  obtain ⟨hout, hbits, hn, hm, hs⟩ := h
  obtain ⟨hout', hbits', hn', hm', hs'⟩ := h'
  refine ⟨?_, ?_, ?_, ?_, hs' ∘ hs⟩
  · rw [hout', hout, List.map_append, List.append_assoc]
  · rw [List.flatMap_append, List.append_assoc, hbits', ← List.append_assoc, hbits, List.append_assoc]
  · rw [hn', hn, List.length_append, BitVec.ofNat_add, BitVec.add_assoc]
  · rw [hm', hm, List.length_append, BitVec.ofNat_add, BitVec.add_assoc]

theorem State.emitBit_of_full {s : State} (b : Bool) (h : s.encNacc = 7) :
    s.emitBit b = { s with encAcc := withPendingBit s.encAcc s.encNacc b, encBits := s.encBits + 1 }.pushByte := if_pos h

theorem State.emitBit_of_room {s : State} (b : Bool) (h : s.encNacc ≠ 7) :
    s.emitBit b =
      { s with
        encAcc := withPendingBit s.encAcc s.encNacc b, encBits := s.encBits + 1, encNacc := s.encNacc + 1 } := if_neg h

/-- The eighth bit of a byte completes it; every other one stays pending (R120). -/
theorem State.emitBit_emitted (s : State) (b : Bool) : ∃ bytes, emitted s (s.emitBit b) bytes [b] := by
  have hpack := byteBits_take_withPendingBit s.encAcc s.encNacc b
  by_cases hfull : s.encNacc = 7
  · have hstep := State.emitBit_of_full b hfull
    refine ⟨[withPendingBit s.encAcc s.encNacc b], ?_, ?_, s.emitBit_encBits b, ?_, State.emitBit_pendingSound b⟩
    · rw [hstep]; rfl
    · rw [State.pendingBits, State.pendingBits, ← hpack, hstep, hfull]; rfl
    · rw [hstep]; rfl
  · have hstep := State.emitBit_of_room b hfull
    have hnext : (s.encNacc + 1).toNat = s.encNacc.toNat + 1 := by bv_omega
    refine ⟨[], ?_, ?_, s.emitBit_encBits b, ?_, State.emitBit_pendingSound b⟩
    · rw [hstep]; exact (List.append_nil _).symm
    · rw [State.pendingBits, State.pendingBits, ← hpack, ← hnext, hstep]; rfl
    · rw [hstep]; exact (BitVec.add_zero _).symm

theorem State.emitBits_emitted (s : State) (bits : List Bool) : ∃ bytes, emitted s (s.emitBits bits) bytes bits := by
  induction bits generalizing s with
  | nil => exact ⟨[], emitted_nil s⟩
  | cons b rest ih =>
    obtain ⟨first, hfirst⟩ := s.emitBit_emitted b
    obtain ⟨bytes, hbytes⟩ := ih (s.emitBit b)
    exact ⟨first ++ bytes, emitted_append hfirst hbytes⟩

/-! ### The end of a payload (R123) -/

/-- Byte rounding pushes the pending bits, if any, padded with 0 to a byte (R123). -/
theorem State.padPayload_pads {s : State} (hs : s.pendingSound) :
    ∃ (bytes : List Byte) (pad : Nat), pad < 8
      ∧ bytes.flatMap byteBits = s.pendingBits ++ List.replicate pad false
      ∧ s.padPayload = { s with
          outq := s.outq ++ bytes.map byteWord, encBytes := s.encBytes + BitVec.ofNat 64 bytes.length
          encAcc := 0, encNacc := 0 } := by
  unfold State.padPayload
  split
  case isTrue hempty =>
    have hacc : s.encAcc = 0 := BitVec.eq_of_getLsbD_eq fun j hj =>
      (hs j (by rw [hempty]; exact Nat.le_of_lt_succ hj)).trans BitVec.getLsbD_zero.symm
    refine ⟨[], 0, by decide, by simp [State.pendingBits_of_empty hempty], ?_⟩
    rw [← hacc, ← hempty]
    simp
  case isFalse hpending =>
    have hpos : s.encNacc.toNat ≠ 0 := fun h => hpending (BitVec.eq_of_toNat_eq h)
    refine ⟨[s.encAcc], 8 - s.encNacc.toNat, by omega, ?_, rfl⟩
    rw [List.flatMap_singleton, State.byteBits_encAcc hs]

/-- Emitting a code and closing the payload pushes the pending bits, the code and fewer than eight 0 bits, and END. -/
theorem State.finish_packs {s : State} (hs : s.pendingSound) (c : BitVec 64) (l : BitVec 7) :
    ∃ (bytes : List Byte) (pad : Nat), pad < 8
      ∧ bytes.flatMap byteBits = s.pendingBits ++ codeBits c l.toNat ++ List.replicate pad false
      ∧ (s.emit c l).padPayload.closePayload = { s with
          encActive := false, encAcc := 0, encNacc := 0, encBits := s.encBits + BitVec.ofNat 64 l.toNat
          encBytes := s.encBytes + BitVec.ofNat 64 bytes.length
          outq := s.outq ++ bytes.map byteWord ++ [endEncWord], pEncDone := true } := by
  obtain ⟨bytes, hout, hbits, hn, hm, hsound⟩ := s.emitBits_emitted (codeBits c l.toNat)
  obtain ⟨last, pad, hpad, hlast, hround⟩ := State.padPayload_pads (hsound hs)
  refine ⟨bytes ++ last, pad, hpad, ?_, ?_⟩
  · rw [List.flatMap_append, hlast, ← List.append_assoc, hbits]
  · rw [codeBits_length] at hn
    rw [State.emit, hround, hout, hm, State.emitBits_frame, hn, List.map_append, List.length_append, BitVec.ofNat_add,
      ← List.append_assoc, ← BitVec.add_assoc]
    rfl

/-! ### The outcomes of the encoder commands (R121, R122, R123) -/

/-- The encoder's error entry with the head word named (R122, R123). -/
theorem State.encFail_of_cons {s : State} {w : Word} {q : List Word} (h : s.cmdq = w :: q) (k : ErrKind) (arg : Word) :
    s.encFail k arg = failed { s with encActive := false } k.code w arg :=
  State.raiseError_of_cons (s := { s with encActive := false }) h k arg

section

variable {s : State} {v : BitVec 25}

theorem State.encReady_of_closed (h : s.codesValid = false ∨ s.encActive = false) : s.encReady = false :=
  Bool.and_eq_false_iff.2 h

theorem State.encReady_of_open (hs : s.codesValid = true) (ha : s.encActive = true) : s.encReady = true :=
  Bool.and_eq_true_iff.2 ⟨hs, ha⟩

theorem execEncStart_of_invalid (hs : s.codesValid = false) : execEncStart s = .next (s.raiseError .sequence 0) := by
  simp [execEncStart, State.codesReady, hs]

theorem execEncStart_of_valid (hs : s.codesValid = true) : execEncStart s = .next s.startPayload.retire := by
  simp [execEncStart, State.codesReady, hs]

theorem execEncSample_of_notReady (m : Bool) (hr : s.encReady = false) :
    execEncSample m v s = .next (s.encFail .sequence 0) := by
  simp [execEncSample, hr]

theorem execEncSample_masked (hr : s.encReady = true) : execEncSample false v s = .next s.retire := by
  simp [execEncSample, hr, maskedOut]

theorem execEncSample_of_tooLarge (hr : s.encReady = true) (hv : 65535 < v.toNat) :
    execEncSample true v s = .next (s.encFail .invalidSymbol (zext32 v)) := by
  simp [execEncSample, hr, maskedOut, sampleTooLarge, hv]

theorem execEncSample_of_uncoded (hr : s.encReady = true) (hv : v.toNat ≤ 65535) (hlen : s.len.get v.toNat = 0) :
    execEncSample true v s = .next (s.encFail .uncodedSymbol (zext32 v)) := by
  simp [execEncSample, hr, maskedOut, sampleTooLarge, hv.not_gt, hlen]

theorem execEncSample_of_coded (hr : s.encReady = true) (hv : v.toNat ≤ 65535) (hlen : s.len.get v.toNat ≠ 0) :
    execEncSample true v s = .next (s.emit (s.code.get v.toNat) (s.len.get v.toNat)).retire := by
  simp [execEncSample, hr, maskedOut, sampleTooLarge, hv.not_gt, show s.len.get v.toNat ≠ 0#7 from hlen]

theorem execEncFinish_of_notReady (hr : s.encReady = false) : execEncFinish s = .next (s.encFail .sequence 0) := by
  simp [execEncFinish, hr]

theorem execEncFinish_of_uncoded (hr : s.encReady = true) (hlen : s.len.get 65536 = 0) :
    execEncFinish s = .next (s.encFail .uncodedSymbol 65536) := by
  simp [execEncFinish, hr, hlen, symbolArg]

theorem execEncFinish_of_coded (hr : s.encReady = true) (hlen : s.len.get 65536 ≠ 0) :
    execEncFinish s = .next (s.emit (s.code.get 65536) (s.len.get 65536)).padPayload.closePayload.retire := by
  simp [execEncFinish, hr, show s.len.get 65536 ≠ 0#7 from hlen]

end

/-! ### A payload as a whole (R124) -/

theorem runs_cons {i : Instr} {is : List Instr} {s t : State} (h : exec i s = .next t) : runs (i :: is) s = runs is t := by
  rw [runs, h]

theorem runs_append {is js : List Instr} {s t : State} (h : runs is s = .next t) : runs (is ++ js) s = runs js t := by
  induction is generalizing s with
  | nil => cases h; rfl
  | cons i rest ih =>
    rw [runs] at h
    split at h
    next u hexec => exact (runs_cons hexec).trans (ih h)
    next hstop => exact absurd h (hstop t)

/-- What the encoder commands of a payload read, and HALT: a sample with a code writes none of it (R122). -/
def State.payloadContext (s : State) := (s.codesValid, s.encActive, s.len, s.code, s.halt)

theorem State.payloadContext_eq_iff {s t : State} :
    t.payloadContext = s.payloadContext ↔
      t.codesValid = s.codesValid ∧ t.encActive = s.encActive ∧ t.len = s.len ∧ t.code = s.code ∧ t.halt = s.halt := by
  simp only [State.payloadContext, Prod.mk.injEq]

theorem State.emit_payloadContext (s : State) (c : BitVec 64) (l : BitVec 7) :
    (s.emit c l).payloadContext = s.payloadContext := by
  rw [State.emit, State.emitBits_frame]
  rfl

/-- Samples with codes, in an open payload, emit their codes one after the other. -/
theorem runs_encSamples {s : State} (samples : List (BitVec 25)) (hs : s.codesValid = true) (ha : s.encActive = true)
    (hcoded : ∀ v ∈ samples, v.toNat < 65536 ∧ s.len.get v.toNat ≠ 0) :
    ∃ t bytes, runs (samples.map (.encSample true)) s = .next t ∧ t.payloadContext = s.payloadContext
      ∧ emitted s t bytes (samples.flatMap fun v => codeBits (s.code.get v.toNat) (s.len.get v.toNat).toNat) := by
  induction samples generalizing s with
  | nil => exact ⟨s, [], rfl, rfl, emitted_nil s⟩
  | cons v rest ih =>
    obtain ⟨⟨hv, hlen⟩, hrest⟩ := List.forall_mem_cons.1 hcoded
    have hexec := execEncSample_of_coded (State.encReady_of_open hs ha) (Nat.le_of_lt_succ hv) hlen
    have hcontext := s.emit_payloadContext (s.code.get v.toNat) (s.len.get v.toNat)
    obtain ⟨first, hfirst⟩ := s.emitBits_emitted (codeBits (s.code.get v.toNat) (s.len.get v.toNat).toNat)
    set u := s.emit (s.code.get v.toNat) (s.len.get v.toNat)
    obtain ⟨huvalid, huactive, hulen, hucode, -⟩ := State.payloadContext_eq_iff.1 hcontext
    obtain ⟨t, bytes, hruns, ht, hemit⟩ := ih (s := u.retire) (huvalid.trans hs) (huactive.trans ha)
      (by rwa [State.retire_len, hulen])
    rw [State.retire_len, State.retire_code, hulen, hucode] at hemit
    exact ⟨t, first ++ bytes, (runs_cons (i := .encSample true v) hexec).trans hruns, ht.trans hcontext,
      emitted_append (t := u.retire) hfirst hemit⟩

end Sys2Proof.Machine

namespace Sys2Proof.Proofs

open Sys2Proof Sys2Proof.Machine Sys2Proof.Statements

/-- Settles O25: ENC_START has one word, and with valid codes it starts the payload and retires. -/
theorem encStartRule : Obligations.EncStartRule :=
  ⟨Instr.plainWord_of_format_none (i := .encStart) rfl, fun s _ _ hc =>
    ⟨fun hs => (execEncStart_of_invalid hs).trans (congrArg _ (State.raiseError_of_cons hc .sequence 0)),
      fun hs => (execEncStart_of_valid hs).trans (congrArg _ (State.retire_of_cons (s := s.startPayload) hc))⟩⟩

/-- Settles O26: its words are the encodings of ENC_SAMPLE, and each clause is one outcome of `execEncSample`; the emission
is that of `State.emitBits_emitted`. -/
theorem encSampleRule : Obligations.EncSampleRule := by
  refine ⟨fun m v => ?_, fun s w q v hc => ⟨fun hclosed m => ?_, fun hs ha => ?_⟩⟩
  · exact (congrArg decode (encodeSample_eq_or 0x08 m v).symm).trans (decode_encode (.encSample m v))
  · exact (execEncSample_of_notReady m (State.encReady_of_closed hclosed)).trans
      (congrArg _ (State.encFail_of_cons hc .sequence 0))
  have hr := State.encReady_of_open hs ha
  refine ⟨?_, fun hv => ?_, fun hv hlen => ?_, fun hv hlen => ?_⟩
  · exact (execEncSample_masked hr).trans (congrArg _ (State.retire_of_cons hc))
  · exact (execEncSample_of_tooLarge hr hv).trans (congrArg _ (State.encFail_of_cons hc .invalidSymbol _))
  · exact (execEncSample_of_uncoded hr hv hlen).trans (congrArg _ (State.encFail_of_cons hc .uncodedSymbol _))
  · obtain ⟨bytes, hemit⟩ := s.emitBits_emitted (codeBits (s.code.get v.toNat) (s.len.get v.toNat).toNat)
    have hframe := s.emitBits_frame (codeBits (s.code.get v.toNat) (s.len.get v.toNat).toNat)
    refine ⟨_, bytes, execEncSample_of_coded hr hv hlen, hemit, ?_⟩
    exact (State.retire_of_cons ((congrArg State.cmdq hframe).trans hc)).trans (congrArg (retired · q) hframe)

/-- Settles O27: ENC_FINISH has one word, and each clause is one outcome of `execEncFinish`; what it pushes is said by
`State.finish_packs`. -/
theorem encFinishRule : Obligations.EncFinishRule := by
  refine ⟨Instr.plainWord_of_format_none (i := .encFinish) rfl, fun s w q hc =>
    ⟨fun hclosed => ?_, fun hs ha hlen => ?_, fun hs ha hlen hsound => ?_⟩⟩
  · exact (execEncFinish_of_notReady (State.encReady_of_closed hclosed)).trans
      (congrArg _ (State.encFail_of_cons hc .sequence 0))
  · exact (execEncFinish_of_uncoded (State.encReady_of_open hs ha) hlen).trans
      (congrArg _ (State.encFail_of_cons hc .uncodedSymbol _))
  · obtain ⟨bytes, pad, hpad, hbits, hclose⟩ := State.finish_packs hsound (s.code.get 65536) (s.len.get 65536)
    have hexec := execEncFinish_of_coded (State.encReady_of_open hs ha) hlen
    rw [hclose] at hexec
    exact ⟨_, bytes, pad, hexec, hpad, rfl, hbits, rfl, rfl, State.retire_of_cons hc⟩

/-- Settles O28: the samples emit their codes from an empty accumulator (`runs_encSamples`), and ENC_FINISH packs what is
still pending (`State.finish_packs`). -/
theorem payloadIsPacked : Obligations.PayloadIsPacked := by
  intro s samples hs hcoded heos
  obtain ⟨t, bytes, hruns, hcontext, hout, hbits, hn, hm, hsound⟩ :=
    runs_encSamples (s := s.startPayload.retire) samples hs rfl hcoded
  obtain ⟨hvalid, hactive, hlen, hcode, hhalt⟩ := State.payloadContext_eq_iff.1 hcontext
  obtain ⟨last, pad, hpad, hlast, hclose⟩ :=
    State.finish_packs (hsound (State.pendingSound_of_empty rfl)) (s.code.get 65536) (s.len.get 65536)
  have hstart := execEncStart_of_valid hs
  have hfinish := execEncFinish_of_coded (State.encReady_of_open (hvalid.trans hs) hactive) (hlen ▸ heos)
  rw [show t.len = s.len from hlen, show t.code = s.code from hcode, hclose] at hfinish
  refine ⟨_, bytes ++ last, pad, (runs_append ((runs_cons (i := .encStart) hstart).trans hruns)).trans
    (runs_cons (i := .encFinish) hfinish), hpad, ?_, ?_, ?_, ?_, rfl, hhalt⟩
  · show t.outq ++ last.map byteWord ++ [endEncWord] = _
    rw [hout, List.map_append, ← List.append_assoc]
    rfl
  · rw [List.flatMap_append, hlast, ← List.append_assoc, ← List.append_assoc, hbits, State.pendingBits_of_empty rfl]
    rfl
  · show t.encBits + _ = _
    rw [hn, List.length_flatMap, BitVec.ofNat_add]
    simp only [codeBits_length]
    exact congrArg (· + _) (BitVec.zero_add _)
  · show t.encBytes + _ = _
    rw [hm, List.length_append, BitVec.ofNat_add]
    exact congrArg (· + _) (BitVec.zero_add _)

end Sys2Proof.Proofs
end

section
/-! One payload bit and the codes of BUILD_CODES: the decoder finds the symbol whose code the bit completes (O30). -/

namespace Sys2Proof.Machine

open Sys2Proof.Statements

/-! ### Valid code tables (R113, R114, R118) -/

/-- The code tables are those of LEN, as BUILD_CODES leaves them, and every code has been assigned. -/
structure State.CanonicalTables (s : State) : Prop where
  wf : s.len.wf = true
  lengths : ∀ sym < 65537, (s.len.get sym).toNat ≤ 64
  assigned : ∀ sym ∈ codedSymbols s.len, assignable s.len sym
  code : s.code = codesOf s.len
  numCoded : s.numCoded.toNat = (lengthsSorted s.len).length
  sorted : ∀ (i : Nat) (hi : i < (lengthsSorted s.len).length), (s.sorted.get i).toNat = (lengthsSorted s.len)[i]
  maxLen : s.maxLen = maxLength s.len (lengthsSorted s.len)
  first : s.first = firstIndex s.len (lengthsSorted s.len)

theorem State.canonicalTables {s : State} (hvalid : s.codesValid = true) (hlens : s.lengthsSound)
    (hcodes : s.codesSound) (hwf : s.len.wf = true) : s.CanonicalTables := by
  obtain ⟨hlen, -, hlenValid⟩ := hlens
  have hlmax := fun sym (_ : sym < 65537) => (hlen (hlenValid hvalid)).2 sym
  obtain ⟨hok, hnum, hsorted, hmax, hfirst⟩ := hcodes hvalid
  obtain ⟨hcode, hassigned⟩ := canonicalCodes_ok hwf hlmax hok
  refine ⟨hwf, hlmax, hassigned, hcode, hnum, fun i hi => ?_, hmax, hfirst⟩
  have h := hsorted i (hnum ▸ hi)
  rw [List.getElem?_eq_getElem hi] at h
  exact (Option.some.inj h).symm

namespace State.CanonicalTables

variable {s : State} (h : s.CanonicalTables)
include h

theorem congr {t : State} (hlen : t.len = s.len) (hcodes : t.codeTables = s.codeTables) : t.CanonicalTables := by
  simp only [State.codeTables, Prod.mk.injEq] at hcodes
  obtain ⟨hcode, hsorted, hfirst, hnum, hmax, -⟩ := hcodes
  obtain ⟨hwf, hlengths, hassigned, hcode', hnum', hsorted', hmax', hfirst'⟩ := h
  constructor <;> simpa only [hlen, hcode, hsorted, hfirst, hnum, hmax]

/-- A payload bit writes no table. -/
theorem appendBit (b : Bool) : (s.appendBit b).CanonicalTables := h.congr rfl rfl

theorem length_le_maxLen {sym : Nat} (hsym : sym ∈ codedSymbols s.len) : lengthOf s.len sym ≤ s.maxLen.toNat := by
  rw [h.maxLen]
  exact lengthOf_le_maxLength ((mem_lengthsSorted_iff_coded h.wf).2 (mem_codedSymbols.1 hsym))

theorem maxLen_le : s.maxLen.toNat ≤ 64 := by
  obtain ⟨sym, hsym, hmax⟩ := exists_get_eq_maxLength h.wf
  rw [h.maxLen, ← hmax]
  exact h.lengths sym hsym

theorem code_lt {sym : Nat} (hsym : sym ∈ codedSymbols s.len) : (s.code.get sym).toNat < 2 ^ lengthOf s.len sym := by
  rw [h.code]
  exact codesOf_lt h.wf h.lengths h.assigned hsym

section

variable {a b : Nat} (ha : a ∈ codedSymbols s.len) (hb : b ∈ codedSymbols s.len)
include ha hb

theorem code_injective (hlen : lengthOf s.len a = lengthOf s.len b) (hcode : s.code.get a = s.code.get b) : a = b := by
  refine of_not_not fun hne => codesOf_not_isPrefix h.wf h.lengths h.assigned ha hb hne ?_
  rw [← h.code, hlen, hcode]

/-- No code begins a longer one. -/
theorem code_div_ne (hlen : lengthOf s.len b < lengthOf s.len a) :
    (s.code.get a).toNat / 2 ^ (lengthOf s.len a - lengthOf s.len b) ≠ (s.code.get b).toNat := by
  rw [h.code]
  exact (codesOf_div_lt h.wf h.lengths h.assigned ha hb (.inl hlen)).ne

end

end State.CanonicalTables

/-! ### The scan (R126) -/

/-- What the scan finds is an entry of the range it goes through, with the running code for its code. -/
theorem State.scanEntries_some {s : State} {n i : Nat} {x : BitVec 17} (h : s.scanEntries n i = some x) :
    ∃ j, i ≤ j ∧ j < i + n ∧ s.sorted.get j = x
      ∧ s.len.get x.toNat = s.decRl ∧ s.code.get x.toNat = s.decRc := by
  induction n generalizing i with
  | zero => cases h
  | succ n ih =>
    rw [State.scanEntries] at h
    split at h
    next hlen =>
      split at h
      next hcode =>
        obtain rfl := Option.some.inj h
        exact ⟨i, le_rfl, by omega, rfl, hlen, hcode⟩
      next =>
        obtain ⟨j, hij, hj, hx⟩ := ih h
        exact ⟨j, by omega, by omega, hx⟩
    next => cases h

/-- The scan does not stop before an entry with the running code, where all entries up to it have the running length. -/
theorem State.scanEntries_isSome {s : State} {n i j : Nat} (hij : i ≤ j) (hj : j < i + n)
    (hlen : ∀ k, i ≤ k → k ≤ j → s.len.get (s.sorted.get k).toNat = s.decRl)
    (hcode : s.code.get (s.sorted.get j).toNat = s.decRc) : (s.scanEntries n i).isSome := by
  induction n generalizing i with
  | zero => omega
  | succ n ih =>
    rw [State.scanEntries, if_pos (hlen i le_rfl hij)]
    split
    next => rfl
    next hne =>
      have hlt : i < j := hij.lt_of_ne fun heq => hne (heq ▸ hcode)
      exact ih hlt (by omega) fun k hk => hlen k (by omega)

/-! ### The symbol with the running code (R126) -/

/-- Where the running length has a first index, the scan starts there. -/
theorem State.matchedSymbol_of_first {s : State} {i : Nat} (hi : i < 2 ^ 17)
    (hfirst : s.first.get s.decRl.toNat = BitVec.ofNat 32 i) :
    s.matchedSymbol = s.scanEntries (s.numCoded.toNat - i) i := by
  have hindex : (BitVec.ofNat 32 i).toNat = i := by
    rw [BitVec.toNat_ofNat]
    exact Nat.mod_eq_of_lt (by omega)
  have hvalid : BitVec.ofNat 32 i ≠ Config.invalid := fun heq => by
    have hmax : i = 0xFFFFFFFF := hindex.symm.trans (congrArg BitVec.toNat heq)
    omega
  simp only [State.matchedSymbol, hfirst, if_neg hvalid, hindex]

namespace State.CanonicalTables

variable {s : State} (h : s.CanonicalTables)
include h

theorem mem_codedSymbols_of_index {j : Nat} (hj : j < s.numCoded.toNat) :
    (s.sorted.get j).toNat ∈ codedSymbols s.len := by
  have hj : j < (lengthsSorted s.len).length := h.numCoded ▸ hj
  rw [h.sorted j hj, mem_codedSymbols, ← mem_lengthsSorted_iff_coded h.wf]
  exact List.getElem_mem hj

/-- FIRST leads to every coded symbol: from the index of its length on, SORTED has only symbols of that length up to
it. -/
theorem exists_first {sym : Nat} (hsym : sym ∈ codedSymbols s.len) :
    ∃ i j, s.first.get (lengthOf s.len sym) = BitVec.ofNat 32 i ∧ i ≤ j ∧ j < s.numCoded.toNat
      ∧ (s.sorted.get j).toNat = sym
      ∧ ∀ k, i ≤ k → k ≤ j → lengthOf s.len (s.sorted.get k).toNat = lengthOf s.len sym := by
  have hlmax := h.lengths sym (mem_codedSymbols.1 hsym).1
  have hmem : sym ∈ lengthsSorted s.len := (mem_lengthsSorted_iff_coded h.wf).2 (mem_codedSymbols.1 hsym)
  obtain ⟨j, hj, hjsym⟩ := List.getElem_of_mem hmem
  have hmono : ∀ (k m : Nat) (hkm : k ≤ m) (hm : m < (lengthsSorted s.len).length),
      lengthOf s.len (lengthsSorted s.len)[k] ≤ lengthOf s.len (lengthsSorted s.len)[m] := fun k m hkm hm => by
    rcases hkm.eq_or_lt with rfl | hlt
    · exact le_rfl
    · exact List.pairwise_iff_getElem.1 (lengthsSorted_pairwise_le s.len) k m _ hm hlt
  rw [h.first, h.numCoded]
  rcases firstIndex_cases s.len (lengthsSorted s.len) hlmax with ⟨-, hnone⟩ | ⟨i, hi, hfirst, hilen, hleast⟩
  · exact absurd rfl (hnone sym hmem)
  · have hij : i ≤ j := le_of_not_gt fun hlt => hleast j hlt (congrArg _ hjsym)
    refine ⟨i, j, hfirst, hij, hj, (h.sorted j hj).trans hjsym, fun k hik hkj => ?_⟩
    rw [h.sorted k (hkj.trans_lt hj)]
    exact (hjsym ▸ hmono k j hkj hj).antisymm (hilen.ge.trans (hmono i k hik (hkj.trans_lt hj)))

/-- The decoder matches exactly the coded symbol whose code is the running code (R126). -/
theorem matchedSymbol_eq_some_iff {x : BitVec 17} :
    s.matchedSymbol = some x ↔
      x.toNat ∈ codedSymbols s.len ∧ s.len.get x.toNat = s.decRl ∧ s.code.get x.toNat = s.decRc := by
  constructor
  · intro hm
    simp only [State.matchedSymbol] at hm
    split at hm
    next => cases hm
    next =>
      obtain ⟨j, hij, hj, rfl, hlen, hcode⟩ := State.scanEntries_some hm
      exact ⟨h.mem_codedSymbols_of_index (by omega), hlen, hcode⟩
  · rintro ⟨hcoded, hlen, hcode⟩
    obtain ⟨i, j, hfirst, hij, hj, hjx, hrun⟩ := h.exists_first hcoded
    have hlen' : lengthOf s.len x.toNat = s.decRl.toNat := congrArg BitVec.toNat hlen
    have hsmall : s.numCoded.toNat < 2 ^ 17 := s.numCoded.isLt
    have hsome : (s.scanEntries (s.numCoded.toNat - i) i).isSome :=
      State.scanEntries_isSome hij (by omega)
        (fun k hik hkj => BitVec.eq_of_toNat_eq ((hrun k hik hkj).trans hlen')) (hjx ▸ hcode)
    obtain ⟨y, hy⟩ := Option.isSome_iff_exists.1 hsome
    obtain ⟨k, hik, hk, rfl, hylen, hycode⟩ := State.scanEntries_some hy
    have hsame := h.code_injective (h.mem_codedSymbols_of_index (by omega)) hcoded
      (congrArg BitVec.toNat (hylen.trans hlen.symm)) (hycode.trans hcode.symm)
    rw [State.matchedSymbol_of_first (by omega) (hlen' ▸ hfirst), hy, BitVec.eq_of_toNat_eq hsame]

end State.CanonicalTables

/-! ### One payload bit (R126) -/

/-- The bit `b` completes the code of `sym`. -/
def State.completes (s : State) (b : Bool) (sym : Nat) : Prop :=
  sym ∈ codedSymbols s.len ∧ lengthOf s.len sym = s.decRl.toNat + 1
    ∧ (s.code.get sym).toNat = 2 * s.decRc.toNat + b.toNat

theorem State.completes_of_lt {s : State} {b : Bool} {sym : Nat} (hlt : sym < 65537)
    (hlen : (s.len.get sym).toNat = s.decRl.toNat + 1) (hcode : (s.code.get sym).toNat = 2 * s.decRc.toNat + b.toNat) :
    s.completes b sym :=
  ⟨mem_codedSymbols.2 ⟨hlt, fun hzero => by rw [hzero] at hlen; cases hlen⟩, hlen, hcode⟩

/-- The state after `bits` payload bits of which the last completes the code of `sym` (R126). -/
def State.completeCode (s : State) (sym bits : Nat) : State :=
  if sym = 65536 then
    { s with
      decState := .done, decRc := s.code.get sym, decRl := s.len.get sym, decBits := s.decBits + BitVec.ofNat 64 bits
      outq := s.outq ++ [endDecWord], pDecDone := true }
  else
    { s with
      decRc := 0, decRl := 0, decSyms := s.decSyms + 1, decBits := s.decBits + BitVec.ofNat 64 bits
      outq := s.outq ++ [0x80000000#32 ||| BitVec.ofNat 32 sym] }

/-- The output word of a symbol (R89). -/
theorem symWord_ofNat {sym : Nat} (h : sym < 65537) :
    symWord (BitVec.ofNat 17 sym) = 0x80000000#32 ||| BitVec.ofNat 32 sym := by
  refine congrArg (0x80000000#32 ||| ·) (BitVec.eq_of_toNat_eq ?_)
  simp only [BitVec.toNat_setWidth, BitVec.toNat_ofNat]
  omega

/-- The running code with one bit more: nothing is lost of it while walking. -/
theorem State.appendBit_toNat {s : State} (b : Bool) (hrun : s.decState = .run) (hwalk : s.walkSound) :
    (s.appendBit b).decRl.toNat = s.decRl.toNat + 1
      ∧ (s.appendBit b).decRc.toNat = 2 * s.decRc.toNat + b.toNat := by
  obtain ⟨-, hrl, hrc⟩ := hwalk
  have hrl := hrl hrun
  exact ⟨State.appendBit_decRl_toNat b hrl,
    State.appendBit_decRc_toNat b (hrc.trans_le (Nat.pow_le_pow_right two_pos hrl))⟩

theorem State.decBit_of_not_run {s : State} (b : Bool) (hrun : s.decState ≠ .run) : s.decBit b = s := if_neg hrun

namespace State.CanonicalTables

variable {s : State} {b : Bool} (h : s.CanonicalTables) (hrun : s.decState = .run) (hwalk : s.walkSound)
include h hrun hwalk

theorem matchedSymbol_appendBit_iff {x : BitVec 17} :
    (s.appendBit b).matchedSymbol = some x ↔ s.completes b x.toNat := by
  obtain ⟨hrl, hrc⟩ := State.appendBit_toNat b hrun hwalk
  rw [(h.appendBit b).matchedSymbol_eq_some_iff, ← BitVec.toNat_inj, ← BitVec.toNat_inj, hrl, hrc]
  rfl

theorem decBit_of_completes {sym : Nat} (hsym : s.completes b sym) : s.decBit b = s.completeCode sym 1 := by
  have hlt := (mem_codedSymbols.1 hsym.1).1
  have hx : (BitVec.ofNat 17 sym).toNat = sym := by
    rw [BitVec.toNat_ofNat]
    exact Nat.mod_eq_of_lt (by omega)
  have hmatch : (s.appendBit b).matchedSymbol = some (BitVec.ofNat 17 sym) :=
    (h.matchedSymbol_appendBit_iff hrun hwalk).2 (hx.symm ▸ hsym)
  obtain ⟨-, hlen, hcode⟩ := (h.appendBit b).matchedSymbol_eq_some_iff.1 hmatch
  rw [hx] at hlen hcode
  simp only [State.decBit, if_pos hrun, hmatch, hx, State.completeCode]
  refine if_congr Iff.rfl ?_ ?_
  · rw [show s.code.get sym = _ from hcode, show s.len.get sym = _ from hlen]
    rfl
  · rw [← symWord_ofNat hlt]
    rfl

theorem decBit_of_incomplete (hnone : ∀ sym, ¬ s.completes b sym) : s.decBit b = (s.appendBit b).noMatchYet := by
  have hmatch : (s.appendBit b).matchedSymbol = none := Option.eq_none_iff_forall_ne_some.2 fun x hx =>
    hnone _ ((h.matchedSymbol_appendBit_iff hrun hwalk).1 hx)
  simp only [State.decBit, if_pos hrun, hmatch]

end State.CanonicalTables

/-- The longer running code, where no code was completed (R126). -/
theorem State.noMatchYet_appendBit {s : State} (b : Bool) (hrun : s.decState = .run) (hwalk : s.walkSound) :
    (s.appendBit b).noMatchYet =
      { s with
        decRc := BitVec.ofNat 64 (2 * s.decRc.toNat + b.toNat), decRl := s.decRl + 1, decBits := s.decBits + 1
        decState := if s.maxLen.toNat ≤ s.decRl.toNat + 1 then .noMatch else .run } := by
  obtain ⟨hrl, hrc⟩ := State.appendBit_toNat b hrun hwalk
  rw [← hrl, ← hrc, BitVec.ofNat_toNat, BitVec.setWidth_eq, State.noMatchYet]
  split
  next hmax => rw [if_pos (show s.maxLen.toNat ≤ _ from hmax)]; rfl
  next hmax => rw [if_neg (show ¬ s.maxLen.toNat ≤ _ from hmax), ← hrun]; rfl

end Sys2Proof.Machine

namespace Sys2Proof.Proofs

open Sys2Proof Sys2Proof.Machine Sys2Proof.Statements

/-- Settles O30: the scan finds the symbol whose code is the running code, whichever it is
(`State.CanonicalTables.matchedSymbol_eq_some_iff`). -/
theorem decBitFindsCode : Obligations.DecBitFindsCode := by
  refine fun s b => ⟨State.decBit_of_not_run b, fun hrun hvalid hlens hcodes hwf hwalk => ?_⟩
  have h := State.canonicalTables hvalid hlens hcodes hwf
  refine ⟨fun sym hlt hlen hcode => h.decBit_of_completes hrun hwalk (State.completes_of_lt hlt hlen hcode),
    fun hnone => ?_⟩
  refine (h.decBit_of_incomplete hrun hwalk ?_).trans (State.noMatchYet_appendBit b hrun hwalk)
  rintro sym ⟨hcoded, hlen, hcode⟩
  exact hnone sym (mem_codedSymbols.1 hcoded).1 hlen hcode

end Sys2Proof.Proofs
end

section
/-! A walk over whole codes: the decoder undoes the encoder's concatenation of codes (O33). -/

namespace Sys2Proof.Machine

open Sys2Proof.Statements

/-! ### Sequences of payload bits (R126) -/

theorem State.decBitList_append (s : State) (bits more : List Bool) :
    s.decBitList (bits ++ more) = (s.decBitList bits).decBitList more := List.foldl_append

theorem State.decBitList_of_not_run {s : State} (bits : List Bool) (hrun : s.decState ≠ .run) :
    s.decBitList bits = s := by
  induction bits with
  | nil => rfl
  | cons b rest ih => rw [State.decBitList_cons, State.decBit_of_not_run b hrun, ih]

/-- One payload bit more, before a code is completed, is counted and does nothing else. -/
theorem State.completeCode_appendBit (s : State) (b : Bool) (sym bits : Nat) :
    (s.appendBit b).completeCode sym bits = s.completeCode sym (bits + 1) := by
  have hbits : s.decBits + BitVec.ofNat 64 (bits + 1) = s.decBits + 1 + BitVec.ofNat 64 bits := by
    rw [Nat.add_comm, BitVec.ofNat_add, ← BitVec.add_assoc]
    rfl
  rw [State.completeCode, State.completeCode, hbits]
  rfl

/-- The first bits of a code are the ones before it and its next bit. -/
theorem toNat_div_two_pow_eq (c : BitVec 64) (n : Nat) :
    c.toNat / 2 ^ n = 2 * (c.toNat / 2 ^ (n + 1)) + (c.getLsbD n).toNat := by
  rw [BitVec.getLsbD, Nat.toNat_testBit, Nat.pow_succ, ← Nat.div_div_eq_div_mul]
  omega

/-! ### One code (R126, R130) -/

namespace State.CanonicalTables

variable {s : State} (h : s.CanonicalTables)
include h

/-- No code is completed before the last bit of the one that is walked: it would begin that one. -/
theorem not_completes_of_longer {sym n : Nat} (hsym : sym ∈ codedSymbols s.len)
    (hlen : lengthOf s.len sym = s.decRl.toNat + (n + 2))
    (hcode : s.decRc.toNat = (s.code.get sym).toNat / 2 ^ (n + 2)) (x : Nat) :
    ¬ s.completes ((s.code.get sym).getLsbD (n + 1)) x := by
  rintro ⟨hx, hxlen, hxcode⟩
  refine h.code_div_ne hsym hx (by omega) ?_
  rw [hxcode, hcode, ← toNat_div_two_pow_eq, hlen, hxlen]
  congr 2
  omega

/-- A bit of a code that is not its last one only lengthens the running code. -/
theorem decBit_of_longer {sym n : Nat} (hrun : s.decState = .run) (hwalk : s.walkSound)
    (hsym : sym ∈ codedSymbols s.len) (hlen : lengthOf s.len sym = s.decRl.toNat + (n + 2))
    (hcode : s.decRc.toNat = (s.code.get sym).toNat / 2 ^ (n + 2)) :
    s.decBit ((s.code.get sym).getLsbD (n + 1)) = s.appendBit ((s.code.get sym).getLsbD (n + 1)) := by
  have hrl := (State.appendBit_toNat ((s.code.get sym).getLsbD (n + 1)) hrun hwalk).1
  have hmax := h.length_le_maxLen hsym
  refine (h.decBit_of_incomplete hrun hwalk (h.not_completes_of_longer hsym hlen hcode)).trans (if_neg ?_)
  rw [hrl]
  exact not_le.2 (lt_of_lt_of_le (by omega) hmax)

/-- The bits of a code that are still to come complete it. -/
theorem decBitList_codeBits {sym n : Nat} (hrun : s.decState = .run) (hwalk : s.walkSound)
    (hsym : sym ∈ codedSymbols s.len) (hlen : lengthOf s.len sym = s.decRl.toNat + (n + 1))
    (hcode : s.decRc.toNat = (s.code.get sym).toNat / 2 ^ (n + 1)) :
    s.decBitList (codeBits (s.code.get sym) (n + 1)) = s.completeCode sym (n + 1) := by
  induction n generalizing s with
  | zero =>
    refine h.decBit_of_completes hrun hwalk ⟨hsym, hlen, ?_⟩
    rw [hcode, ← toNat_div_two_pow_eq, pow_zero, Nat.div_one]
  | succ n ih =>
    have hbit := h.decBit_of_longer hrun hwalk hsym hlen hcode
    obtain ⟨hrl, hrc⟩ := State.appendBit_toNat ((s.code.get sym).getLsbD (n + 1)) hrun hwalk
    rw [hcode, ← toNat_div_two_pow_eq] at hrc
    have hnext := State.decBit_walkSound ((s.code.get sym).getLsbD (n + 1)) h.maxLen_le hwalk
    rw [hbit] at hnext
    rw [codeBits, State.decBitList_cons, hbit]
    refine (ih (h.appendBit _) hrun hnext hsym ?_ hrc).trans (s.completeCode_appendBit _ sym (n + 1))
    rw [hrl]
    exact hlen.trans (by omega)

/-- From an empty running code, the bits of a code complete it. -/
theorem decBitList_code {sym : Nat} (hrun : s.decState = .run) (hrl : s.decRl = 0) (hrc : s.decRc = 0)
    (hsym : sym ∈ codedSymbols s.len) :
    s.decBitList (codeBits (s.code.get sym) (s.len.get sym).toNat) = s.completeCode sym (s.len.get sym).toNat := by
  have hwalk : s.walkSound := by simp [State.walkSound, hrl, hrc]
  have hlt := h.code_lt hsym
  unfold lengthOf at hlt
  obtain ⟨n, hn⟩ := Nat.exists_eq_add_one_of_ne_zero
    (fun hzero => (mem_codedSymbols.1 hsym).2 (BitVec.eq_of_toNat_eq hzero) : (s.len.get sym).toNat ≠ 0)
  rw [hn] at hlt ⊢
  refine h.decBitList_codeBits hrun hwalk hsym ?_ ?_
  · rw [lengthOf, hn, hrl]
    exact (Nat.zero_add _).symm
  · rw [Nat.div_eq_of_lt hlt, hrc]
    rfl

end State.CanonicalTables

/-! ### Many codes (R130) -/

/-- The state after the walk of the codes of `syms`, from an empty running code (R126). -/
def State.pushSamples (s : State) (syms : List Nat) : State :=
  { s with
    outq := s.outq ++ syms.map (fun x => 0x80000000#32 ||| BitVec.ofNat 32 x)
    decSyms := s.decSyms + BitVec.ofNat 32 syms.length
    decBits := s.decBits + BitVec.ofNat 64 (syms.map fun x => (s.len.get x).toNat).sum }

theorem State.pushSamples_nil (s : State) : s.pushSamples [] = s := by simp [State.pushSamples]

/-- A sample's code and then the codes of the others. -/
theorem State.pushSamples_completeCode {s : State} {x : Nat} (rest : List Nat) (hrl : s.decRl = 0) (hrc : s.decRc = 0)
    (hx : x ≠ 65536) : (s.completeCode x (s.len.get x).toNat).pushSamples rest = s.pushSamples (x :: rest) := by
  rw [State.completeCode, if_neg hx]
  simp only [State.pushSamples, List.map_cons, List.sum_cons, List.length_cons, List.append_assoc, List.singleton_append,
    BitVec.ofNat_add, BitVec.add_assoc, hrl, hrc]
  rw [BitVec.add_comm (BitVec.ofNat 32 rest.length)]
  rfl

/-- The bits of the codes of samples push these samples, and leave an empty running code (R130). -/
theorem State.CanonicalTables.decBitList_samples {s : State} {syms : List Nat} (h : s.CanonicalTables)
    (hrun : s.decState = .run) (hrl : s.decRl = 0) (hrc : s.decRc = 0)
    (hsyms : ∀ x ∈ syms, x < 65536 ∧ s.len.get x ≠ 0) :
    s.decBitList (syms.flatMap fun x => codeBits (s.code.get x) (s.len.get x).toNat) = s.pushSamples syms := by
  induction syms generalizing s with
  | nil => exact s.pushSamples_nil.symm
  | cons x rest ih =>
    obtain ⟨⟨hx, hlen⟩, hrest⟩ := List.forall_mem_cons.1 hsyms
    have hcode := h.decBitList_code hrun hrl hrc (mem_codedSymbols.2 ⟨by omega, hlen⟩)
    rw [List.flatMap_cons, State.decBitList_append, hcode, ← State.pushSamples_completeCode rest hrl hrc hx.ne,
      State.completeCode, if_neg hx.ne]
    exact ih (h.congr rfl rfl) hrun rfl rfl hrest

end Sys2Proof.Machine

namespace Sys2Proof.Proofs

open Sys2Proof Sys2Proof.Machine Sys2Proof.Statements

/-- Settles O33: the samples' codes are walked one after the other (`State.CanonicalTables.decBitList_samples`), EOS's code
ends the walk, and the bits after it are not consumed. -/
theorem payloadDecodes : Obligations.PayloadDecodes := by
  intro s syms pad hvalid hlens hcodes hwf hrun hrl hrc hsyms heos
  have h := State.canonicalTables hvalid hlens hcodes hwf
  have hafter : (s.pushSamples syms).CanonicalTables := h.congr rfl rfl
  have hcode := hafter.decBitList_code hrun hrl hrc (mem_codedSymbols.2 ⟨by decide, heos⟩)
  rw [State.completeCode, if_pos rfl] at hcode
  rw [State.decBitList_append, State.decBitList_append, h.decBitList_samples hrun hrl hrc hsyms]
  refine (congrArg (State.decBitList · pad) hcode).trans ?_
  rw [State.decBitList_of_not_run pad DecState.noConfusion, BitVec.ofNat_add, ← BitVec.add_assoc]
  rfl

end Sys2Proof.Proofs
end

section
/-! The decoder commands DEC_START, DEC_BYTE and DEC_END (O29, O31, O32). -/

namespace Sys2Proof

/-! ### Words of format B (R82, R84) -/

/-- R128 as it is written: `0x2C00_0000 | B` is the word of DEC_BYTE. -/
theorem encode_decByte_eq_or (b : Byte) : encode (.decByte b) = 0x2C000000#32 ||| b.setWidth 32 :=
  (BitVec.setWidth_eq _).symm.trans BitVec.setWidth_append_append_eq_shiftLeft_setWidth_or

end Sys2Proof

namespace Sys2Proof.Machine

open Sys2Proof.Statements

/-! ### The outcomes of the decoder commands (R127, R128, R129) -/

/-- The decoder's error entry with the head word named (R128, R129). -/
theorem State.decFail_of_cons {s : State} {w : Word} {q : List Word} (h : s.cmdq = w :: q) (k : ErrKind) (arg : Word) :
    s.decFail k arg = failed { s with decState := .idle } k.code w arg :=
  State.raiseError_of_cons (s := { s with decState := .idle }) h k arg

theorem State.decBitList_cmdq (s : State) (bits : List Bool) : (s.decBitList bits).cmdq = s.cmdq :=
  (congrArg State.cmdq (s.decBitList_frame bits):)

theorem State.walkOpen_eq_false_iff {s : State} : s.walkOpen = false ↔ s.decState = .idle := bne_eq_false_iff_eq

theorem State.walkOpen_iff {s : State} : s.walkOpen = true ↔ s.decState ≠ .idle := bne_iff_ne

section

variable {s : State}

theorem execDecStart_of_invalid (hs : s.codesValid = false) : execDecStart s = .next (s.raiseError .sequence 0) := by
  simp [execDecStart, State.codesReady, hs]

theorem execDecStart_of_valid (hs : s.codesValid = true) : execDecStart s = .next s.startWalk.retire := by
  simp [execDecStart, State.codesReady, hs]

theorem execDecByte_of_notReady (b : Byte) (hno : s.codesValid = false ∨ s.decState = .idle) :
    execDecByte b s = .next (s.decFail .sequence 0) := by
  have hr : s.decReady = false := Bool.and_eq_false_iff.2 (hno.imp_right State.walkOpen_eq_false_iff.2)
  simp [execDecByte, hr]

theorem execDecByte_of_ready (b : Byte) {w : Word} {q : List Word} (hc : s.cmdq = w :: q) (hs : s.codesValid = true)
    (hwalk : s.decState ≠ .idle) : execDecByte b s = .next (retired (s.decBitList (byteBits b)) q) := by
  have hr : s.decReady = true := Bool.and_eq_true_iff.2 ⟨hs, State.walkOpen_iff.2 hwalk⟩
  rw [← State.retire_of_cons ((s.decBitList_cmdq (byteBits b)).trans hc)]
  simp [execDecByte, hr]

theorem execDecEnd_of_idle (hidle : s.decState = .idle) : execDecEnd s = .next (s.raiseError .sequence 0) := by
  simp [execDecEnd, State.walkOpen_eq_false_iff.2 hidle]

theorem execDecEnd_of_done (hdone : s.decState = .done) :
    execDecEnd s = .next ({ s with decState := .idle } : State).retire := by
  simp [execDecEnd, State.walkOpen, hdone]

theorem execDecEnd_of_unmatched (hwalk : s.decState = .run ∨ s.decState = .noMatch) :
    execDecEnd s = .next (s.decFail .truncated s.decSyms) := by
  rcases hwalk with hstate | hstate <;> simp [execDecEnd, State.walkOpen, hstate]

end

end Sys2Proof.Machine

namespace Sys2Proof.Proofs

open Sys2Proof Sys2Proof.Machine Sys2Proof.Statements

/-- Settles O29: DEC_START has one word, and with valid codes it opens the walk and retires. -/
theorem decStartRule : Obligations.DecStartRule :=
  ⟨Instr.plainWord_of_format_none (i := .decStart) rfl, fun s _ _ hc =>
    ⟨fun hs => (execDecStart_of_invalid hs).trans (congrArg _ (State.raiseError_of_cons hc .sequence 0)),
      fun hs => (execDecStart_of_valid hs).trans (congrArg _ (State.retire_of_cons (s := s.startWalk) hc))⟩⟩

/-- Settles O31: its words are the encodings of DEC_BYTE, a reserved bit makes one illegal, and each clause is one outcome
of `execDecByte`; the walk ignores the bits in DONE and NOMATCH, and writes what `State.decBitList_frame` says. -/
theorem decByteRule : Obligations.DecByteRule := by
  refine ⟨fun b => ?_, fun w hop hbits => ?_, fun s w q b hc =>
    ⟨fun hno => ?_, fun hs hwalk => ?_, fun hs hover => ?_, fun hs hwalk => ?_⟩⟩
  · exact (congrArg decode (encode_decByte_eq_or b).symm).trans (decode_encode (.decByte b))
  · exact decode_of_reservedBits (i := .decByte 0) hop (beq_eq_false_iff_ne.2 hbits)
  · exact (execDecByte_of_notReady b hno).trans (congrArg _ (State.decFail_of_cons hc .sequence 0))
  · refine (execDecByte_of_ready b hc hs hwalk).trans ?_
    simp only [byteBits, State.decBitList_cons, State.decBitList_nil]
  · have hstate : s.decState ≠ .idle ∧ s.decState ≠ .run := by rcases hover with h | h <;> simp [h]
    have hexec := execDecByte_of_ready b hc hs hstate.1
    rwa [State.decBitList_of_not_run _ hstate.2] at hexec
  · refine ⟨_, execDecByte_of_ready b hc hs hwalk, ?_⟩
    generalize byteBits b = bits
    exact congrArg (retired · q) (s.decBitList_frame bits)

/-- Settles O32: DEC_END has one word, and each clause is one outcome of `execDecEnd`. -/
theorem decEndRule : Obligations.DecEndRule :=
  ⟨Instr.plainWord_of_format_none (i := .decEnd) rfl, fun s _ _ hc =>
    ⟨fun hidle => (execDecEnd_of_idle hidle).trans (congrArg _ (State.raiseError_of_cons hc .sequence 0)),
      fun hdone => (execDecEnd_of_done hdone).trans
        (congrArg _ (State.retire_of_cons (s := { s with decState := .idle }) hc)),
      fun hwalk => (execDecEnd_of_unmatched hwalk).trans (congrArg _ (State.decFail_of_cons hc .truncated _))⟩⟩

end Sys2Proof.Proofs
end

section
/-! A write of CTRL (O35). -/

namespace Sys2Proof.Machine

/-- The return zeroes the error registers where HALT is 1 (R139). -/
theorem State.clearError_eq (s : State) :
    s.clearError =
      { s with
        halt := false
        errCode := if s.halt then 0 else s.errCode
        errCmd := if s.halt then 0 else s.errCmd
        errArg := if s.halt then 0 else s.errArg } := by
  cases hh : s.halt with
  | false =>
    show s.clearError = { s with halt := false }
    rw [State.clearError_of_running hh, ← hh]
  | true => exact State.clearError_of_halted hh

/-- A write of CTRL without SOFT_RESET, field by field (R50). -/
theorem State.writeCtrl_eq {s : State} {v : Word} (noReset : v.getLsbD 0 = false) :
    s.writeCtrl v =
      { s with
        halt := s.halt && !v.getLsbD 1
        errCode := if s.halt && v.getLsbD 1 then 0 else s.errCode
        errCmd := if s.halt && v.getLsbD 1 then 0 else s.errCmd
        errArg := if s.halt && v.getLsbD 1 then 0 else s.errArg
        outq := if v.getLsbD 2 then [] else s.outq } := by
  have hflush (u : State) :
      (if v.getLsbD 2 then u.flushOut else u) = { u with outq := if v.getLsbD 2 then [] else u.outq } := by
    split <;> rfl
  simp only [State.writeCtrl, noReset, hflush, Bool.false_eq_true, if_false]
  cases v.getLsbD 1 with
  | false => simp
  | true => simp [State.clearError_eq]

end Sys2Proof.Machine

namespace Sys2Proof.Proofs

open Sys2Proof Sys2Proof.Machine Sys2Proof.Statements

/-- Settles O35: a write of CTRL is laid out by `State.writeCtrl_eq`, and of 0 it is no write at all. -/
theorem controlWrites : Obligations.ControlWrites := fun _ _ noReset =>
  ⟨writes_of_regAt (r := .ctrl) rfl (State.writeCtrl_eq noReset), writes_of_regAt (r := .ctrl) rfl rfl,
    reads_of_regAt (r := .ctrl) rfl rfl⟩

end Sys2Proof.Proofs
end

section
/-! The sticky bits of IRQ_PEND and HALT (O57): what sets each of them, and what clears it. -/

namespace Sys2Proof.Machine

open Sys2Proof.Statements (nextRuns nextIsReset nextIsWrite)

/-! ### The signals -/

/-- The sticky bits of IRQ_PEND (R55), and HALT (R41). -/
inductive Signal where
  /-- P_ERR. -/
  | err
  /-- P_IDLE. -/
  | idle
  /-- P_ENC_DONE. -/
  | encDone
  /-- P_DEC_DONE. -/
  | decDone
  /-- HALT. -/
  | halt

/-- The value of a signal. -/
def State.signal (s : State) : Signal → Bool
  | .err => s.pErr
  | .idle => s.pIdle
  | .encDone => s.pEncDone
  | .decDone => s.pDecDone
  | .halt => s.halt

/-- The register whose write clears a signal: IRQ_PEND (R55), or CTRL by its ERR_CLEAR (R50). -/
def Signal.register : Signal → Nat
  | .halt => 0x0C
  | _ => 0x24

/-- The bit of that register that clears a signal. -/
def Signal.bit : Signal → Nat
  | .err => 0
  | .idle => 1
  | .encDone => 3
  | .decDone => 4
  | .halt => 1

/-- The event that clears a signal in the next step from `s` (R139, R142). -/
def Signal.clears (b : Signal) (s : State) : Prop :=
  (∃ v, nextIsWrite s b.register v ∧ v.getLsbD b.bit = true) ∨ nextIsReset s

/-- The event that sets a signal in the step from `s` to `t` (R136, R142). -/
def Signal.sets (s t : State) : Signal → Prop
  | .err => s.halt = false ∧ t.halt = true
  | .idle => (∃ i, nextRuns s i) ∧ t.cmdq = [] ∧ t.halt = false
  | .encDone => nextRuns s .encFinish
  | .decDone => ∃ b, nextRuns s (.decByte b)
  | .halt => t.pErr = true ∧ 1 ≤ t.errCode.toNat ∧ t.errCode.toNat ≤ 10 ∧ t.cmdq = []

/-- A step leaves a signal as it is, or sets it, or clears it. -/
inductive SignalMove (b : Signal) (s t : State) : Prop where
  /-- The signal is as it was. -/
  | kept (same : t.signal b = s.signal b)
  /-- The signal is 1, by its own event. -/
  | set (on : t.signal b = true) (event : b.sets s t)
  /-- The signal is 0, by a write of 1 to its bit or by a reset. -/
  | cleared (off : t.signal b = false) (event : b.clears s)

/-! ### The signals in a command's work -/

/-- A payload bit can only set P_DEC_DONE (R126). -/
theorem State.decBit_pDecDone (s : State) (b : Bool) :
    (s.decBit b).pDecDone = s.pDecDone ∨ (s.decBit b).pDecDone = true := by
  rcases s.decBit_cases b with ⟨-, h⟩ | ⟨-, ⟨sym, -, -, h⟩ | ⟨sym, -, -, h⟩ | ⟨-, h⟩⟩ <;> rw [h]
  · exact .inl rfl
  · exact .inr rfl
  · exact .inl rfl
  · unfold State.noMatchYet
    split <;> exact .inl rfl

theorem State.decBitList_pDecDone (s : State) (bits : List Bool) :
    (s.decBitList bits).pDecDone = s.pDecDone ∨ (s.decBitList bits).pDecDone = true := by
  induction bits generalizing s with
  | nil => exact .inl rfl
  | cons b rest ih =>
    rw [State.decBitList_cons]
    rcases ih (s.decBit b) with hrest | hrest
    · rw [hrest]
      exact s.decBit_pDecDone b
    · exact .inr hrest

section
variable {s u : State} {i : Instr} (h : s.worksTo i u)
include h

/-- Only ENC_FINISH writes P_ENC_DONE, to set it (R123). -/
theorem State.worksTo_pEncDone : u.pEncDone = s.pEncDone ∨ (i = .encFinish ∧ u.pEncDone = true) := by
  have hframe := congrArg State.pEncDone (State.worksTo_frame h)
  cases i with
  | encStart => obtain rfl | rfl := h <;> exact .inl rfl
  | encSample m v =>
    obtain rfl | rfl | ⟨-, rfl⟩ := h
    · exact .inl rfl
    · exact .inl rfl
    · exact .inl (congrArg State.pEncDone (s.emitBits_frame _) :)
  | encFinish =>
    obtain rfl | ⟨-, rfl⟩ := h
    · exact .inl rfl
    · exact .inr ⟨rfl, rfl⟩
  | _ => exact .inl hframe

/-- Only DEC_BYTE writes P_DEC_DONE, to set it (R126, R128). -/
theorem State.worksTo_pDecDone : u.pDecDone = s.pDecDone ∨ ((∃ b, i = .decByte b) ∧ u.pDecDone = true) := by
  have hframe := congrArg State.pDecDone (State.worksTo_frame h)
  cases i with
  | decStart => obtain rfl | rfl := h <;> exact .inl rfl
  | decByte b =>
    obtain rfl | ⟨-, h⟩ := h
    · exact .inl rfl
    · rw [h]
      exact (s.decBitList_pDecDone (byteBits b)).imp_right (⟨⟨b, rfl⟩, ·⟩)
  | decEnd => obtain rfl | rfl := h <;> exact .inl rfl
  | _ => exact .inl hframe

/-- The work of a command leaves P_ERR, P_IDLE and HALT to its end. -/
theorem State.worksTo_pErr_pIdle_halt : u.pErr = s.pErr ∧ u.pIdle = s.pIdle ∧ u.halt = s.halt := by
  have hc := State.worksTo_control h
  simp only [State.control, Prod.mk.injEq] at hc
  obtain ⟨-, -, hhalt, -, -, -, -, herr, hidle, -⟩ := hc
  exact ⟨herr, hidle, hhalt⟩

end

/-! ### The signals in a step -/

/-- An error entry sets P_ERR and HALT, and no other signal (R136, R142). -/
theorem SignalMove.of_recordError {b : Signal} {s u : State} (running : s.halt = false) (same : u.signal b = s.signal b)
    (k : ErrKind) (w arg : Word) : SignalMove b s (u.recordError k w arg) := by
  cases b with
  | err => exact .set rfl ⟨running, rfl⟩
  | halt => exact .set rfl ⟨rfl, k.code_bounds.1, k.code_bounds.2, rfl⟩
  | _ => exact .kept same

/-- Retirement sets P_IDLE where it leaves CMDQ empty, and no other signal (R95, R142). -/
theorem SignalMove.of_retire {b : Signal} {s u : State} {i : Instr} (next : nextRuns s i) (running : u.halt = false)
    (same : u.signal b = s.signal b) : SignalMove b s u.retire := by
  cases b with
  | idle =>
    cases hq : u.cmdq.tail with
    | nil => exact .set (by simp [State.signal, hq]) ⟨⟨i, next⟩, hq, running⟩
    | cons w q => exact .kept (by simpa [State.signal, hq] using same)
  | _ => exact .kept same

/-- A command sets P_ENC_DONE or P_DEC_DONE by its work, and the other signals by its end. -/
theorem SignalMove.of_command {s u v t : State} {i : Instr} (next : nextRuns s i) (running : u.halt = false)
    (same : ∀ b, u.signal b = s.signal b) (work : u.worksTo i v) (ends : v.endsIn t) (b : Signal) : SignalMove b s t := by
  obtain ⟨herr, hidle, hhalt⟩ := State.worksTo_pErr_pIdle_halt work
  have ended (hv : v.signal b = u.signal b) : SignalMove b s t := by
    have hv := hv.trans (same b)
    obtain rfl | ⟨k, arg, rfl⟩ := ends
    · exact .of_retire next (hhalt.trans running) hv
    · exact .of_recordError ((same .halt).symm.trans running) hv k _ arg
  have hdone : t.pEncDone = v.pEncDone ∧ t.pDecDone = v.pDecDone := by
    obtain rfl | ⟨k, arg, rfl⟩ := ends <;> exact ⟨rfl, rfl⟩
  cases b with
  | err => exact ended herr
  | idle => exact ended hidle
  | halt => exact ended hhalt
  | encDone =>
    rcases State.worksTo_pEncDone work with hv | ⟨rfl, hset⟩
    · exact ended hv
    · exact .set (hdone.1.trans hset) next
  | decDone =>
    rcases State.worksTo_pDecDone work with hv | ⟨⟨x, rfl⟩, hset⟩
    · exact ended hv
    · exact .set (hdone.2.trans hset) ⟨x, next⟩

/-- A write of CTRL without SOFT_RESET clears HALT by ERR_CLEAR, and no other signal (R139). -/
theorem SignalMove.of_writeCtrl {b : Signal} {s u : State} {v : Word} (next : nextIsWrite s 0x0C v)
    (noReset : v.getLsbD 0 = false) (same : u.signal b = s.signal b) : SignalMove b s (u.writeCtrl v) := by
  rw [State.writeCtrl_eq noReset]
  cases b with
  | halt =>
    cases hclear : v.getLsbD 1 with
    | false => exact .kept ((Bool.and_true u.halt).trans same)
    | true => exact .cleared (Bool.and_false u.halt) (.inl ⟨v, next, hclear⟩)
  | _ => exact .kept same

/-- Writing 1 to the bit of a signal in IRQ_PEND clears the signal (R55). -/
theorem State.clearPending_signal (s : State) (v : Word) {b : Signal} (sticky : b ≠ .halt) :
    b.register = 0x24 ∧ (s.clearPending v).signal b = (s.signal b && !v.getLsbD b.bit) := by
  cases b with
  | halt => exact absurd rfl sticky
  | _ => exact ⟨rfl, rfl⟩

/-- A write of IRQ_PEND clears the sticky bits to which it writes 1 (R55, R142). -/
theorem SignalMove.of_clearPending {b : Signal} {s u : State} {v : Word} (next : nextIsWrite s 0x24 v)
    (same : u.signal b = s.signal b) : SignalMove b s (u.clearPending v) := by
  by_cases hb : b = .halt
  · subst hb
    exact .kept same
  · obtain ⟨hregister, hvalue⟩ := u.clearPending_signal v hb
    cases hbit : v.getLsbD b.bit with
    | false => exact .kept (by rw [hvalue, hbit, same, Bool.not_false, Bool.and_true])
    | true =>
      exact .cleared (by rw [hvalue, hbit, Bool.not_true, Bool.and_false]) (.inl ⟨v, hregister ▸ next, hbit⟩)

/-- A write of CMD sets no signal but by CMDQ_OVERFLOW, which a core that is not halted raises (R56). -/
theorem SignalMove.of_pushCommand {s u : State} (same : ∀ b, u.signal b = s.signal b) (w : Word) (b : Signal) :
    SignalMove b s (u.pushCommand w) := by
  cases hh : u.halt with
  | true =>
    rw [State.pushCommand_of_halted w hh]
    exact .kept (same b)
  | false =>
    rcases u.pushCommand_cases w with hp | ⟨-, -, hp⟩ | hp <;> rw [hp]
    · exact .kept (same b)
    · exact .kept (same b)
    · exact .of_recordError ((same .halt).symm.trans hh) (same b) .cmdqOverflow w 0

/-- A reset clears every signal (R153). -/
theorem SignalMove.of_reset {s : State} (next : nextIsReset s) (u : State) (b : Signal) : SignalMove b s u.resetAll := by
  refine .cleared ?_ (.inr next)
  cases b <;> rfl

/-- What a step does to the signals, whatever it takes from the agenda. -/
theorem StepEffect.signalMove {s u t : State} (he : StepEffect s u t) (same : ∀ b, u.signal b = s.signal b) (b : Signal) :
    SignalMove b s t := by
  cases he with
  | none => exact .kept (same b)
  | illegal running => exact .of_recordError ((same .halt).symm.trans running) (same b) .illegalCmd _ 0
  | command i v t next running room work ends => exact .of_command next running same work ends b
  | reset next => exact .of_reset next u b
  | read => exact .kept (same b)
  | readOut => exact .kept (same b)
  | control v next noReset => exact .of_writeCtrl next noReset (same b)
  | irqEnable => exact .kept (same b)
  | acknowledge v next => exact .of_clearPending next (same b)
  | queue v => exact .of_pushCommand same v b
  | index => exact .kept (same b)

/-- Every step leaves each signal as it is, or sets it by its event, or clears it by its event (R142). -/
theorem step_signal {s t : State} (h : step s = .next t) (b : Signal) : SignalMove b s t := by
  obtain ⟨a, he⟩ := step_effect h
  exact he.signalMove (fun _ => rfl) b

section
variable {s t : State} (h : step s = .next t) (b : Signal)
include h

theorem step_sets_signal (off : s.signal b = false) (on : t.signal b = true) : b.sets s t := by
  cases step_signal h b with
  | kept same => simp [same, off] at on
  | set _ event => exact event
  | cleared hoff => simp [hoff] at on

theorem step_clears_signal (on : s.signal b = true) (off : t.signal b = false) : b.clears s := by
  cases step_signal h b with
  | kept same => simp [same, on] at off
  | set hon => simp [hon] at off
  | cleared _ event => exact event

end

end Sys2Proof.Machine

namespace Sys2Proof.Proofs

open Sys2Proof Sys2Proof.Machine Sys2Proof.Statements

/-- Settles O57: P_ERR and HALT are set by error entries, P_IDLE by a retirement, the two done bits by the work of their
commands; only the writes of `Signal.register` and a reset clear them. -/
theorem stickyBitsAndHalt : Obligations.StickyBitsAndHalt := fun _ _ h =>
  ⟨step_sets_signal h .err, step_clears_signal h .err, step_sets_signal h .idle, step_clears_signal h .idle,
    step_sets_signal h .encDone, step_clears_signal h .encDone, step_sets_signal h .decDone, step_clears_signal h .decDone,
    step_sets_signal h .halt, step_clears_signal h .halt⟩

end Sys2Proof.Proofs
end

section
/-! The SEQUENCE preconditions (O8). -/

namespace Sys2Proof.Machine

theorem execBuildCodes_of_invalid {s : State} (hs : s.lenValid = false) :
    execBuildCodes s = .next (s.raiseError .sequence 0) := by
  simp [execBuildCodes, State.lenReady, hs]

end Sys2Proof.Machine

namespace Sys2Proof.Proofs

open Sys2Proof Sys2Proof.Machine Sys2Proof.Statements

/-- Settles O8: each row is the command's outcome with its condition false, and the three commands without a condition
retire. -/
theorem sequencePreconditions : Obligations.SequencePreconditions := by
  intro s w q hc
  have raised {o : Host.Outcome State Fault Refusal} (h : o = .next (s.raiseError .sequence 0)) :
      o = .next (failed s 0x02 w 0) := h.trans (congrArg _ (State.raiseError_of_cons hc .sequence 0))
  have encFailed {o : Host.Outcome State Fault Refusal} (h : o = .next (s.encFail .sequence 0)) :
      o = .next (failed { s with encActive := false } 0x02 w 0) := h.trans (congrArg _ (State.encFail_of_cons hc .sequence 0))
  refine ⟨fun hs => ⟨fun m v => raised (execHistSample_of_invalid m hs), raised (execBuildTree_of_invalid hs)⟩,
    fun hs => ⟨fun sym l => raised (execLenWrite_of_invalid hs), raised (execBuildCodes_of_invalid hs)⟩,
    fun hs => ⟨raised (execEncStart_of_invalid hs), raised (execDecStart_of_invalid hs)⟩,
    fun hno => ⟨fun m v => encFailed (execEncSample_of_notReady m (State.encReady_of_closed hno)),
      encFailed (execEncFinish_of_notReady (State.encReady_of_closed hno))⟩,
    fun hno b => (execDecByte_of_notReady b hno).trans (congrArg _ (State.decFail_of_cons hc .sequence 0)),
    fun hidle => raised (execDecEnd_of_idle hidle), ?_⟩
  have hq (t : State) (ht : t.cmdq = s.cmdq) : t.retire.cmdq = q := by rw [State.retire_cmdq, ht, hc, List.tail_cons]
  simp only [List.forall_mem_cons, List.not_mem_nil, false_imp_iff, implies_true, and_true]
  exact ⟨⟨s.retire, rfl, rfl, hq s rfl⟩, ⟨s.startHistogram.retire, rfl, rfl, hq s.startHistogram rfl⟩,
    ⟨s.clearLengths.retire, rfl, rfl, hq s.clearLengths rfl⟩⟩

end Sys2Proof.Proofs
end

section
/-! The fields of STATUS and the interrupt output (O42). -/

namespace Sys2Proof.Machine

/-! ### The interrupt output (R143) -/

theorem bne_zero_eq_or_bits (x : BitVec 5) :
    (x != 0) = (x.getLsbD 0 || x.getLsbD 1 || x.getLsbD 2 || x.getLsbD 3 || x.getLsbD 4) := by
  revert x
  decide

theorem State.irq_eq (s : State) :
    s.irq =
      ((s.irqEn.getLsbD 0 && s.pErr) || (s.irqEn.getLsbD 1 && s.pIdle) || (s.irqEn.getLsbD 2 && !s.outq.isEmpty)
        || (s.irqEn.getLsbD 3 && s.pEncDone) || (s.irqEn.getLsbD 4 && s.pDecDone)) := by
  simp only [State.irq, bne_zero_eq_or_bits, State.irqPend, BitVec.getLsbD_and, BitVec.getLsbD_append]
  simp [State.pOut]

/-! ### The layout of STATUS (R51) -/

theorem State.status_flags (s : State) :
    s.status.getLsbD 0 = s.busy ∧ s.status.getLsbD 1 = s.halt ∧ s.status.getLsbD 2 = s.histValid
      ∧ s.status.getLsbD 3 = s.lenValid ∧ s.status.getLsbD 4 = s.codesValid ∧ s.status.getLsbD 5 = s.encActive
      ∧ s.status.getLsbD 24 = s.irq := by
  simp only [State.status, BitVec.getLsbD_append]
  simp

theorem State.status_fields (s : State) :
    s.status.extractLsb' 6 2 = s.decState.bits ∧ s.status.extractLsb' 8 8 = s.cmdqLevel
      ∧ s.status.extractLsb' 16 8 = s.outqLevel ∧ s.status.extractLsb' 25 7 = 0 := by
  unfold State.status
  simp (disch := decide) only [BitVec.extractLsb'_append_eq_of_le, BitVec.extractLsb'_append_eq_of_add_le]
  simp

/-! ### The fields as numbers (R36, R39, R40) -/

theorem DecState.bits_toNat (d : DecState) :
    d.bits.toNat = match d with | .idle => 0 | .run => 1 | .noMatch => 2 | .done => 3 := by
  cases d <;> rfl

theorem State.cmdqLevel_toNat {s : State} (h : s.cmdq.length ≤ 255) : s.cmdqLevel.toNat = s.cmdq.length :=
  Nat.mod_eq_of_lt (Nat.lt_succ_of_le h)

theorem State.outqLevel_toNat {s : State} (h : s.outq.length ≤ 255) : s.outqLevel.toNat = s.outq.length :=
  Nat.mod_eq_of_lt (Nat.lt_succ_of_le h)

end Sys2Proof.Machine

namespace Sys2Proof.Proofs

open Sys2Proof Sys2Proof.Machine Sys2Proof.Statements

/-- Settles O42: the layout of STATUS gives each field its view, and a level below 256 is the number of queued words. -/
theorem statusFields : Obligations.StatusFields := by
  intro s hc ho
  obtain ⟨hbusy, hhalt, hhist, hlen, hcodes, hactive, hirq⟩ := s.status_flags
  obtain ⟨hstate, hcmdq, houtq, hzero⟩ := s.status_fields
  exact ⟨⟨s.status, reads_of_regAt (r := .status) rfl rfl, hbusy, hhalt, hhist, hlen, hcodes, hactive,
      (congrArg BitVec.toNat hstate).trans s.decState.bits_toNat,
      (congrArg BitVec.toNat hcmdq).trans (State.cmdqLevel_toNat hc),
      (congrArg BitVec.toNat houtq).trans (State.outqLevel_toNat ho), hirq.trans s.irq_eq, hzero⟩,
    reads_of_regAt (r := .errCode) rfl rfl, reads_of_regAt (r := .errCmd) rfl rfl, reads_of_regAt (r := .errArg) rfl rfl⟩

end Sys2Proof.Proofs
end

section
/-! The state at reset: the values that it has and the invariants that it meets (O43, O53). -/

namespace Sys2Proof.Machine

/-- No field of STATUS (R51) has a bit set at reset. -/
theorem State.reset_status : State.reset.status = 0 := by decide

/-! ### The invariants at reset -/

theorem State.reset_tablesWf : State.reset.tablesWf :=
  ⟨Table.wf_unspecified _ _ _, Table.wf_unspecified _ _ _, Table.wf_unspecified _ _ _, Table.wf_unspecified _ _ _,
    Table.wf_unspecified _ _ _⟩

theorem State.reset_params_legal : State.reset.params.legal := by decide

theorem State.reset_fifosFit : State.reset.fifosFit := ⟨Nat.zero_le _, Nat.zero_le _⟩

theorem State.reset_errorSound : State.reset.errorSound := ⟨fun _ => ⟨rfl, rfl, rfl⟩, nofun⟩

theorem State.reset_histogramSound : State.reset.histogramSound := nofun

theorem State.reset_lengthsSound : State.reset.lengthsSound := ⟨nofun, Nat.zero_le _, nofun⟩

theorem State.reset_codesSound : State.reset.codesSound := nofun

theorem State.reset_pendingSound : State.reset.pendingSound := State.pendingSound_of_empty rfl

theorem State.reset_walkSound : State.reset.walkSound := ⟨Nat.zero_le _, nofun, Nat.one_pos⟩

end Sys2Proof.Machine

namespace Sys2Proof.Proofs

open Sys2Proof Sys2Proof.Machine Sys2Proof.Statements

/-- Settles O43: the fields hold their values by definition, and STATUS is read as the register that it is. -/
theorem resetValues : Obligations.ResetValues := by
  have status : reads State.reset 0x10 0 State.reset :=
    reads_of_regAt (r := .status) rfl (congrArg (·, State.reset) State.reset_status)
  exact ⟨rfl, rfl, rfl, rfl, rfl, rfl, rfl, rfl, rfl, rfl, rfl, rfl, rfl, rfl, rfl, rfl, rfl, rfl, rfl, rfl, rfl, rfl, rfl,
    rfl, rfl, rfl, rfl, rfl, rfl, status⟩

/-- Settles O53: no flag is set, nothing is queued, pending or walked, and there is no error, so each invariant holds. -/
theorem resetIsSound : Obligations.ResetIsSound :=
  ⟨State.reset_tablesWf, State.reset_params_legal, State.reset_fifosFit, State.reset_errorSound,
    State.reset_histogramSound, State.reset_lengthsSound, State.reset_codesSound, State.reset_pendingSound,
    State.reset_walkSound⟩

end Sys2Proof.Proofs
end
